-- ==== Sys2Proof/Word.lean ====
section
/-! DEFINITION. The bit widths of FPE's registers (spec/10_state.md R30, 92_eei_decisions.md D2).
Only the plain word types stand here; every operation on them stands in a file under Machine/. -/

namespace Sys2Proof

/-- A byte: every cell of every address space, every frame field, `SEQ`, `CMD`, `STATUS` (R5, R40). -/
abbrev Byte := BitVec 8

/-- A register of `LEN_W` = 32 bits: lengths, counts and times (R4, R30). -/
abbrev Word := BitVec 32

/-- The host command word, a 73-bit parallel word (R68). -/
abbrev HostWord := BitVec 73

end Sys2Proof
end

