-- ==== Sys2Proof/Machine/Codes.lean ====
section
/-! DEFINITION. The constants of spec/00_scope.md R4 and the code tables of spec/30_encoding.md R63, R69 and R70. -/

namespace Sys2Proof.Machine

/-- `N_ATTEMPTS` (R4): attempts per frame transmission before `WriteFailed`. -/
def nAttempts : Nat := 5

/-- `T_SUB` (R4): the per-attempt sub-timeout in milliseconds, the source's reference value (notes/assumptions/20.md). -/
def tSub : Word := 200

/-- `T_INF` (R4, D7): the sentinel infinite timeout. -/
def tInf : Word := 0xFFFFFFFF

/-- `CRC_POLY` (R4). -/
def crcPoly : Byte := 0x91

/-! Type bytes (R63). The six control codes are the spec's own decision D3 (notes/assumptions/12.md). -/

def ftAck : Byte := 0x0A
def ftNack : Byte := 0x0B
def ftSeqBegin : Byte := 0x0C
def ftSeqEnd : Byte := 0x0D
def ftSetSend : Byte := 0x0E
def ftSetRecv : Byte := 0x0F
def ftData : Byte := 0x10

/-! Host command codes (R69). -/

def cmdWrite : Byte := 0x01
def cmdRead : Byte := 0x02
def cmdReqPeerSend : Byte := 0x03
def cmdReqPeerRecv : Byte := 0x04

/-! The two normal completion codes (R70). -/

def statusOk : Byte := 0x00
def statusModeSwitched : Byte := 0x01

/-- The seven error kinds (60_exceptions.md R220). -/
inductive ErrorKind where
  | incorrectParameter
  | incorrectMode
  | timeout
  | writeFailed
  | readFailed
  | invalidFrame
  | bufferOverflow
  deriving DecidableEq, Repr

/-- The status code of an error kind (R70, R222). -/
def errorCode : ErrorKind → Byte
  | .incorrectParameter => 0x81
  | .incorrectMode => 0x82
  | .timeout => 0x83
  | .writeFailed => 0x84
  | .readFailed => 0x85
  | .invalidFrame => 0x86
  | .bufferOverflow => 0x87

end Sys2Proof.Machine
end

