-- ==== Sys2Proof/Machine/Operands.lean ====
section
/-! DEFINITION. Operand assembly: the fields of a frame (spec/30_encoding.md R61, R62, R65) and of a host command word
(R68), and the packers that put them together again (41_frame_codec.md R111, R112). -/

namespace Sys2Proof.Machine

/-- The bytes a frame's checksum covers: `f[0 .. n-2]` (R65). -/
def frameBody (f : List Byte) : List Byte := f.dropLast

/-- `seq` = `f[1]` (R65). -/
def frameSeq (f : List Byte) : Byte := f.getD 1 0

/-- `payload` = `f[2 .. n-2]` (R65, R115). -/
def framePayload (f : List Byte) : List Byte := (frameBody f).drop 2

/-- `VERIFY(f)` (R113): false when empty; otherwise the checksum of all bytes but the last is compared with the last. -/
def verify (f : List Byte) : Bool :=
  match f.getLast? with
  | none => false
  | some cks => crc7 (frameBody f) == cks

/-- A byte sequence followed by its checksum. -/
def sealFrame (b : List Byte) : List Byte := b ++ [crc7 b]

/-- The frame `ENC_CTRL(type)` leaves in `TXF` (R111, format R61). -/
def ctrlFrame (type : Byte) : List Byte := sealFrame [type]

/-- The frame `ENC_DATA(seq, payload)` leaves in `TXF` (R112, format R62). -/
def dataFrame (seq : Byte) (payload : List Byte) : List Byte := sealFrame (ftData :: seq :: payload)

/-- `cmd`, bits 7:0 of a host command word (R68). -/
def hostCmd (w : HostWord) : Byte := w.extractLsb' 0 8

/-- `len`, bits 39:8 (R68). -/
def hostLen (w : HostWord) : Word := w.extractLsb' 8 32

/-- `timeout`, bits 71:40 (R68). -/
def hostTmo (w : HostWord) : Word := w.extractLsb' 40 32

/-- `buf_valid`, bit 72 (R68). -/
def hostBufv (w : HostWord) : Bool := w.getLsbD 72

/-- The host command word with these fields (R68). -/
def hostWord (cmd : Byte) (len tmo : Word) (bufv : Bool) : HostWord :=
  BitVec.ofBool bufv ++ tmo ++ len ++ cmd

/-- The completion word, format HRSP: `status` in bits 7:0, `count` in bits 39:8 (R70). -/
def completionWord (status : Byte) (count : Word) : BitVec 40 := count ++ status

end Sys2Proof.Machine
end

