-- ==== Sys2Proof/Config.lean ====
section
/-! DEFINITION. What an implementation fixes (the configuration record of spec/00_scope.md R4) and what the
environment decides (the transport's answers of R8), with the free values that stand for answers no state lists. -/

namespace Sys2Proof

/-- The switching policy (10_state.md R12). -/
inductive Policy where
  | auto
  | manual
  deriving DecidableEq, Repr, Inhabited

/-- `P_MALFORMED`: what the receive loop does with a verified frame it cannot classify (R4, R177; the spec leaves it
OPEN with default `Nack`, 92_eei_decisions.md D16). -/
inductive PMalformed where
  | nack
  | ack
  | raise
  deriving DecidableEq, Repr, Inhabited

/-- The configuration record fixed at reset: the parameters R4 marks *config*, and `P_MALFORMED`, which
93_implementation_defined.md U6 makes a parameter (notes/assumptions/14.md). -/
structure Config where
  mtu : Word
  policy0 : Policy
  reserve : Word
  pMalformed : PMalformed
  deriving DecidableEq, Repr, Inhabited

/-- `1 <= MTU <= 2^32 - 4` (R4, 92_eei_decisions.md D34): "A configuration with `MTU` = 0 is not a valid FPE". -/
abbrev Config.WellFormed (c : Config) : Prop := 1 ≤ c.mtu.toNat ∧ c.mtu.toNat ≤ 2 ^ 32 - 4

/-- The configuration `State.reset` is built with: the source's worked `MTU` of 1021 (42_send_path.md R138), the default
policy and the default `P_MALFORMED`. DESIGN CHOICE (notes/assumptions/5.md): the spec fixes no `MTU` and no `RESERVE`. -/
def Config.reference : Config :=
  { mtu := 1021, policy0 := .auto, reserve := 0, pMalformed := .nack }

/-- The outcome of a `TxCall` (R8). -/
inductive TxOutcome where
  | txOk (k : Nat)
  | txTimeout
  | txError
  deriving DecidableEq, Repr, Inhabited

/-- The outcome of an `RxCall` (R8). -/
inductive RxOutcome where
  | rxOk (b : List Byte)
  | rxNone
  | rxError
  deriving DecidableEq, Repr, Inhabited

/-- What the environment answers to one `TxCall`: the outcome and the milliseconds `dt` that passed (R8). -/
structure TxAnswer where
  outcome : TxOutcome
  dt : Nat
  deriving DecidableEq, Repr, Inhabited

/-- What the environment answers to one `RxCall`: the outcome and the milliseconds `dt` that passed (R8). -/
structure RxAnswer where
  outcome : RxOutcome
  dt : Nat
  deriving DecidableEq, Repr, Inhabited

/-- FREE VALUE: the answer to a `TxCall` for which the state lists none, at each use a fresh index
(93_implementation_defined.md U12 "any value (a draw per call, under no law)"; notes/assumptions/1.md). -/
opaque Config.freeTx : Nat → TxAnswer

/-- FREE VALUE: the answer to an `RxCall` for which the state lists none (U12; notes/assumptions/1.md). -/
opaque Config.freeRx : Nat → RxAnswer

end Sys2Proof
end

