-- ==== Sys2Proof/Machine/State.lean ====
section
/-! DEFINITION. The state of one FPE (spec/10_state.md), the ways a step can stop, and the state after reset. -/

namespace Sys2Proof.Machine

/-- The role register `MODE` (R11). Its value 3 "is never produced and has no meaning" and is not representable. -/
inductive Mode where
  | undefined
  | sender
  | receiver
  deriving DecidableEq, Repr

/-- A role an engine can be asked to take: the *target role* of a negotiation frame or of `WaitMode` (R205). -/
inductive Role where
  | sender
  | receiver
  deriving DecidableEq, Repr

/-- The operand `phase` of `RecvLoop`: `Msg` or `WaitMode(target)` (R27, R162). -/
inductive RecvPhase where
  | msg
  | wait (target : Role)
  deriving DecidableEq, Repr

/-- `PH` (R27), "not architectural": the points at which one step of the model ends and the next begins
(notes/assumptions/3.md). `idle`: no command running. `recv w`: the head of `RecvLoop(w)`, before its `RxCall`. `send`:
step 5 of `WRITE`, before its first frame. `segment`: the `while` of step 5 of `WRITE`. -/
inductive Phase where
  | idle
  | recv (w : RecvPhase)
  | send
  | segment
  deriving DecidableEq, Repr

/-- One transport call as it was made and answered (R8, R75): the frame or the size asked for, the time limit handed to
the transport, the outcome, the elapsed time. -/
inductive Call where
  | tx (frame : List Byte) (limit : Word) (o : TxOutcome) (dt : Nat)
  | rx (maxlen : Nat) (limit : Word) (o : RxOutcome) (dt : Nat)
  deriving DecidableEq, Repr

/-- A move of the host (R7, R10, R250): present a command word, write a byte of HBUF, reset the engine with a
configuration record. -/
inductive HostMove where
  | command (w : HostWord)
  | poke (addr : Word) (b : Byte)
  | reset (c : Config)
  deriving DecidableEq, Repr

/-- The machine. The fields down to `crcacc` are the registers and buffers of 10_state.md; `hbuf` is the host's memory;
the last five are the model's own: the host's and the environment's choices to come, and what has passed on the
transport. -/
structure State where
  /-- `MODE` (R11) -/
  mode : Mode
  /-- `POLICY` (R12) -/
  policy : Policy
  /-- `MTU` (R13) -/
  mtu : Word
  /-- `RESERVE` (R14): no rule reads it -/
  reserve : Word
  /-- `P_MALFORMED` (R4, R177), fixed at reset (notes/assumptions/14.md) -/
  pMalformed : PMalformed
  /-- `SEQ` (R15) -/
  seq : Byte
  /-- `INSEQ` (R16) -/
  inseq : Bool
  /-- `RB[0..RB_LEN-1]` (R17): `RB_LEN` is its length -/
  rb : List Byte
  /-- `CMD` (R18) -/
  cmd : Byte
  /-- `LEN` (R18) -/
  len : Word
  /-- `TMO` (R18) -/
  tmo : Word
  /-- `BUFV` (R18) -/
  bufv : Bool
  /-- `ELAPSED`, saturating (R19) -/
  elapsed : Word
  /-- `ATTEMPT` (R20) -/
  attempt : BitVec 3
  /-- `OFF` (R21) -/
  off : Word
  /-- `STATUS` (R22) -/
  status : Byte
  /-- `COUNT` (R22) -/
  count : Word
  /-- `BUSY` (R23) -/
  busy : Bool
  /-- `TXF[0..TXF_LEN-1]` (R24): `TXF_LEN` is its length -/
  txf : List Byte
  /-- `RXF[0..RXF_LEN-1]` (R24): `RXF_LEN` is its length -/
  rxf : List Byte
  /-- `PH` (R27) -/
  ph : Phase
  /-- `CRCACC` (R28) -/
  crcacc : Byte
  /-- `HBUF` (20_memory.md R41), host memory -/
  hbuf : List Host.Cell
  /-- the host's moves to come, oldest first (model's own, notes/assumptions/9.md) -/
  host : List HostMove
  /-- the environment's answers to the coming `TxCall`s (model's own, notes/assumptions/1.md) -/
  txq : List TxAnswer
  /-- the environment's answers to the coming `RxCall`s (model's own, notes/assumptions/1.md) -/
  rxq : List RxAnswer
  /-- how many free values were drawn (model's own, notes/assumptions/1.md) -/
  draws : Nat
  /-- the transport calls made, newest first (model's own, notes/assumptions/18.md) -/
  trace : List Call
  deriving DecidableEq, Repr

/-- The ways the model stops with a fault: none. Every error kind of 60_exceptions.md is an exception the machine takes
and goes on from (R224), every access is inside its space (R49), and no rule of the spec leaves an engine stuck. -/
inductive Fault where
  deriving DecidableEq, Repr

/-- The ways the model refuses. -/
inductive Refusal where
  /-- Raised by an arm of `exec` that has no meaning yet; no arm raises it. Safe: nothing is claimed of such a step. -/
  | notModelled (mnemonic : String)
  /-- Raised by the host's reset move when its configuration record "is not a valid FPE" (92_eei_decisions.md D34;
  notes/assumptions/22.md). Safe: the host has no such move, and nothing is claimed of such a step. -/
  | invalidConfiguration
  deriving DecidableEq, Repr

/-- The state after the reset event with configuration record `c` (70_reset_and_hazards.md R250, R251). HBUF is not FPE
state; with it and with the model's own fields nothing is listed. -/
def State.resetWith (c : Config) : State where
  mode := .undefined
  policy := c.policy0
  mtu := c.mtu
  reserve := c.reserve
  pMalformed := c.pMalformed
  seq := 0
  inseq := false
  rb := []
  cmd := 0
  len := 0
  tmo := 0
  bufv := false
  elapsed := 0
  attempt := 0
  off := 0
  status := 0
  count := 0
  busy := false
  txf := []
  rxf := []
  ph := .idle
  crcacc := 0
  hbuf := []
  host := []
  txq := []
  rxq := []
  draws := 0
  trace := []

/-- The machine right after reset (R251), with the configuration of `Config.reference` (notes/assumptions/5.md). -/
def State.reset : State := State.resetWith Config.reference

end Sys2Proof.Machine
end

