-- ==== Sys2Proof/Machine/Flags.lean ====
section
/-! DEFINITION. The conditions the rules compute from the state and the operands: the deadline (spec/42_send_path.md
R131), the reply test (41_frame_codec.md R119), the duplicate and out-of-order detectors (43_receive_path.md R173, R174),
the role tests (44_mode_negotiation.md R202, R206), the overflow test (43_receive_path.md R176); and the codes of the
mode and policy flags (10_state.md R11, R12). -/

namespace Sys2Proof.Machine

/-- The 2-bit value of `MODE` (R11). -/
def modeCode : Mode → BitVec 2
  | .undefined => 0
  | .sender => 1
  | .receiver => 2

/-- The 1-bit value of `POLICY` (R12). -/
def policyCode : Policy → BitVec 1
  | .auto => 0
  | .manual => 1

/-- The role as a value of `MODE`. -/
def roleMode : Role → Mode
  | .sender => .sender
  | .receiver => .receiver

/-- `Expired()` (R131): the deadline has passed. -/
def expired (s : State) : Bool := decide (s.tmo ≠ tInf) && decide (s.tmo ≤ s.elapsed)

/-- `IsAck(o)` (R119): a verified 2-byte `ACK`. -/
def isAck : RxOutcome → Bool
  | .rxOk b => decide (b.length = 2) && verify b && decide (b.head? = some ftAck)
  | .rxNone => false
  | .rxError => false

/-- `(SEQ + 1) mod 256` (R31 (a)): 8-bit arithmetic wraps. -/
def nextSeq (s : State) : Byte := s.seq + 1

/-- The duplicate detector (R173): "exactly when its `seq` byte equals `SEQ`". -/
def isDuplicate (s : State) (seq : Byte) : Bool := decide (seq = s.seq)

/-- The out-of-order detector (R174), asked of a frame that is not a duplicate. -/
def isOutOfOrder (s : State) (seq : Byte) : Bool := decide (seq ≠ nextSeq s)

/-- `TXF_LEN` (10_state.md R24). -/
def txfLen (s : State) : Nat := s.txf.length

/-- `RXF_LEN` (R24). -/
def rxfLen (s : State) : Nat := s.rxf.length

/-- `RB_LEN` (R17), a natural number. -/
def rbLen (s : State) : Nat := s.rb.length

/-- The test `RB_LEN > LEN` of `Finalize` (R176). -/
def overflows (s : State) : Bool := decide (s.len.toNat < rbLen s)

/-- The completion port, all the host reads of the engine (10_state.md R10, 30_encoding.md R70): `BUSY` and the
completion word. -/
def completionPort (s : State) : Bool × BitVec 40 := (s.busy, completionWord s.status s.count)

/-- `RX_MAX` = `MTU + 3` (R4, R133). -/
def rxMax (s : State) : Nat := s.mtu.toNat + 3

/-- A negotiation frame the policy refuses (R206): `POLICY` = `Manual` and the target is not the current role. -/
def refusesSet (s : State) (target : Role) : Bool :=
  decide (s.policy = .manual) && decide (s.mode ≠ roleMode target)

end Sys2Proof.Machine
end

