-- ==== Sys2Proof/Machine/Memory.lean ====
section
/-! DEFINITION. HBUF as data (spec/20_memory.md R40, R41): the cells that hold something other than what an unlisted
address reads as, at strictly rising addresses. -/

namespace Sys2Proof.Machine

/-- What an unlisted address of HBUF reads as. HBUF holds "whatever the host put there" (R251); for a byte the host has
not put there the model takes 0. DESIGN CHOICE, unsafe (notes/assumptions/4.md). -/
def memDefault : Byte := 0

/-- `HBUF[a]`. The list is in rising order, so the search stops at the first address above `a`. -/
def memRead : List Host.Cell → Nat → Byte
  | [], _ => memDefault
  | (k, c) :: m, a => if a < k then memDefault else if a = k then c else memRead m a

/-- Put one cell in front of a memory unless it holds the default value. -/
def memCons (a : Nat) (b : Byte) (m : List Host.Cell) : List Host.Cell :=
  if b = memDefault then m else (a, b) :: m

/-- `HBUF[a] <- b`, keeping the canonical form. -/
def memWrite : List Host.Cell → Nat → Byte → List Host.Cell
  | [], a, b => memCons a b []
  | (k, c) :: m, a, b =>
    if a < k then memCons a b ((k, c) :: m)
    else if a = k then memCons a b m
    else (k, c) :: memWrite m a b

/-- `MemRead(HBUF, a, n)` (R6): `n` bytes in ascending order. -/
def memReadBytes (m : List Host.Cell) (a : Nat) : Nat → List Byte
  | 0 => []
  | n + 1 => memRead m a :: memReadBytes m (a + 1) n

/-- `MemWrite(HBUF, a, n, v)` (R6): the bytes of `v` in ascending order. -/
def memWriteBytes (m : List Host.Cell) (a : Nat) : List Byte → List Host.Cell
  | [] => m
  | b :: bs => memWriteBytes (memWrite m a b) (a + 1) bs

/-- Is every address of the list at least `lo`, each above the one before it, and no cell of the default value? -/
def memWfFrom (lo : Nat) : List Host.Cell → Bool
  | [] => true
  | (k, c) :: m => decide (lo ≤ k) && decide (c ≠ memDefault) && memWfFrom (k + 1) m

/-- The canonical form. -/
def memWf (m : List Host.Cell) : Bool := memWfFrom 0 m

end Sys2Proof.Machine
end

