-- ==== Sys2Proof/Machine/Ops.lean ====
section
/-! DEFINITION. The named operations the instructions share: completing a command normally and abnormally
(spec/60_exceptions.md R223, R224), the packers and the verifier on the state (41_frame_codec.md), the timeout arbiter,
the two transport calls and the retry loop (42_send_path.md R131 to R134), `Reply`, `Finalize` and the ends of the
receive loop (43_receive_path.md R161 to R177). -/

namespace Sys2Proof.Machine

/-! ### Register writes, each under its own name -/

/-- `MODE` <- `m`. -/
def setMode (m : Mode) (s : State) : State := { s with mode := m }

/-- `SEQ` <- `q`. -/
def setSeq (q : Byte) (s : State) : State := { s with seq := q }

/-- `INSEQ` <- `b`. -/
def setInseq (b : Bool) (s : State) : State := { s with inseq := b }

/-- `ATTEMPT` <- `n`. -/
def setAttempt (n : BitVec 3) (s : State) : State := { s with attempt := n }

/-- `OFF` <- `o`. -/
def setOff (o : Word) (s : State) : State := { s with off := o }

/-- `PH` <- `p` (R6). -/
def setPhase (p : Phase) (s : State) : State := { s with ph := p }

/-- Append to `RB` (20_memory.md R42), and so advance `RB_LEN`. -/
def appendRb (p : List Byte) (s : State) : State := { s with rb := s.rb ++ p }

/-- `HBUF[i] <- RB[i]` for every i below `RB_LEN` (R176). -/
def copyOut (s : State) : State := { s with hbuf := memWriteBytes s.hbuf 0 s.rb }

/-! ### Ending a command -/

/-- `complete(S, n)` (R223). -/
def complete (status : Byte) (n : Word) (s : State) : State :=
  { s with status := status, count := n, ph := .idle, busy := false }

/-- `raise E` (R224): TAKING AN EXCEPTION, the one operation for all seven kinds. Nothing is saved and nothing else is
changed; there is no return from it (R234), the engine takes the next command as after a normal completion. -/
def raiseError (e : ErrorKind) (s : State) : State :=
  { s with status := errorCode e, count := 0, ph := .idle, busy := false }

/-- What an operation inside a command comes to: it goes on with a result, or a `raise` in it has ended the command
("nothing after it in the same command executes", R6). -/
inductive Run (α : Type) where
  | cont (a : α) (s : State)
  | halt (s : State)
  deriving DecidableEq, Repr

/-- Go on with `k` where the operation went on; leave an ended command as it ended. -/
def Run.andThen {α : Type} (r : Run α) (k : α → State → State) : State :=
  match r with
  | .cont a s => k a s
  | .halt s => s

/-! ### Accepting a command, the per-exchange state -/

/-- `ResetExchange()` (10_state.md R25). -/
def resetExchange (s : State) : State := { s with seq := 0, inseq := false, rb := [] }

/-- Latch a host command word's fields (30_encoding.md R68): `CMD`, `LEN`, `TMO`, `BUFV`, `BUSY` <- 1, `ELAPSED` <- 0. -/
def latch (cmd : Byte) (len tmo : Word) (bufv : Bool) (s : State) : State :=
  { s with cmd := cmd, len := len, tmo := tmo, bufv := bufv, busy := true, elapsed := 0 }

/-- Acceptance (R68): while `BUSY` = 0 the word is latched and executed; "A word presented while `BUSY` = 1 is not
accepted and has no effect of any kind". -/
def accept (cmd : Byte) (len tmo : Word) (bufv : Bool) (run : State → State) (s : State) : State :=
  if s.busy then s else run (latch cmd len tmo bufv s)

/-! ### The frame codec on the state -/

/-- `ENC_CTRL(type)` (R111): fills `TXF`; `CRCACC` is left at the checksum (notes/assumptions/8.md). -/
def encCtrl (type : Byte) (s : State) : State :=
  { s with txf := ctrlFrame type, crcacc := crc7 [type] }

/-- `ENC_DATA(seq, payload)` (R112). -/
def encData (seq : Byte) (payload : List Byte) (s : State) : State :=
  { s with txf := dataFrame seq payload, crcacc := crc7 (ftData :: seq :: payload) }

/-- What `VERIFY` of the frame in `RXF` leaves in `CRCACC` (R113): the checksum of all its bytes but the last. -/
def noteVerify (s : State) : State := { s with crcacc := crc7 (frameBody s.rxf) }

/-! ### The environment (00_scope.md R8) -/

/-- The environment's answer to the next `TxCall`: the oldest the state lists, else a free value. -/
def txAnswer (s : State) : TxAnswer :=
  match s.txq with
  | a :: _ => a
  | [] => Config.freeTx s.draws

/-- The environment's answer to the next `RxCall`. -/
def rxAnswer (s : State) : RxAnswer :=
  match s.rxq with
  | a :: _ => a
  | [] => Config.freeRx s.draws

/-- The law of `TxOk(k)`: `0 <= k <= len(f)` (R8). An answer outside it is brought to the bound (notes/assumptions/2.md). -/
def lawfulTx (n : Nat) : TxOutcome → TxOutcome
  | .txOk k => .txOk (min k n)
  | .txTimeout => .txTimeout
  | .txError => .txError

/-- The law of `RxOk(b)`: `1 <= len(b) <= maxlen` (R8). A zero-byte return is `RxNone` (D15); a longer unit is cut to
`maxlen` (notes/assumptions/2.md). -/
def lawfulRx (maxlen : Nat) : RxOutcome → RxOutcome
  | .rxOk b => if b = [] then .rxNone else .rxOk (b.take maxlen)
  | .rxNone => .rxNone
  | .rxError => .rxError

/-- `ELAPSED + dt`, saturating at 0xFFFF_FFFF (10_state.md R19). -/
def charge (elapsed : Word) (dt : Nat) : Word := BitVec.ofNat 32 (min (elapsed.toNat + dt) (2 ^ 32 - 1))

/-- What the next `TxCall` of the frame in `TXF` will come to. -/
def txOutcome (s : State) : TxOutcome := lawfulTx (txfLen s) (txAnswer s).outcome

/-- What the next `RxCall` of at most `RX_MAX` bytes will come to. -/
def rxOutcome (s : State) : RxOutcome := lawfulRx (rxMax s) (rxAnswer s).outcome

/-- The state after `TxCall(TXF, limit)` with its `dt` charged to `ELAPSED` (R132). -/
def afterTx (limit : Word) (s : State) : State :=
  { s with
    elapsed := charge s.elapsed (txAnswer s).dt
    txq := s.txq.tail
    draws := if s.txq = [] then s.draws + 1 else s.draws
    trace := .tx s.txf limit (txOutcome s) (txAnswer s).dt :: s.trace }

/-- The state after `RxCall(RX_MAX, limit)` with its `dt` charged to `ELAPSED` (R133). -/
def afterRx (limit : Word) (s : State) : State :=
  { s with
    elapsed := charge s.elapsed (rxAnswer s).dt
    rxq := s.rxq.tail
    draws := if s.rxq = [] then s.draws + 1 else s.draws
    trace := .rx (rxMax s) limit (rxOutcome s) (rxAnswer s).dt :: s.trace }

/-! ### The timeout arbiter and the transport calls -/

/-- `Bound(t)` (R131): the time limit handed to the transport. -/
def bound (t : Word) (s : State) : Word :=
  if s.tmo = tInf then t
  else if t = tInf then s.tmo - s.elapsed
  else if t ≤ s.tmo - s.elapsed then t
  else s.tmo - s.elapsed

/-- `CheckDeadline()` (R131). -/
def checkDeadline (s : State) : Run Unit :=
  if expired s then .halt (raiseError .timeout s) else .cont () s

/-- `XmitOnce(t)` (R132): true when the whole frame was handed over. -/
def xmitOnce (t : Word) (s : State) : Run Bool :=
  match checkDeadline s with
  | .halt s' => .halt s'
  | .cont _ s' => .cont (decide (txOutcome s' = .txOk (txfLen s'))) (afterTx (bound t s') s')

/-- Write a received frame to `RXF` (R133). -/
def storeRx (b : List Byte) (s : State) : State := { s with rxf := b }

/-- `RecvOnce(t)` (R133): a read error raises `ReadFailed`, or `Timeout` if the deadline has also passed; a received
frame goes to `RXF`. -/
def recvOnce (t : Word) (s : State) : Run RxOutcome :=
  match checkDeadline s with
  | .halt s' => .halt s'
  | .cont _ s' =>
    match rxOutcome s' with
    | .rxError =>
      match checkDeadline (afterRx (bound t s') s') with
      | .halt s'' => .halt s''
      | .cont _ s'' => .halt (raiseError .readFailed s'')
    | .rxOk b => .cont (.rxOk b) (storeRx b (afterRx (bound t s') s'))
    | .rxNone => .cont .rxNone (afterRx (bound t s') s')

/-! ### The retry loop, `SendArq` and `Reply` -/

/-- The loop `SendArq` and `Reply` share (R134, R163), with `n` attempts of the budget left: count the attempt, make it;
when it failed test the deadline, and only then the budget. -/
def retryLoop (attemptOnce : State → Run Bool) : Nat → State → Run Unit
  | 0, s => .halt (raiseError .writeFailed s)
  | n + 1, s =>
    match attemptOnce (setAttempt (s.attempt + 1) s) with
    | .halt s' => .halt s'
    | .cont true s' => .cont () s'
    | .cont false s' =>
      match checkDeadline s' with
      | .halt s'' => .halt s''
      | .cont _ s'' => retryLoop attemptOnce n s''

/-- Look at the reply of an attempt: `VERIFY` is run on a received one. -/
def noteReply (o : RxOutcome) (s : State) : State :=
  match o with
  | .rxOk _ => noteVerify s
  | .rxNone => s
  | .rxError => s

/-- One attempt of `SendArq` (R134): a transmission and, if it succeeded, one wait for the reply. -/
def arqAttempt (s : State) : Run Bool :=
  match xmitOnce tSub s with
  | .halt s' => .halt s'
  | .cont false s' => .cont false s'
  | .cont true s' =>
    match recvOnce tSub s' with
    | .halt s'' => .halt s''
    | .cont o s'' => .cont (isAck o) (noteReply o s'')

/-- `SendArq()` (R134): transmit the frame in `TXF` until it is acknowledged. -/
def sendArq (s : State) : Run Unit := retryLoop arqAttempt nAttempts (setAttempt 0 s)

/-- `Reply(type)` (R163): transmit a control frame; nothing is awaited for it. -/
def reply (type : Byte) (s : State) : Run Unit :=
  retryLoop (xmitOnce tSub) nAttempts (setAttempt 0 (encCtrl type s))

/-- `Reply(type)`, and then the rest of the arm. -/
def replyThen (type : Byte) (k : State → State) (s : State) : State := (reply type s).andThen fun _ s' => k s'

/-- `SendArq()`, and then the rest of the command. -/
def sendThen (k : State → State) (s : State) : State := (sendArq s).andThen fun _ s' => k s'

/-! ### The receive loop -/

/-- A frame executed at the head of the receive loop; in any other phase FPE does not listen and nothing happens
(44_mode_negotiation.md R210, 60_exceptions.md R241; notes/assumptions/16.md). -/
def inRecvLoop (k : RecvPhase → State → State) (s : State) : State :=
  match s.ph with
  | .idle => s
  | .recv w => k w s
  | .send => s
  | .segment => s

/-- `Finalize()` (R176): the overflow test, once, then the copy to HBUF and the completion. -/
def finalize (s : State) : State :=
  if overflows s then raiseError .bufferOverflow s
  else complete statusOk (BitVec.ofNat 32 (rbLen s)) (copyOut s)

/-- `OnMalformed()` (R177): as `P_MALFORMED` says. -/
def onMalformed (s : State) : State :=
  match s.pMalformed with
  | .nack => replyThen ftNack id s
  | .ack => replyThen ftAck id s
  | .raise => raiseError .invalidFrame s

/-- What follows when `RecvLoop(w)` returns `Switched`: in phase `Msg`, `READ` completes with `MODE_SWITCHED` (R161 step
6); after `WaitMode(Receiver)`, `READ` enters its message loop (R161 step 5); after `WaitMode(Sender)`, `WRITE` goes on to
step 5 (R137). Only `READ` waits for `Receiver` and only `WRITE` waits for `Sender`. -/
def switched (w : RecvPhase) (s : State) : State :=
  match w with
  | .msg => complete statusModeSwitched 0 s
  | .wait .receiver => setPhase (.recv .msg) s
  | .wait .sender => setPhase .send s

end Sys2Proof.Machine
end

