-- ==== Sys2Proof/Machine/Control.lean ====
section
/-! DEFINITION. The control frames `ACK`, `NACK`, `SEQ_BEGIN`, `SEQ_END` as the receive loop executes them
(spec/43_receive_path.md R166 to R169). -/

namespace Sys2Proof.Machine

/-- Frame `ACK` (R166): `Reply(FT_ACK)`, no state change, both phases alike. -/
def execAck (s : State) : Host.Outcome State Fault Refusal :=
  .next (inRecvLoop (fun _ s => replyThen ftAck id s) s)

/-- Frame `NACK` (R167): exactly as an `ACK`. -/
def execNack (s : State) : Host.Outcome State Fault Refusal :=
  .next (inRecvLoop (fun _ s => replyThen ftAck id s) s)

/-- `OnSeqBegin(phase)` (R168). -/
def onSeqBegin (w : RecvPhase) (s : State) : State :=
  match w with
  | .msg => replyThen ftAck id (setInseq true s)
  | .wait _ => replyThen ftNack id s

/-- Frame `SEQ_BEGIN` (R168). -/
def execSeqBegin (s : State) : Host.Outcome State Fault Refusal := .next (inRecvLoop onSeqBegin s)

/-- `OnSeqEnd(phase)` (R169), and `Finalize` where it returns true (R161 step 6). -/
def onSeqEnd (w : RecvPhase) (s : State) : State :=
  match w with
  | .msg => replyThen ftAck finalize (setInseq false s)
  | .wait _ => replyThen ftNack id s

/-- Frame `SEQ_END` (R169). -/
def execSeqEnd (s : State) : Host.Outcome State Fault Refusal := .next (inRecvLoop onSeqEnd s)

end Sys2Proof.Machine
end

