-- ==== Sys2Proof/Machine/Data.lean ====
section
/-! DEFINITION. The frame `DATA` and the RASM unit's duplicate detector and append (spec/43_receive_path.md R172 to
R175). -/

namespace Sys2Proof.Machine

/-- Accept and append (R175): `SEQ` <- `seq`, then the reply, then the append, then `INSEQ` decides. -/
def acceptData (seq : Byte) (payload : List Byte) (s : State) : State :=
  replyThen ftAck
    (fun s => if s.inseq then appendRb payload s else finalize (appendRb payload s)) (setSeq seq s)

/-- `OnData(phase, s, p)` (R172): the three tests in the order written. -/
def onData (seq : Byte) (payload : List Byte) (w : RecvPhase) (s : State) : State :=
  match w with
  | .wait _ => replyThen ftNack id s
  | .msg =>
    if isDuplicate s seq then replyThen ftAck id s
    else if isOutOfOrder s seq then replyThen ftNack id s
    else acceptData seq payload s

/-- Frame `DATA` (R172). -/
def execData (seq : Byte) (payload : List Byte) (s : State) : Host.Outcome State Fault Refusal :=
  .next (inRecvLoop (onData seq payload) s)

end Sys2Proof.Machine
end

