-- ==== Sys2Proof/Machine/Negotiate.lean ====
section
/-! DEFINITION. Role negotiation (spec/44_mode_negotiation.md): the frames `SET_SEND` and `SET_RECV` and the commands
`REQ_PEER_SEND` and `REQ_PEER_RECV`. -/

namespace Sys2Proof.Machine

/-- The last lines of `HandleSet(target)` (R206), after `Reply(FT_ACK)`: reset, then test, then flip. -/
def applySet (target : Role) (w : RecvPhase) (s : State) : State :=
  if s.mode = roleMode target then resetExchange s
  else switched w (setMode (roleMode target) (resetExchange s))

/-- `HandleSet(target)` (R206). -/
def handleSet (target : Role) (w : RecvPhase) (s : State) : State :=
  if refusesSet s target then replyThen ftNack id s else replyThen ftAck (applySet target w) s

/-- Frame `SET_SEND` (R170): the addressee is asked to become `Sender` (R205). -/
def execSetSend (s : State) : Host.Outcome State Fault Refusal := .next (inRecvLoop (handleSet .sender) s)

/-- Frame `SET_RECV` (R171): the addressee is asked to become `Receiver` (R205). -/
def execSetRecv (s : State) : Host.Outcome State Fault Refusal := .next (inRecvLoop (handleSet .receiver) s)

/-- The steps R207 and R208 share: refused under `Manual`; reset the per-exchange state; send the request frame; on its
`ACK` take the role complementary to the one asked of the peer. -/
def requestPeer (type : Byte) (newMode : Mode) (s : State) : State :=
  if s.policy = .manual then raiseError .incorrectMode s
  else sendThen (fun s => complete statusOk 0 (setMode newMode s)) (encCtrl type (resetExchange s))

/-- Host command `REQ_PEER_SEND` (R207). -/
def execReqPeerSend (len tmo : Word) (bufv : Bool) (s : State) : Host.Outcome State Fault Refusal :=
  .next (accept cmdReqPeerSend len tmo bufv (requestPeer ftSetSend .receiver) s)

/-- Host command `REQ_PEER_RECV` (R208). -/
def execReqPeerRecv (len tmo : Word) (bufv : Bool) (s : State) : Host.Outcome State Fault Refusal :=
  .next (accept cmdReqPeerRecv len tmo bufv (requestPeer ftSetRecv .sender) s)

end Sys2Proof.Machine
end

