-- ==== Sys2Proof/Machine/Receive.lean ====
section
/-! DEFINITION. The host command `READ` (spec/43_receive_path.md R161). -/

namespace Sys2Proof.Machine

/-- Step 3 of `READ`: the bootstrap (44_mode_negotiation.md R201). -/
def bootReceiver (s : State) : State := setMode (if s.mode = .undefined then .receiver else s.mode) s

/-- Steps 1 to 4 of `READ` (R161), up to the first transport call: into the message loop, or into
`WaitMode(Receiver)`. -/
def startRead (s : State) : State :=
  if s.bufv then
    if (bootReceiver s).mode = .sender then
      if s.policy = .manual then raiseError .incorrectMode (resetExchange s)
      else setPhase (.recv (.wait .receiver)) (resetExchange s)
    else setPhase (.recv .msg) (resetExchange (bootReceiver s))
  else raiseError .incorrectParameter s

/-- Host command `READ` (R161). Steps 5 and 6 are the steps of the receive loop it enters. -/
def execRead (len tmo : Word) (bufv : Bool) (s : State) : Host.Outcome State Fault Refusal :=
  .next (accept cmdRead len tmo bufv startRead s)

end Sys2Proof.Machine
end

