-- ==== Sys2Proof/Machine/Send.lean ====
section
/-! DEFINITION. The host command `WRITE` (spec/42_send_path.md R137 to R145). -/

namespace Sys2Proof.Machine

/-- Step 3 of `WRITE`: the bootstrap (44_mode_negotiation.md R201). -/
def bootSender (s : State) : State := setMode (if s.mode = .undefined then .sender else s.mode) s

/-- The message bytes `HBUF[a .. a+n-1]`. -/
def messageBytes (s : State) (a n : Nat) : List Byte := memReadBytes s.hbuf a n

/-- The chunk length `n` = min(`MTU`, `LEN - OFF`) (R139). -/
def chunkLen (s : State) : Nat := min s.mtu.toNat (s.len.toNat - s.off.toNat)

/-- Step 5 of `WRITE` up to its first acknowledged frame (R138, R139): the one data frame of a message that fits, and
then the completion; or `SEQ_BEGIN`, and then the segment loop. -/
def sendMessage (s : State) : State :=
  if s.len ≤ s.mtu then
    sendThen (fun s => complete statusOk s.len (setOff s.len (setSeq 1 s)))
      (encData 1 (messageBytes s 0 s.len.toNat) s)
  else sendThen (setPhase .segment) (encCtrl ftSeqBegin s)

/-- One turn of the `while` of step 5 (R139, R141): the next data frame, or, when the message is out, `SEQ_END` and the
completion. -/
def sendSegment (s : State) : State :=
  if s.off < s.len then
    sendThen (fun t => setOff (s.off + BitVec.ofNat 32 (chunkLen s)) (setSeq (nextSeq s) t))
      (encData (nextSeq s) (messageBytes s s.off.toNat (chunkLen s)) s)
  else sendThen (fun s => complete statusOk s.len s) (encCtrl ftSeqEnd s)

/-- Steps 1 to 4 of `WRITE` (R137), and step 5 up to its first acknowledged frame where no `WaitMode` is needed. -/
def startWrite (s : State) : State :=
  if s.bufv then
    if (bootSender s).mode = .receiver then
      if s.policy = .manual then raiseError .incorrectMode (setOff 0 (resetExchange s))
      else setPhase (.recv (.wait .sender)) (setOff 0 (resetExchange s))
    else sendMessage (setOff 0 (resetExchange (bootSender s)))
  else raiseError .incorrectParameter s

/-- Host command `WRITE` (R137). -/
def execWrite (len tmo : Word) (bufv : Bool) (s : State) : Host.Outcome State Fault Refusal :=
  .next (accept cmdWrite len tmo bufv startWrite s)

end Sys2Proof.Machine
end

