-- ==== Sys2Proof/Syntax.lean ====
section
/-! DEFINITION. The instructions of spec/opcode_table.json: the seven frame types the receive loop executes and the
four host commands. -/

namespace Sys2Proof

/-- One constructor per row of the opcode table. A control frame has no operand (30_encoding.md R61); a data frame has
its sequence number and its payload (R62, R65); a host command has the fields of its word beside `cmd` (R68). -/
inductive Instr where
  | ack
  | nack
  | seqBegin
  | seqEnd
  | setSend
  | setRecv
  | data (seq : Byte) (payload : List Byte)
  | write (len tmo : Word) (bufv : Bool)
  | read (len tmo : Word) (bufv : Bool)
  | reqPeerSend (len tmo : Word) (bufv : Bool)
  | reqPeerRecv (len tmo : Word) (bufv : Bool)
  deriving DecidableEq, Repr

/-- Is the instruction a wire frame (true) or a host command (false)? The two are decoded in different spaces
(30_encoding.md R77). -/
def Instr.isFrame : Instr → Bool
  | .ack => true
  | .nack => true
  | .seqBegin => true
  | .seqEnd => true
  | .setSend => true
  | .setRecv => true
  | .data _ _ => true
  | .write _ _ _ => false
  | .read _ _ _ => false
  | .reqPeerSend _ _ _ => false
  | .reqPeerRecv _ _ _ => false

end Sys2Proof
end

