-- ==== Sys2Proof/Machine/Dispatch.lean ====
section
/-! DEFINITION. One arm per instruction: its meaning. -/

namespace Sys2Proof.Machine

def exec (i : Instr) (s : State) : Host.Outcome State Fault Refusal :=
  match i with
  | .ack => Sys2Proof.Machine.execAck s
  | .nack => Sys2Proof.Machine.execNack s
  | .seqBegin => Sys2Proof.Machine.execSeqBegin s
  | .seqEnd => Sys2Proof.Machine.execSeqEnd s
  | .setSend => Sys2Proof.Machine.execSetSend s
  | .setRecv => Sys2Proof.Machine.execSetRecv s
  | .data seq p => Sys2Proof.Machine.execData seq p s
  | .write len tmo bufv => Sys2Proof.Machine.execWrite len tmo bufv s
  | .read len tmo bufv => Sys2Proof.Machine.execRead len tmo bufv s
  | .reqPeerSend len tmo bufv => Sys2Proof.Machine.execReqPeerSend len tmo bufv s
  | .reqPeerRecv len tmo bufv => Sys2Proof.Machine.execReqPeerRecv len tmo bufv s

end Sys2Proof.Machine
end

