-- ==== Sys2Proof/WellFormed.lean ====
section
/-! DEFINITION. Which instructions are well formed: the bounds the spec sets on their fields. -/

namespace Sys2Proof

/-- The payload of a data frame has `n` bytes, `0 <= n <= MTU` (30_encoding.md R62). Every other field of every
instruction may hold any value of its width: R68 gives `len`, `timeout` and `buf_valid` a meaning for each. -/
def Instr.payloadOk (mtu : Word) : Instr → Bool
  | .data _ p => decide (p.length ≤ mtu.toNat)
  | .ack => true
  | .nack => true
  | .seqBegin => true
  | .seqEnd => true
  | .setSend => true
  | .setRecv => true
  | .write _ _ _ => true
  | .read _ _ _ => true
  | .reqPeerSend _ _ _ => true
  | .reqPeerRecv _ _ _ => true

/-- Well-formed for an engine with this `MTU`. -/
abbrev Instr.WellFormed (mtu : Word) (i : Instr) : Prop := i.payloadOk mtu = true

end Sys2Proof
end

