-- ==== Sys2Proof/Decode.lean ====
section
/-! DEFINITION. Decoding and encoding (spec/30_encoding.md R61 to R72, R77; 41_frame_codec.md R114): a received frame or
a host command word to an instruction, or a rejection by name; and back. -/

namespace Sys2Proof

open Sys2Proof.Machine

/-- What is decoded: a byte sequence the transport delivered, or a word on the command port. -/
inductive Raw where
  | frame (f : List Byte)
  | word (w : HostWord)
  deriving DecidableEq, Repr

/-- Why nothing was decoded: the too-short data frame of R116, the malformed frame of R118, the reserved command code
of R69. -/
inductive Reject where
  | invalidFrame
  | malformed
  | reservedCommand (cmd : Byte)
  deriving DecidableEq, Repr

/-- The control frame of a type byte, if it is one of the six control codes (R63). -/
def ctrlInstr (t : Byte) : Option Instr :=
  if t = ftAck then some .ack
  else if t = ftNack then some .nack
  else if t = ftSeqBegin then some .seqBegin
  else if t = ftSeqEnd then some .seqEnd
  else if t = ftSetSend then some .setSend
  else if t = ftSetRecv then some .setRecv
  else none

/-- `DECODE(f)` (R114). It does not look at the checksum: `VERIFY` comes before it (R117). `DECODE` is defined for
`len(f) >= 1`; an empty sequence, which never reaches it (43_receive_path.md R179), has no type byte and is called
malformed (notes/assumptions/21.md). -/
def decodeFrame (f : List Byte) : Except Reject Instr :=
  match f with
  | [] => .error .malformed
  | t :: _ =>
    if t = ftData then
      if f.length < 3 then .error .invalidFrame
      else .ok (.data (frameSeq f) (framePayload f))
    else
      match ctrlInstr t with
      | none => .error .malformed
      | some i => if f.length = 2 then .ok i else .error .malformed

/-- Decoding of a host command word needs only `cmd` (R77); the other fields are its operands (R68). -/
def decodeWord (w : HostWord) : Except Reject Instr :=
  if hostCmd w = cmdWrite then .ok (.write (hostLen w) (hostTmo w) (hostBufv w))
  else if hostCmd w = cmdRead then .ok (.read (hostLen w) (hostTmo w) (hostBufv w))
  else if hostCmd w = cmdReqPeerSend then .ok (.reqPeerSend (hostLen w) (hostTmo w) (hostBufv w))
  else if hostCmd w = cmdReqPeerRecv then .ok (.reqPeerRecv (hostLen w) (hostTmo w) (hostBufv w))
  else .error (.reservedCommand (hostCmd w))

/-- The decoder, total on any bytes and any word. -/
def decode : Raw → Except Reject Instr
  | .frame f => decodeFrame f
  | .word w => decodeWord w

/-- The encoder, from the same tables: frames as `ENC_CTRL` and `ENC_DATA` pack them (R111, R112), commands as the
73-bit word (R68, R69). -/
def encode : Instr → Raw
  | .ack => .frame (ctrlFrame ftAck)
  | .nack => .frame (ctrlFrame ftNack)
  | .seqBegin => .frame (ctrlFrame ftSeqBegin)
  | .seqEnd => .frame (ctrlFrame ftSeqEnd)
  | .setSend => .frame (ctrlFrame ftSetSend)
  | .setRecv => .frame (ctrlFrame ftSetRecv)
  | .data seq p => .frame (dataFrame seq p)
  | .write len tmo bufv => .word (hostWord cmdWrite len tmo bufv)
  | .read len tmo bufv => .word (hostWord cmdRead len tmo bufv)
  | .reqPeerSend len tmo bufv => .word (hostWord cmdReqPeerSend len tmo bufv)
  | .reqPeerRecv len tmo bufv => .word (hostWord cmdReqPeerRecv len tmo bufv)

/-- Does a frame with this type byte carry one of the seven type codes? They are contiguous, 0x0A to 0x10 (R77). -/
def isFrameType (t : Byte) : Bool := decide (ftAck ≤ t) && decide (t ≤ ftData)

/-- `n` bytes of a number, the least significant first: how opcode_table.json numbers a frame's bits. -/
def bytesOf : Nat → Nat → List Byte
  | 0, _ => []
  | n + 1, w => BitVec.ofNat 8 w :: bytesOf n (w / 256)

/-- The bytes of a table row's frame: as many as the bits given fill, and at least the shortest frame of its format,
the bytes above the bits given being 0 (R61, R62). -/
def tableFrame (nbits w : Nat) : List Byte :=
  bytesOf (max (nbits / 8) (if BitVec.ofNat 8 w = ftData then 3 else 2)) (w % 2 ^ nbits)

/-- The instruction the decoder reads from a table row's bits. The low byte tells the two spaces apart: the seven type
codes are wire frames, everything else is a host command word (notes/assumptions/11.md). -/
def decodeTableWord (nbits w : Nat) : Option Instr :=
  let raw := if isFrameType (BitVec.ofNat 8 w) then Raw.frame (tableFrame nbits w)
    else Raw.word (BitVec.ofNat 73 (w % 2 ^ nbits))
  match decode raw with
  | .ok i => some i
  | .error _ => none

end Sys2Proof
end

