-- ==== Sys2Proof/Machine/Fetch.lean ====
section
/-! DEFINITION. What a step does before and beside an instruction: the host's moves while the engine is idle
(spec/00_scope.md R7, 30_encoding.md R68), one turn of the receive loop up to the dispatch (43_receive_path.md R162), the
sequencer's own steps of `WRITE`. -/

namespace Sys2Proof.Machine

/-- What the fetch comes to: an instruction to run on a state; a step that is over without one; a host move the model
does not have. -/
inductive Fetched where
  | run (i : Instr) (s : State)
  | done (s : State)
  | refuse (r : Refusal)
  deriving DecidableEq, Repr

/-- The reset event with configuration record `c` (R250): every register as R251 says; HBUF, which is not FPE state, and
the agents' fields stay. -/
def resetEngine (c : Config) (s : State) : State :=
  { State.resetWith c with
    hbuf := s.hbuf, host := s.host, txq := s.txq, rxq := s.rxq, draws := s.draws, trace := s.trace }

/-- The host writes a byte of HBUF (00_scope.md R7). -/
def poke (a : Word) (b : Byte) (s : State) : State := { s with hbuf := memWrite s.hbuf a.toNat b }

/-- The host's moves still to come. -/
def setHost (ms : List HostMove) (s : State) : State := { s with host := ms }

/-- A word with a reserved command code (R69, R225 (a)): latched like any accepted word, and at once
`IncorrectParameter`. -/
def rejectWord (w : HostWord) (s : State) : State :=
  accept (hostCmd w) (hostLen w) (hostTmo w) (hostBufv w) (raiseError .incorrectParameter) s

/-- One move of the host. -/
def hostMove (m : HostMove) (s : State) : Fetched :=
  match m with
  | .command w =>
    match decode (.word w) with
    | .ok i => .run i s
    | .error _ => .done (rejectWord w s)
  | .poke a b => .done (poke a b s)
  | .reset c => if c.WellFormed then .done (resetEngine c s) else .refuse .invalidConfiguration

/-- The frame in `RXF` (R162): verified first, then decoded (R117). A corrupted frame is answered `NACK` (R164); a
too-short data frame raises `InvalidFrame` (R178); a malformed frame is treated as `P_MALFORMED` says (R177); any other
is an instruction. -/
def dispatchFrame (s : State) : Fetched :=
  if verify s.rxf then
    match decode (.frame s.rxf) with
    | .ok i => .run i (noteVerify s)
    | .error .invalidFrame => .done (raiseError .invalidFrame (noteVerify s))
    | .error .malformed => .done (onMalformed (noteVerify s))
    | .error (.reservedCommand _) => .done (onMalformed (noteVerify s))
  else .done (replyThen ftNack id (noteVerify s))

/-- One turn of `RecvLoop` (R162): one `RxCall` for what is left of `TMO`; no frame, and the loop iterates (R179). -/
def receive (s : State) : Fetched :=
  match recvOnce tInf s with
  | .halt s' => .done s'
  | .cont (.rxOk _) s' => dispatchFrame s'
  | .cont .rxNone s' => .done s'
  | .cont .rxError s' => .done s'

/-- What one step does, up to the instruction it runs. An idle engine with no host move does nothing (60_exceptions.md
R241). -/
def fetch (s : State) : Fetched :=
  match s.ph with
  | .idle =>
    match s.host with
    | [] => .done s
    | m :: ms => hostMove m (setHost ms s)
  | .recv _ => receive s
  | .send => .done (sendMessage s)
  | .segment => .done (sendSegment s)

/-- The frame of a table row as the transport delivers it: its checksum byte, to which the table gives no bits, holds
the checksum (opcode_table.json `cks`; notes/assumptions/11.md). -/
def deliveredFrame (nbits w : Nat) : List Byte := sealFrame (frameBody (tableFrame nbits w))

/-- A `READ` with no deadline is in its message loop and the environment has the frame for it. -/
def placeFrame (f : List Byte) (s : State) : State :=
  { s with
    mode := .receiver, cmd := cmdRead, bufv := true, tmo := tInf, busy := true, ph := .recv .msg
    rxq := { outcome := .rxOk f, dt := 0 } :: s.rxq }

/-- The engine is idle and the host's next move is the word. -/
def placeWord (w : HostWord) (s : State) : State :=
  { s with busy := false, ph := .idle, host := .command w :: s.host }

end Sys2Proof.Machine
end

