-- ==== Sys2Proof/Machine/Step.lean ====
section
/-! DEFINITION. One step of the machine, and the placing of an instruction where the next step takes it. -/

namespace Sys2Proof.Machine

/-- One step: what the fetch gives is run, or the step is over. -/
def step (s : State) : Host.Outcome State Fault Refusal :=
  match fetch s with
  | .run i s' => exec i s'
  | .done s' => .next s'
  | .refuse r => .refused r

/-- `s` with a table row's instruction placed where the next step takes it: a frame in the receive loop, a command word
on the command port (notes/assumptions/11.md). -/
def State.withFetchWord (s : State) (nbits w : Nat) : State :=
  if isFrameType (BitVec.ofNat 8 w) then placeFrame (deliveredFrame nbits w) s
  else placeWord (BitVec.ofNat 73 (w % 2 ^ nbits)) s

end Sys2Proof.Machine
end

