-- ==== Sys2Proof/Safety.lean ====
section
/-! DEFINITION. The terms claims are made in: what a well-formed state is, what an operation leaves alone, what the
environment must have answered for a case to arise, and what a run has put on the transport. -/

namespace Sys2Proof.Safety

open Sys2Proof.Machine

/-! ### Well-formed states -/

/-- The nine status codes of 30_encoding.md R70; an error status comes with `COUNT` = 0 (R222). -/
abbrev completionOk (s : State) : Prop :=
  (s.status = statusOk ∨ (s.status = statusModeSwitched ∨ ∃ e, s.status = errorCode e) ∧ s.count = 0)

/-- How many data frames a `WRITE` whose cursor stands at `off` has had acknowledged: `ceil(off / MTU)` (42_send_path.md
R139). -/
def framesAcked (mtu off : Nat) : Nat := (off + mtu - 1) / mtu

/-- The cursor and the sequence register inside a segmented `WRITE` (42_send_path.md R139, R141). -/
structure SegmentCursor (s : State) : Prop where
  segmented : s.mtu < s.len
  inMessage : s.off ≤ s.len
  full : s.off = s.len ∨ s.off.toNat % s.mtu.toNat = 0
  seqAcked : s.seq.toNat = framesAcked s.mtu.toNat s.off.toNat % 256

/-- The command and the role that go with each label of `PH` (42_send_path.md R137, 43_receive_path.md R161,
44_mode_negotiation.md R203, R204). -/
def phaseOk (s : State) : Prop :=
  match s.ph with
  | .idle => True
  | .recv .msg => s.cmd = cmdRead ∧ s.mode = .receiver
  | .recv (.wait .receiver) => s.cmd = cmdRead ∧ s.mode = .sender ∧ s.policy = .auto
  | .recv (.wait .sender) => s.cmd = cmdWrite ∧ s.mode = .receiver ∧ s.policy = .auto ∧ s.off = 0
  | .send => s.cmd = cmdWrite ∧ s.mode = .sender ∧ s.off = 0 ∧ s.seq = 0
  | .segment => s.cmd = cmdWrite ∧ s.mode = .sender ∧ SegmentCursor s

/-- The invariant of the machine (10_state.md R29; 20_memory.md R43; 60_exceptions.md R223, R224). -/
structure Invariant (s : State) : Prop where
  mtuLow : 1 ≤ s.mtu.toNat
  mtuHigh : s.mtu.toNat ≤ 2 ^ 32 - 4
  memory : memWf s.hbuf = true
  busyPhase : s.busy = false ↔ s.ph = .idle
  attempts : s.attempt.toNat ≤ nAttempts
  txFits : txfLen s ≤ rxMax s
  rxFits : rxfLen s ≤ rxMax s
  crcRange : s.crcacc.toNat < 128
  completion : completionOk s
  phase : phaseOk s

/-! ### What is left alone -/

/-- The control registers and the configuration (10_state.md section 2). -/
structure SameControl (s t : State) : Prop where
  mode : t.mode = s.mode
  policy : t.policy = s.policy
  mtu : t.mtu = s.mtu
  reserve : t.reserve = s.reserve
  pMalformed : t.pMalformed = s.pMalformed

/-- The per-exchange registers (10_state.md section 3). -/
structure SameExchange (s t : State) : Prop where
  seq : t.seq = s.seq
  inseq : t.inseq = s.inseq
  rb : t.rb = s.rb

/-- The latched command and the send cursor (R18, R21). -/
structure SameCommand (s t : State) : Prop where
  cmd : t.cmd = s.cmd
  len : t.len = s.len
  tmo : t.tmo = s.tmo
  bufv : t.bufv = s.bufv
  off : t.off = s.off

/-- The completion word, `BUSY` and the phase (R22, R23, R27). -/
structure SameProgress (s t : State) : Prop where
  status : t.status = s.status
  count : t.count = s.count
  busy : t.busy = s.busy
  ph : t.ph = s.ph

/-- Every byte of HBUF reads as before. -/
def SameMemory (s t : State) : Prop := ∀ a : Nat, memRead t.hbuf a = memRead s.hbuf a

/-- What the transmission of a frame, replied to or not, leaves alone (42_send_path.md R134, 43_receive_path.md R163): the
control registers, the per-exchange registers, the latched command with the cursor, and HBUF. -/
structure SameMessage (s t : State) : Prop where
  control : SameControl s t
  exchange : SameExchange s t
  command : SameCommand s t
  memory : SameMemory s t

/-- The command has ended in error kind `e` (60_exceptions.md R224). -/
structure EndedBy (e : ErrorKind) (t : State) : Prop where
  status : t.status = errorCode e
  count : t.count = 0
  ph : t.ph = .idle
  busy : t.busy = false

/-- The command has completed normally (60_exceptions.md R223). -/
structure CompletedWith (status : Byte) (n : Word) (t : State) : Prop where
  status : t.status = status
  count : t.count = n
  ph : t.ph = .idle
  busy : t.busy = false

/-! ### What the environment answers -/

/-- The deadline has not passed and the environment's next answer hands over a frame of `n` bytes whole. -/
def HandsOver (n : Nat) (s : State) : Prop :=
  expired s = false ∧ ∃ k, n ≤ k ∧ (txAnswer s).outcome = .txOk k

/-- The state after `Reply(type)` went out at its first attempt (43_receive_path.md R163). -/
def replied (type : Byte) (s : State) : State :=
  { s with
    txf := [type, crc7 [type]]
    crcacc := crc7 [type]
    attempt := 1
    elapsed := charge s.elapsed (txAnswer s).dt
    txq := s.txq.tail
    draws := if s.txq = [] then s.draws + 1 else s.draws
    trace := .tx [type, crc7 [type]] (bound tSub s) (.txOk 2) (txAnswer s).dt :: s.trace }

/-- The state once the frame in `TXF` has been handed over in the first attempt of `SendArq` (R134). -/
def handedOver (s : State) : State := afterTx (bound tSub s) (setAttempt 1 s)

/-- The first attempt of `SendArq` for the frame in `TXF` succeeds: the frame is handed over, the deadline has not
passed, and the reply is the frame `ACK` (R134, 41_frame_codec.md R119). -/
def FirstAcked (s : State) : Prop :=
  HandsOver (txfLen s) s ∧ expired (handedOver s) = false ∧
    (rxAnswer (handedOver s)).outcome = .rxOk [ftAck, crc7 [ftAck]]

/-- The state after that attempt. -/
def acked (s : State) : State :=
  { afterRx (bound tSub (handedOver s)) (handedOver s) with
    rxf := [ftAck, crc7 [ftAck]], crcacc := crc7 [ftAck] }

/-- The state after one turn of the receive loop has taken the frame `b` from the transport and verified it: the call is
made for what is left of `TMO` and charged, the frame is in `RXF`, its checksum in `CRCACC` (R133, R162). -/
def received (b : List Byte) (s : State) : State :=
  { afterRx (bound tInf s) s with rxf := b, crcacc := crc7 b.dropLast }

/-- The head of the receive loop, with time left, and the environment's next answer is the frame `b`. -/
structure Receives (b : List Byte) (w : RecvPhase) (s : State) : Prop where
  phase : s.ph = .recv w
  live : expired s = false
  arrives : rxOutcome s = .rxOk b

/-! ### Commands as they begin -/

/-- The state in which `WRITE` starts step 5 when no `WaitMode` was needed (42_send_path.md R137 steps 1 to 4): the word
latched, `ELAPSED` 0, the per-exchange state reset, `OFF` 0, the role `Sender`. -/
def writing (len tmo : Word) (s : State) : State :=
  { s with
    cmd := cmdWrite, len := len, tmo := tmo, bufv := true, busy := true, elapsed := 0
    mode := .sender, seq := 0, inseq := false, rb := [], off := 0 }

/-- The state in which a request command sends its frame (44_mode_negotiation.md R207, R208 steps 1 to 3). -/
def requesting (cmd type : Byte) (len tmo : Word) (bufv : Bool) (s : State) : State :=
  { s with
    cmd := cmd, len := len, tmo := tmo, bufv := bufv, busy := true, elapsed := 0
    seq := 0, inseq := false, rb := [], txf := [type, crc7 [type]], crcacc := crc7 [type] }

/-- The four host commands. -/
def commandOf (cmd : Byte) (len tmo : Word) (bufv : Bool) : Option Instr :=
  if cmd = cmdWrite then some (.write len tmo bufv)
  else if cmd = cmdRead then some (.read len tmo bufv)
  else if cmd = cmdReqPeerSend then some (.reqPeerSend len tmo bufv)
  else if cmd = cmdReqPeerRecv then some (.reqPeerRecv len tmo bufv)
  else none

/-- The negotiation frame that asks its addressee to take the role `target` (R205). -/
def setFrame : Role → Instr
  | .sender => .setSend
  | .receiver => .setRecv

/-- The state after a role flip (44_mode_negotiation.md R206): per-exchange state reset, `MODE` <- `target`; and then, by
the phase the loop was in, a plain `READ` has completed with `MODE_SWITCHED` (43_receive_path.md R161 step 6), a `READ`
that waited is in its message loop (R161 step 5), a `WRITE` that waited is about to send (42_send_path.md R137 step 5). -/
def flipped (target : Role) (w : RecvPhase) (t : State) : State :=
  match w with
  | .msg => { t with
      seq := 0, inseq := false, rb := [], mode := roleMode target
      status := 0x01, count := 0, ph := .idle, busy := false }
  | .wait .receiver => { t with seq := 0, inseq := false, rb := [], mode := roleMode target, ph := .recv .msg }
  | .wait .sender => { t with seq := 0, inseq := false, rb := [], mode := roleMode target, ph := .send }

/-! ### What a run has put on the transport -/

/-- The frame of a `TxCall` that was handed over whole, if the call is one. -/
def sentFrame : Call → Option (List Byte)
  | .tx f _ (.txOk k) _ => if k = f.length then some f else none
  | .tx _ _ .txTimeout _ => none
  | .tx _ _ .txError _ => none
  | .rx _ _ _ _ => none

/-- The frames handed over whole so far, oldest first. -/
def sentFrames (s : State) : List (List Byte) := (s.trace.filterMap sentFrame).reverse

/-- The type byte of a transmitted frame is `FT_DATA`. -/
def isDataCall : Call → Bool
  | .tx f _ _ _ => decide (f.head? = some ftData)
  | .rx _ _ _ _ => false

/-- The payload of data frame `k` (from 1) of a message of `len` bytes (42_send_path.md R139). -/
def segmentPayload (m : List Host.Cell) (mtu len k : Nat) : List Byte :=
  memReadBytes m ((k - 1) * mtu) (min mtu (len - (k - 1) * mtu))

/-- Data frames `k` to `k + n - 1` of a message (R139, R141). -/
def segmentFrames (m : List Host.Cell) (mtu len : Nat) : Nat → Nat → List (List Byte)
  | _, 0 => []
  | k, n + 1 =>
    dataFrame (BitVec.ofNat 8 k) (segmentPayload m mtu len k) :: segmentFrames m mtu len (k + 1) n

/-- The data frames that carry these payloads in order, the first with sequence number `k` (R141). -/
def payloadFrames : Nat → List (List Byte) → List (List Byte)
  | _, [] => []
  | k, p :: ps => dataFrame (BitVec.ofNat 8 k) p :: payloadFrames (k + 1) ps

end Sys2Proof.Safety
end

