-- ==== Sys2Proof/Certificates/Slice0/Obligations.lean ====
section
/-! DEFINITION. The statements for the provers. Each docstring names the rule of spec/ it formalises; what rests on the
model's own choice says so. -/

open Sys2Proof Sys2Proof.Machine Sys2Proof.Safety

/-! ### The checksum and the codec -/

/-- 40_crc7.md R91, R93: the table entry of a byte is eight rounds of "exclusive-or with 0x91 when bit 0 is 1, shift right
by one"; the checksum starts at 0 and takes the table entry of its exclusive-or with each byte. -/
def Obligations.ChecksumFoldsTheTable : Prop :=
  (∀ v : Byte, crc7Round v = if v.getLsbD 0 then (v ^^^ 0x91) >>> 1 else v >>> 1) ∧
  (∀ v : Byte, crcTab v = crc7Round (crc7Round (crc7Round (crc7Round
    (crc7Round (crc7Round (crc7Round (crc7Round v)))))))) ∧
  crc7 [] = 0 ∧ ∀ (b : List Byte) (c : Byte), crc7 (b ++ [c]) = crcTab (crc7 b ^^^ c)

/-- 40_crc7.md R94 (derived by the spec): every checksum is at most 0x7F, so a frame whose last byte is 0x80 or more never
verifies, whatever its other bytes. -/
def Obligations.ChecksumIsSevenBitsWide : Prop :=
  ∀ (f : List Byte) (c : Byte),
    (crc7 f).toNat ≤ 0x7F ∧ (0x80 ≤ c.toNat → verify (f ++ [c]) = false)

/-- 40_crc7.md R95 (derived by the spec): the table is linear over exclusive-or, and two entries are equal exactly when
their indexes are equal or differ by 0x91. -/
def Obligations.ChecksumTableIsLinear : Prop :=
  ∀ a b : Byte,
    crcTab (a ^^^ b) = crcTab a ^^^ crcTab b ∧ (crcTab a = crcTab b ↔ a = b ∨ a ^^^ b = 0x91)

/-- 40_crc7.md R96 (derived by the spec): the residue of a sealed buffer is 0; the residue is 0 for one other last byte
too, and that one does not verify. -/
def Obligations.ResidueIsWeakerThanVerify : Prop :=
  ∀ (b : List Byte) (c : Byte),
    crc7 (b ++ [crc7 b]) = 0 ∧
      (crc7 (b ++ [c]) = 0 ↔ c = crc7 b ∨ c = crc7 b ^^^ 0x91) ∧ verify (b ++ [crc7 b ^^^ 0x91]) = false

/-- 41_frame_codec.md R113: `VERIFY` is false of the empty buffer; otherwise it compares the checksum of all bytes but
the last with the last. -/
def Obligations.VerifyComparesTheLastByte : Prop :=
  verify [] = false ∧ ∀ (f : List Byte) (c : Byte), (verify (f ++ [c]) = true ↔ crc7 f = c)

/-- 41_frame_codec.md R114: `DECODE`, arm by arm. `ctrlInstr` gives the six control codes their frames and no other byte
any. -/
def Obligations.DecodeClassifiesFrames : Prop :=
  (∀ f : List Byte, f.head? = some ftData → f.length < 3 → decode (.frame f) = .error .invalidFrame) ∧
  (∀ (s c : Byte) (p : List Byte), decode (.frame (ftData :: s :: (p ++ [c]))) = .ok (.data s p)) ∧
  (∀ (t c : Byte) (i : Instr), ctrlInstr t = some i → decode (.frame [t, c]) = .ok i) ∧
  (∀ (t : Byte) (r : List Byte) (i : Instr), ctrlInstr t = some i → r.length ≠ 1 →
    decode (.frame (t :: r)) = .error .malformed) ∧
  (∀ (t : Byte) (r : List Byte), t ≠ ftData → ctrlInstr t = none → decode (.frame (t :: r)) = .error .malformed) ∧
  (∀ (t : Byte) (i : Instr), ctrlInstr t = some i ↔
    (t = ftAck ∧ i = .ack) ∨ (t = ftNack ∧ i = .nack) ∨ (t = ftSeqBegin ∧ i = .seqBegin) ∨
    (t = ftSeqEnd ∧ i = .seqEnd) ∨ (t = ftSetSend ∧ i = .setSend) ∨ (t = ftSetRecv ∧ i = .setRecv))

/-- 41_frame_codec.md R116 (derived by the spec): the only byte sequence that verifies and is a too-short data frame is
`10 09`. -/
def Obligations.OneTooShortFrameVerifies : Prop :=
  ∀ f : List Byte, (verify f = true ∧ decode (.frame f) = .error .invalidFrame) ↔ f = [0x10, 0x09]

/-- 41_frame_codec.md R120 (derived by the spec) for the frames, 30_encoding.md R68 and R69 for the command words: an
encoded well-formed instruction decodes to itself; an encoded frame verifies and fits `RX_MAX`. -/
def Obligations.DecodeInvertsEncode : Prop :=
  ∀ (mtu : Word) (i : Instr), i.WellFormed mtu →
    decode (encode i) = .ok i ∧
      ∀ f : List Byte, encode i = .frame f → verify f = true ∧ f.length ≤ mtu.toNat + 3

/-- 41_frame_codec.md R120 (derived by the spec), 30_encoding.md R68 and R69, the other way: what is decoded, from a
verified frame or from a command word, encodes to what it was decoded from: no bit of an encoding is dropped. -/
def Obligations.EncodeInvertsDecode : Prop :=
  (∀ (f : List Byte) (i : Instr), verify f = true → decode (.frame f) = .ok i → encode i = .frame f) ∧
  (∀ (w : HostWord) (i : Instr), decode (.word w) = .ok i → encode i = .word w)

/-- A sanity statement over words written out from 30_encoding.md R61 to R63, R68 and R69 (the control codes are the
spec's decision D3). -/
def Obligations.WordsReadAsTheTablesSay : Prop :=
  decode (.frame [0x0A, 0x5F]) = .ok .ack ∧
  decode (.frame [0x0B, 0x1E]) = .ok .nack ∧
  decode (.frame [0x0C, 0x6A]) = .ok .seqBegin ∧
  decode (.frame [0x0D, 0x2B]) = .ok .seqEnd ∧
  decode (.frame [0x0E, 0x79]) = .ok .setSend ∧
  decode (.frame [0x0F, 0x38]) = .ok .setRecv ∧
  decode (.frame [0x10, 0x01, 0x48, 0x69, 0x1C]) = .ok (.data 1 [0x48, 0x69]) ∧
  decode (.word 0x1000003E80000000501) = .ok (.write 5 1000 true) ∧
  decode (.word 0x1FFFFFFFF0000001002) = .ok (.read 16 0xFFFFFFFF true) ∧
  decode (.word 0x0000003E80000000003) = .ok (.reqPeerSend 0 1000 false) ∧
  decode (.word 0x0000003E80000000004) = .ok (.reqPeerRecv 0 1000 false)

/-! ### Reset -/

/-- 70_reset_and_hazards.md R251: the value of every register after reset, and that the engine "is idle and does nothing
until a command is accepted". `TXF` and `RXF` have length 0, and the model represents no byte beyond a length. -/
def Obligations.ResetLeavesTheTableOfValues : Prop :=
  ∀ c : Config, ∀ s : State, s = State.resetWith c →
    s.mode = .undefined ∧ s.policy = c.policy0 ∧ s.mtu = c.mtu ∧ s.reserve = c.reserve ∧
    s.seq = 0 ∧ s.inseq = false ∧ s.rb = [] ∧ rbLen s = 0 ∧
    s.cmd = 0 ∧ s.len = 0 ∧ s.tmo = 0 ∧ s.bufv = false ∧
    s.elapsed = 0 ∧ s.attempt = 0 ∧ s.off = 0 ∧ s.status = 0x00 ∧ s.count = 0 ∧ s.busy = false ∧ s.ph = .idle ∧
    txfLen s = 0 ∧ rxfLen s = 0 ∧ s.crcacc = 0 ∧ (∀ i : Byte, crcTab i = crc7Byte i) ∧ step s = .next s

/-- The invariant holds after reset, with every valid configuration (00_scope.md R4). -/
def Obligations.ResetMeetsTheInvariant : Prop :=
  (∀ c : Config, c.WellFormed → Invariant (State.resetWith c)) ∧ Invariant State.reset

/-- 70_reset_and_hazards.md R250: the host's reset with a valid configuration record puts every register as after reset,
from any idle state; HBUF, which is no FPE state, is left (R251). That an invalid record is refused is the model's choice
(notes/assumptions/22.md). -/
def Obligations.HostResetReconstructs : Prop :=
  ∀ (s : State) (c : Config) (ms : List HostMove), s.ph = .idle → s.host = .reset c :: ms →
    (c.WellFormed → step s = .next { State.resetWith c with
      hbuf := s.hbuf, host := ms, txq := s.txq, rxq := s.rxq, draws := s.draws, trace := s.trace }) ∧
    (¬ c.WellFormed → step s = .refused .invalidConfiguration)

/-! ### A step -/

/-- 30_encoding.md R68, R77: while the sequencer is idle a step takes the host's next command word, decodes it and runs
the instruction. What the step adds around `exec` is the taking of the move. -/
def Obligations.StepRunsThePresentedCommand : Prop :=
  ∀ (s : State) (w : HostWord) (ms : List HostMove) (i : Instr),
    s.ph = .idle → s.host = .command w :: ms → decode (.word w) = .ok i →
    step s = exec i { s with host := ms }

/-- 43_receive_path.md R162: at the head of the receive loop a step takes one frame from the transport, verifies and
decodes it, and runs the instruction. What the step adds around `exec` is the `RxCall` (`received`). -/
def Obligations.StepRunsTheReceivedFrame : Prop :=
  ∀ (s : State) (w : RecvPhase) (b : List Byte) (i : Instr),
    Receives b w s → verify b = true → decode (.frame b) = .ok i → step s = exec i (received b s)

/-- 60_exceptions.md R225: a word with a reserved command code (30_encoding.md R69) completes at once with
`IncorrectParameter`, and so do `WRITE` and `READ` without a host buffer; only the latched registers, `ELAPSED`, `STATUS`
and `COUNT` are written. With a buffer attached no `LEN` and no `TMO` is a parameter error: neither the step that accepts
the command nor any later step of a running command ends it with that status. -/
def Obligations.IncorrectParameterComesFirst : Prop :=
  (∀ (s : State) (w : HostWord) (ms : List HostMove),
    s.ph = .idle → s.busy = false → s.host = .command w :: ms →
    (hostCmd w ≠ 0x01 ∧ hostCmd w ≠ 0x02 ∧ hostCmd w ≠ 0x03 ∧ hostCmd w ≠ 0x04) →
    step s = .next { s with
      host := ms, cmd := hostCmd w, len := hostLen w, tmo := hostTmo w, bufv := hostBufv w, elapsed := 0
      status := 0x81, count := 0, ph := .idle, busy := false }) ∧
  (∀ (s : State) (len tmo : Word), s.busy = false →
    exec (.write len tmo false) s = .next { s with
      cmd := 0x01, len := len, tmo := tmo, bufv := false, elapsed := 0
      status := 0x81, count := 0, ph := .idle, busy := false } ∧
    exec (.read len tmo false) s = .next { s with
      cmd := 0x02, len := len, tmo := tmo, bufv := false, elapsed := 0
      status := 0x81, count := 0, ph := .idle, busy := false }) ∧
  (∀ (s t : State) (len tmo : Word), s.busy = false →
    (exec (.write len tmo true) s = .next t ∨ exec (.read len tmo true) s = .next t) → t.busy = false →
    t.status ≠ 0x81) ∧
  (∀ s t : State, Invariant s → s.ph ≠ .idle → step s = .next t → t.busy = false → t.status ≠ 0x81)

/-- 43_receive_path.md R164: a corrupted frame is answered `NACK`, in both phases and before its type byte is looked at;
nothing else changes and the loop goes on. -/
def Obligations.CorruptedFrameIsNacked : Prop :=
  ∀ (s : State) (w : RecvPhase) (b : List Byte), Receives b w s → verify b = false →
    step s = .next (replyThen ftNack id (received b s)) ∧
    (HandsOver 2 (received b s) → step s = .next (replied ftNack (received b s)))

/-- 43_receive_path.md R178: a verified too-short data frame ends the command with `InvalidFrame`, both phases alike; no
reply is sent, and `SEQ`, `INSEQ`, `RB` and `MODE` keep their values. -/
def Obligations.TooShortFrameEndsTheCommand : Prop :=
  ∀ (s : State) (w : RecvPhase) (b : List Byte),
    Receives b w s → verify b = true → decode (.frame b) = .error .invalidFrame →
    step s = .next { received b s with status := 0x86, count := 0, ph := .idle, busy := false }

/-- 43_receive_path.md R177: a malformed frame is answered, or ends the command, as `P_MALFORMED` says; no state changes
beside (the parameter and its values are the spec's decision D16). -/
def Obligations.MalformedFrameFollowsTheParameter : Prop :=
  ∀ (s : State) (w : RecvPhase) (b : List Byte),
    Receives b w s → verify b = true → decode (.frame b) = .error .malformed →
    (s.pMalformed = .nack → step s = .next (replyThen ftNack id (received b s)) ∧
      (HandsOver 2 (received b s) → step s = .next (replied ftNack (received b s)))) ∧
    (s.pMalformed = .ack → step s = .next (replyThen ftAck id (received b s)) ∧
      (HandsOver 2 (received b s) → step s = .next (replied ftAck (received b s)))) ∧
    (s.pMalformed = .raise →
      step s = .next { received b s with status := 0x86, count := 0, ph := .idle, busy := false })

/-- 43_receive_path.md R179, 42_send_path.md R133, 60_exceptions.md R227: the turn of the receive loop that gets no frame.
Nothing read: the loop iterates. A read error: `Timeout` when the deadline has passed after the call, else `ReadFailed`.
The deadline passed before the call: `Timeout`, and no call is made. -/
def Obligations.ReceiveLoopWithoutAFrame : Prop :=
  ∀ (s : State) (w : RecvPhase), s.ph = .recv w →
    (expired s = false → rxOutcome s = .rxNone → step s = .next (afterRx (bound tInf s) s)) ∧
    (expired s = false → rxOutcome s = .rxError →
      ∃ t, step s = .next t ∧ t.trace = (afterRx (bound tInf s) s).trace ∧
        (expired (afterRx (bound tInf s) s) = true → EndedBy .timeout t) ∧
        (expired (afterRx (bound tInf s) s) = false → EndedBy .readFailed t)) ∧
    (expired s = true → ∃ t, step s = .next t ∧ EndedBy .timeout t ∧ t.trace = s.trace)

/-! ### The timeout arbiter, `SendArq` and `Reply` -/

/-- 42_send_path.md R131: `Expired` and the value of `Bound`: the limit asked for, or what is left of a finite `TMO` if
that is less; never 0. -/
def Obligations.BoundCutsToTheBudget : Prop :=
  ∀ (s : State) (t : Word),
    (expired s = true ↔ s.tmo ≠ 0xFFFFFFFF ∧ s.tmo.toNat ≤ s.elapsed.toNat) ∧
    (expired s = false → (bound t s).toNat =
      if s.tmo = 0xFFFFFFFF then t.toNat else min t.toNat (s.tmo.toNat - s.elapsed.toNat)) ∧
    (expired s = false → 1 ≤ t.toNat → 1 ≤ (bound t s).toNat)

/-- 10_state.md R19: the 32-bit saturating `ELAPSED` decides every comparison with a finite `TMO` as the unbounded sum of
the times charged would. -/
def Obligations.SaturatingElapsedIsExact : Prop :=
  ∀ (ds : List Nat) (tmo : Word), tmo ≠ tInf →
    (tmo.toNat ≤ (ds.foldl charge 0).toNat ↔ tmo.toNat ≤ ds.sum) ∧
      (ds.sum < tmo.toNat → (ds.foldl charge 0).toNat = ds.sum)

/-- 42_send_path.md R132: `XmitOnce`. One call with the limit `Bound(t)`, charged with its `dt`; true exactly when the
whole frame was handed over; `Timeout`, and no call, when the deadline has passed. -/
def Obligations.TransmissionIsOneBoundedCall : Prop :=
  ∀ (s : State) (t : Word),
    (expired s = false → ∃ b u, xmitOnce t s = .cont b u ∧
      (b = true ↔ txOutcome s = .txOk (txfLen s)) ∧
      u = { s with
        elapsed := charge s.elapsed (txAnswer s).dt, txq := s.txq.tail
        draws := if s.txq = [] then s.draws + 1 else s.draws
        trace := .tx s.txf (bound t s) (txOutcome s) (txAnswer s).dt :: s.trace }) ∧
    (expired s = true → ∃ u, xmitOnce t s = .halt u ∧ EndedBy .timeout u ∧ u.trace = s.trace)

/-- 42_send_path.md R133: `RecvOnce`. One call for at most `MTU + 3` bytes with the limit `Bound(t)`, charged with its
`dt`; a received frame goes to `RXF`; a read error raises `ReadFailed`, or `Timeout` if the deadline has also passed;
`Timeout`, and no call, when it had passed before. -/
def Obligations.ReceptionIsOneBoundedCall : Prop :=
  ∀ (s u : State) (t : Word),
    u = { s with
      elapsed := charge s.elapsed (rxAnswer s).dt, rxq := s.rxq.tail
      draws := if s.rxq = [] then s.draws + 1 else s.draws
      trace := .rx (s.mtu.toNat + 3) (bound t s) (rxOutcome s) (rxAnswer s).dt :: s.trace } →
    (expired s = false →
      (∀ b, rxOutcome s = .rxOk b →
        recvOnce t s = .cont (.rxOk b) { u with rxf := b } ∧ 1 ≤ b.length ∧ b.length ≤ s.mtu.toNat + 3) ∧
      (rxOutcome s = .rxNone → recvOnce t s = .cont .rxNone u) ∧
      (rxOutcome s = .rxError → expired u = true →
        recvOnce t s = .halt { u with status := 0x83, count := 0, ph := .idle, busy := false }) ∧
      (rxOutcome s = .rxError → expired u = false →
        recvOnce t s = .halt { u with status := 0x85, count := 0, ph := .idle, busy := false })) ∧
    (expired s = true →
      recvOnce t s = .halt { s with status := 0x83, count := 0, ph := .idle, busy := false })

/-- 42_send_path.md R134 and R135 (e), and the source's recovery property: a frame whose first `n` replies, `n` at most 4,
are not an `ACK` and whose next is, is acknowledged after exactly `n + 1` transmissions of the same bytes. -/
def Obligations.RetransmissionRecovers : Prop :=
  ∀ (s : State) (as q : List TxAnswer) (bs r : List RxAnswer) (d : Nat),
    s.tmo = tInf → bs.length < nAttempts → as.length = bs.length + 1 →
    (∀ a ∈ as, ∃ k, txfLen s ≤ k ∧ a.outcome = .txOk k) →
    (∀ b ∈ bs, b.outcome ≠ .rxError ∧ isAck (lawfulRx (rxMax s) b.outcome) = false) →
    s.txq = as ++ q → s.rxq = bs ++ { outcome := .rxOk (ctrlFrame ftAck), dt := d } :: r →
    ∃ t, sendArq s = .cont () t ∧ t.attempt.toNat = bs.length + 1 ∧ t.txq = q ∧ t.rxq = r ∧ t.txf = s.txf ∧
      sentFrames t = sentFrames s ++ List.replicate (bs.length + 1) s.txf ∧
      SameControl s t ∧ SameExchange s t ∧ SameCommand s t ∧ SameProgress s t ∧ t.hbuf = s.hbuf

/-- 42_send_path.md R134: five attempts without an `ACK`, and `SendArq` raises `WriteFailed` after exactly five
transmissions. -/
def Obligations.RetryBudgetIsFiveAttempts : Prop :=
  ∀ (s : State) (as q : List TxAnswer) (bs r : List RxAnswer),
    s.tmo = tInf → as.length = 5 → bs.length = 5 →
    (∀ a ∈ as, ∃ k, txfLen s ≤ k ∧ a.outcome = .txOk k) →
    (∀ b ∈ bs, b.outcome ≠ .rxError ∧ isAck (lawfulRx (rxMax s) b.outcome) = false) →
    s.txq = as ++ q → s.rxq = bs ++ r →
    ∃ t, sendArq s = .halt t ∧ EndedBy .writeFailed t ∧ t.attempt.toNat = 5 ∧ t.txq = q ∧ t.rxq = r ∧
      sentFrames t = sentFrames s ++ List.replicate 5 s.txf

/-- 43_receive_path.md R163: a reply whose transmission fails is tried again, five times in all; then `WriteFailed`. A
reply awaits nothing: no `RxCall` is made. -/
def Obligations.ReplyIsTriedFiveTimes : Prop :=
  ∀ (s : State) (type : Byte) (as q : List TxAnswer),
    s.tmo = tInf → (∀ a ∈ as, ∀ k, a.outcome = .txOk k → k < 2) → s.txq = as ++ q →
    (as.length = 5 → ∃ t, reply type s = .halt t ∧ EndedBy .writeFailed t ∧ t.attempt.toNat = 5 ∧ t.txq = q ∧
      t.rxq = s.rxq) ∧
    (∀ (a : TxAnswer) (q' : List TxAnswer) (k : Nat), as.length < 5 → q = a :: q' → a.outcome = .txOk k → 2 ≤ k →
      ∃ t, reply type s = .cont () t ∧ t.attempt.toNat = as.length + 1 ∧ t.txq = q' ∧ t.rxq = s.rxq ∧
        t.txf = [type, crc7 [type]] ∧ SameExchange s t ∧ SameControl s t ∧ SameProgress s t)

/-- 42_send_path.md R144, 60_exceptions.md R232 (3): when a retry loop ends the command, it ends in `Timeout` exactly when
the deadline has passed; `WriteFailed` comes only with all five attempts made. -/
def Obligations.DeadlineWinsOverTheBudget : Prop :=
  ∀ (s t : State) (type : Byte), (sendArq s = .halt t ∨ reply type s = .halt t) →
    (EndedBy .timeout t ∧ expired t = true) ∨
      (EndedBy .writeFailed t ∧ expired t = false ∧ t.attempt.toNat = 5) ∨
      (EndedBy .readFailed t ∧ expired t = false)

/-- 42_send_path.md R134, R136 (derived by the spec): `SendArq` makes at most five pairs of calls, each with a limit of at
most `T_SUB`, and every frame it transmits is the one in `TXF`, which it does not change. -/
def Obligations.RetransmissionsAreIdentical : Prop :=
  ∀ (s t : State), (sendArq s = .cont () t ∨ sendArq s = .halt t) →
    t.txf = s.txf ∧ ∃ new : List Call, t.trace = new ++ s.trace ∧ new.length ≤ 10 ∧
      (∀ c ∈ new, match c with
        | .tx f l _ _ => f = s.txf ∧ l ≤ tSub
        | .rx m l _ _ => m = rxMax s ∧ l ≤ tSub)

/-! ### The frames, as the receive loop executes them -/

/-- 43_receive_path.md R166, R167: `ACK` and `NACK` received by the receive loop are both answered `ACK`; no state change,
both phases alike. -/
def Obligations.AckAndNackAreAnsweredAck : Prop :=
  ∀ (s : State) (w : RecvPhase), s.ph = .recv w →
    exec .ack s = .next (replyThen ftAck id s) ∧ exec .nack s = .next (replyThen ftAck id s) ∧
    (HandsOver 2 s → exec .ack s = .next (replied ftAck s) ∧ exec .nack s = .next (replied ftAck s))

/-- 43_receive_path.md R168: `SEQ_BEGIN` in phase `Msg` sets `INSEQ`, also when the reply then fails, and is answered
`ACK`; while waiting for a negotiation frame it is answered `NACK` and changes nothing. -/
def Obligations.SeqBeginOpensTheBracket : Prop :=
  ∀ (s : State),
    (s.ph = .recv .msg →
      exec .seqBegin s = .next (replyThen ftAck id { s with inseq := true }) ∧
      (HandsOver 2 s → exec .seqBegin s = .next (replied ftAck { s with inseq := true }))) ∧
    (∀ target, s.ph = .recv (.wait target) →
      exec .seqBegin s = .next (replyThen ftNack id s) ∧
      (HandsOver 2 s → exec .seqBegin s = .next (replied ftNack s)))

/-- 43_receive_path.md R169 and R176: `SEQ_END` in phase `Msg` clears `INSEQ`, is answered `ACK`, and the message is
finalized: delivered when it fits `LEN`, `BufferOverflow` with HBUF untouched when it does not. While waiting it is
answered `NACK` and changes nothing. -/
def Obligations.SeqEndFinalizesTheMessage : Prop :=
  ∀ (s : State),
    (s.ph = .recv .msg →
      exec .seqEnd s = .next (replyThen ftAck finalize { s with inseq := false }) ∧
      (HandsOver 2 s → s.rb.length ≤ s.len.toNat →
        exec .seqEnd s = .next { replied ftAck { s with inseq := false } with
          hbuf := memWriteBytes s.hbuf 0 s.rb
          status := 0x00, count := BitVec.ofNat 32 s.rb.length, ph := .idle, busy := false }) ∧
      (HandsOver 2 s → s.len.toNat < s.rb.length →
        exec .seqEnd s = .next { replied ftAck { s with inseq := false } with
          status := 0x87, count := 0, ph := .idle, busy := false })) ∧
    (∀ target, s.ph = .recv (.wait target) →
      exec .seqEnd s = .next (replyThen ftNack id s) ∧
      (HandsOver 2 s → exec .seqEnd s = .next (replied ftNack s)))

/-- 43_receive_path.md R173, R174, R180: a data frame that repeats the last accepted number is answered `ACK`, one whose
number is neither that nor the next is answered `NACK`, and in phase `WaitMode` every one is answered `NACK`; none of
these changes state, whatever the payload. -/
def Obligations.RepeatedAndMisorderedDataChangeNothing : Prop :=
  ∀ (s : State) (seq : Byte) (p : List Byte),
    (s.ph = .recv .msg → seq = s.seq →
      exec (.data seq p) s = .next (replyThen ftAck id s) ∧
      (HandsOver 2 s → exec (.data seq p) s = .next (replied ftAck s))) ∧
    (s.ph = .recv .msg → seq ≠ s.seq → seq.toNat ≠ (s.seq.toNat + 1) % 256 →
      exec (.data seq p) s = .next (replyThen ftNack id s) ∧
      (HandsOver 2 s → exec (.data seq p) s = .next (replied ftNack s))) ∧
    (∀ target, s.ph = .recv (.wait target) →
      exec (.data seq p) s = .next (replyThen ftNack id s) ∧
      (HandsOver 2 s → exec (.data seq p) s = .next (replied ftNack s)))

/-- 43_receive_path.md R175 and R176: a data frame with the next number is accepted: `SEQ` takes it, it is answered `ACK`,
its payload is appended; inside a bracket the loop goes on, outside it the message is finalized. A reply that fails ends
the command after `SEQ` was advanced and before the payload is appended. -/
def Obligations.NextDataIsAppended : Prop :=
  ∀ (s : State) (seq : Byte) (p : List Byte), s.ph = .recv .msg → seq.toNat = (s.seq.toNat + 1) % 256 →
    (∀ t, reply ftAck { s with seq := seq } = .halt t →
      exec (.data seq p) s = .next t ∧ t.seq = seq ∧ t.inseq = s.inseq ∧ t.rb = s.rb ∧ SameMemory s t) ∧
    (∀ t, reply ftAck { s with seq := seq } = .cont () t →
      exec (.data seq p) s = .next (if s.inseq then { t with rb := t.rb ++ p } else finalize { t with rb := t.rb ++ p })) ∧
    (HandsOver 2 s → s.inseq = true →
      exec (.data seq p) s = .next { replied ftAck { s with seq := seq } with rb := s.rb ++ p }) ∧
    (HandsOver 2 s → s.inseq = false → (s.rb ++ p).length ≤ s.len.toNat →
      exec (.data seq p) s = .next { replied ftAck { s with seq := seq } with
        rb := s.rb ++ p, hbuf := memWriteBytes s.hbuf 0 (s.rb ++ p)
        status := 0x00, count := BitVec.ofNat 32 (s.rb ++ p).length, ph := .idle, busy := false }) ∧
    (HandsOver 2 s → s.inseq = false → s.len.toNat < (s.rb ++ p).length →
      exec (.data seq p) s = .next { replied ftAck { s with seq := seq } with
        rb := s.rb ++ p, status := 0x87, count := 0, ph := .idle, busy := false })

/-- 44_mode_negotiation.md R206: a negotiation frame (`SET_SEND`, `SET_RECV`). Under `Manual` one for the other role is
answered `NACK` and changes nothing. Any other is answered `ACK`; if that fails nothing was reset and `MODE` is unchanged;
then the per-exchange state is reset. If the role is the target's already, the loop goes on; otherwise `MODE` is flipped,
and then a plain `READ` completes with `MODE_SWITCHED`, a `READ` that waited enters its message loop, a `WRITE` that waited
goes on to send. -/
def Obligations.NegotiationFrameIsHandled : Prop :=
  ∀ (s : State) (w : RecvPhase) (target : Role), s.ph = .recv w →
    (s.policy = .manual → s.mode ≠ roleMode target →
      exec (setFrame target) s = .next (replyThen ftNack id s) ∧
      (HandsOver 2 s → exec (setFrame target) s = .next (replied ftNack s))) ∧
    (s.policy = .auto ∨ s.mode = roleMode target →
      (∀ t, reply ftAck s = .halt t →
        exec (setFrame target) s = .next t ∧ SameExchange s t ∧ t.mode = s.mode) ∧
      (∀ t, reply ftAck s = .cont () t → exec (setFrame target) s = .next (
        if s.mode = roleMode target then { t with seq := 0, inseq := false, rb := [] } else flipped target w t)) ∧
      (HandsOver 2 s → s.mode = roleMode target → exec (setFrame target) s = .next { replied ftAck s with
        seq := 0, inseq := false, rb := [] }) ∧
      (HandsOver 2 s → s.mode ≠ roleMode target →
        exec (setFrame target) s = .next (flipped target w (replied ftAck s))))

/-- The model's choice (notes/assumptions/16.md; 44_mode_negotiation.md R210, 60_exceptions.md R241): outside the receive
loop the engine does not listen, and a frame has no effect. -/
def Obligations.FrameOutsideTheLoopHasNoEffect : Prop :=
  ∀ (s : State) (i : Instr), i.isFrame = true → (∀ w, s.ph ≠ .recv w) → exec i s = .next s

/-! ### The host commands -/

/-- 42_send_path.md R138: a message of at most `MTU` bytes goes out as one data frame with `seq` 1, by one `SendArq`; on
its `ACK`, at whichever attempt, the command completes `OK` with `COUNT` = `LEN`; if `SendArq` ends the command, `SEQ` and
`OFF` are still 0. -/
def Obligations.ShortWriteSendsOneFrame : Prop :=
  ∀ (s u : State) (len tmo : Word), s.busy = false → s.mode ≠ .receiver → len.toNat ≤ s.mtu.toNat →
    u = { writing len tmo s with
      txf := dataFrame 1 (memReadBytes s.hbuf 0 len.toNat)
      crcacc := crc7 (ftData :: 1 :: memReadBytes s.hbuf 0 len.toNat) } →
    (∀ t, sendArq u = .halt t → exec (.write len tmo true) s = .next t ∧ SameMessage u t) ∧
    (∀ t, sendArq u = .cont () t → SameMessage u t ∧ exec (.write len tmo true) s = .next { t with
      seq := 1, off := len, status := 0x00, count := len, ph := .idle, busy := false }) ∧
    (FirstAcked u → exec (.write len tmo true) s = .next { acked u with
      seq := 1, off := len, status := 0x00, count := len, ph := .idle, busy := false })

/-- 42_send_path.md R139, R141, R143, its opening: a message longer than `MTU` begins with `SEQ_BEGIN`, and on its `ACK`,
at whichever attempt, the segments follow, with `SEQ` and `OFF` still 0; if `SendArq` ends the command, that is its end,
and they are 0 too. That a step ends there is the model's choice (notes/assumptions/3.md). -/
def Obligations.LongWriteOpensWithSeqBegin : Prop :=
  ∀ (s u : State) (len tmo : Word), s.busy = false → s.mode ≠ .receiver → s.mtu.toNat < len.toNat →
    u = { writing len tmo s with txf := [ftSeqBegin, crc7 [ftSeqBegin]], crcacc := crc7 [ftSeqBegin] } →
    (∀ t, sendArq u = .halt t → exec (.write len tmo true) s = .next t ∧ SameMessage u t) ∧
    (∀ t, sendArq u = .cont () t →
      exec (.write len tmo true) s = .next { t with ph := .segment } ∧ SameMessage u t) ∧
    (FirstAcked u → exec (.write len tmo true) s = .next { acked u with ph := .segment })

/-- 42_send_path.md R139, R141, R143, its turns: while `OFF` is below `LEN` the next data frame carries the next sequence
number and min(`MTU`, `LEN - OFF`) bytes from `OFF`; on its `ACK`, at whichever attempt, `SEQ` and `OFF` advance. Then
`SEQ_END`, and on its `ACK` the completion. If `SendArq` ends the command, `SEQ` and `OFF` keep their values. That one turn
is one step is the model's choice (notes/assumptions/3.md). -/
def Obligations.SegmentStepAdvancesTheCursor : Prop :=
  ∀ (s u : State), s.ph = .segment →
    (s.off.toNat < s.len.toNat →
      u = { s with
        txf := dataFrame (s.seq + 1) (memReadBytes s.hbuf s.off.toNat (min s.mtu.toNat (s.len.toNat - s.off.toNat)))
        crcacc := crc7 (ftData :: (s.seq + 1) ::
          memReadBytes s.hbuf s.off.toNat (min s.mtu.toNat (s.len.toNat - s.off.toNat))) } →
      (∀ t, sendArq u = .halt t → step s = .next t ∧ SameMessage s t) ∧
      (∀ t, sendArq u = .cont () t → SameMessage s t ∧
        ∃ v, step s = .next v ∧ v = { t with seq := s.seq + 1, off := v.off } ∧
          v.off.toNat = s.off.toNat + min s.mtu.toNat (s.len.toNat - s.off.toNat)) ∧
      (FirstAcked u → ∃ v, step s = .next v ∧ v = { acked u with seq := s.seq + 1, off := v.off } ∧
        v.off.toNat = s.off.toNat + min s.mtu.toNat (s.len.toNat - s.off.toNat))) ∧
    (s.len.toNat ≤ s.off.toNat →
      u = { s with txf := [ftSeqEnd, crc7 [ftSeqEnd]], crcacc := crc7 [ftSeqEnd] } →
      (∀ t, sendArq u = .halt t → step s = .next t ∧ SameMessage s t) ∧
      (∀ t, sendArq u = .cont () t → SameMessage s t ∧
        step s = .next { t with status := 0x00, count := s.len, ph := .idle, busy := false }) ∧
      (FirstAcked u → step s = .next { acked u with status := 0x00, count := s.len, ph := .idle, busy := false }))

/-- 43_receive_path.md R161, 44_mode_negotiation.md R201 and R203: `READ` of an engine that is not a `Sender` becomes, or
stays, `Receiver` and enters its message loop; under `Auto`, `READ` of a `Sender` waits for `SET_RECV`. -/
def Obligations.ReadEntersTheReceiveLoop : Prop :=
  ∀ (s : State) (len tmo : Word), s.busy = false →
    (s.mode ≠ .sender → exec (.read len tmo true) s = .next { s with
      cmd := 0x02, len := len, tmo := tmo, bufv := true, busy := true, elapsed := 0
      seq := 0, inseq := false, rb := [], mode := .receiver, ph := .recv .msg }) ∧
    (s.mode = .sender → s.policy = .auto → exec (.read len tmo true) s = .next { s with
      cmd := 0x02, len := len, tmo := tmo, bufv := true, busy := true, elapsed := 0
      seq := 0, inseq := false, rb := [], ph := .recv (.wait .receiver) })

/-- 42_send_path.md R137 step 4, 44_mode_negotiation.md R204: under `Auto`, `WRITE` of a `Receiver` waits for `SET_SEND`;
once it has come, the next step sends the message, from the state a `WRITE` of a `Sender` sends from, and goes on from the
`ACK`, at whichever attempt it comes; if `SendArq` ends the command, `SEQ` and `OFF` keep their values. That the sending is
a step of its own is the model's choice (notes/assumptions/3.md). -/
def Obligations.WriteOfAReceiverWaits : Prop :=
  ∀ (s : State) (len tmo : Word),
    (s.busy = false → s.mode = .receiver → s.policy = .auto → exec (.write len tmo true) s = .next { s with
      cmd := 0x01, len := len, tmo := tmo, bufv := true, busy := true, elapsed := 0
      seq := 0, inseq := false, rb := [], off := 0, ph := .recv (.wait .sender) }) ∧
    (s.ph = .send → ∀ u : State, s.len.toNat ≤ s.mtu.toNat →
      u = { s with
        txf := dataFrame 1 (memReadBytes s.hbuf 0 s.len.toNat)
        crcacc := crc7 (ftData :: 1 :: memReadBytes s.hbuf 0 s.len.toNat) } →
      (∀ t, sendArq u = .halt t → step s = .next t ∧ SameMessage s t) ∧
      (∀ t, sendArq u = .cont () t → SameMessage s t ∧ step s = .next { t with
        seq := 1, off := s.len, status := 0x00, count := s.len, ph := .idle, busy := false }) ∧
      (FirstAcked u → step s = .next { acked u with
        seq := 1, off := s.len, status := 0x00, count := s.len, ph := .idle, busy := false })) ∧
    (s.ph = .send → ∀ u : State, s.mtu.toNat < s.len.toNat →
      u = { s with txf := [ftSeqBegin, crc7 [ftSeqBegin]], crcacc := crc7 [ftSeqBegin] } →
      (∀ t, sendArq u = .halt t → step s = .next t ∧ SameMessage s t) ∧
      (∀ t, sendArq u = .cont () t → SameMessage s t ∧ step s = .next { t with ph := .segment }) ∧
      (FirstAcked u → step s = .next { acked u with ph := .segment }))

/-- 60_exceptions.md R226, 44_mode_negotiation.md R202: under `Manual`, `WRITE` of a `Receiver`, `READ` of a `Sender` and
both request commands end with `IncorrectMode`, before any transport call and with `MODE` unchanged, whatever `TMO` is;
`WRITE` and `READ` have reset the per-exchange state. -/
def Obligations.ManualMismatchIsIncorrectMode : Prop :=
  ∀ (s : State) (len tmo : Word) (v : Bool), s.busy = false → s.policy = .manual →
    (s.mode = .receiver → exec (.write len tmo true) s = .next { s with
      cmd := 0x01, len := len, tmo := tmo, bufv := true, elapsed := 0, seq := 0, inseq := false, rb := [], off := 0
      status := 0x82, count := 0, ph := .idle, busy := false }) ∧
    (s.mode = .sender → exec (.read len tmo true) s = .next { s with
      cmd := 0x02, len := len, tmo := tmo, bufv := true, elapsed := 0, seq := 0, inseq := false, rb := []
      status := 0x82, count := 0, ph := .idle, busy := false }) ∧
    exec (.reqPeerSend len tmo v) s = .next { s with
      cmd := 0x03, len := len, tmo := tmo, bufv := v, elapsed := 0
      status := 0x82, count := 0, ph := .idle, busy := false } ∧
    exec (.reqPeerRecv len tmo v) s = .next { s with
      cmd := 0x04, len := len, tmo := tmo, bufv := v, elapsed := 0
      status := 0x82, count := 0, ph := .idle, busy := false }

/-- 44_mode_negotiation.md R207, R208: a request command is refused with `IncorrectMode` under `Manual`. Under `Auto`, in
any role, it resets the per-exchange state and sends `SET_SEND` or `SET_RECV`; on its `ACK` it takes the complementary role
and completes `OK` with count 0; if `SendArq` ends the command, that is its end, and `MODE` is as it was. -/
def Obligations.RequestCommandsTakeTheRole : Prop :=
  ∀ (s u : State) (len tmo : Word) (v : Bool), s.busy = false →
    (s.policy = .manual →
      exec (.reqPeerSend len tmo v) s = .next { s with
        cmd := 0x03, len := len, tmo := tmo, bufv := v, elapsed := 0
        status := 0x82, count := 0, ph := .idle, busy := false } ∧
      exec (.reqPeerRecv len tmo v) s = .next { s with
        cmd := 0x04, len := len, tmo := tmo, bufv := v, elapsed := 0
        status := 0x82, count := 0, ph := .idle, busy := false }) ∧
    (s.policy = .auto → u = requesting 0x03 ftSetSend len tmo v s →
      (∀ t, sendArq u = .halt t → exec (.reqPeerSend len tmo v) s = .next t ∧ t.mode = s.mode) ∧
      (∀ t, sendArq u = .cont () t → exec (.reqPeerSend len tmo v) s = .next { t with
        mode := .receiver, status := 0x00, count := 0, ph := .idle, busy := false }) ∧
      (FirstAcked u → exec (.reqPeerSend len tmo v) s = .next { acked u with
        mode := .receiver, status := 0x00, count := 0, ph := .idle, busy := false })) ∧
    (s.policy = .auto → u = requesting 0x04 ftSetRecv len tmo v s →
      (∀ t, sendArq u = .halt t → exec (.reqPeerRecv len tmo v) s = .next t ∧ t.mode = s.mode) ∧
      (∀ t, sendArq u = .cont () t → exec (.reqPeerRecv len tmo v) s = .next { t with
        mode := .sender, status := 0x00, count := 0, ph := .idle, busy := false }) ∧
      (FirstAcked u → exec (.reqPeerRecv len tmo v) s = .next { acked u with
        mode := .sender, status := 0x00, count := 0, ph := .idle, busy := false }))

/-- 44_mode_negotiation.md R207, R208, 70_reset_and_hazards.md R266: a request that is not acknowledged ends in an error
and leaves `MODE` as it was. -/
def Obligations.FailedRequestKeepsTheRole : Prop :=
  ∀ (s t : State) (len tmo : Word) (v : Bool) (i : Instr), s.busy = false →
    (i = .reqPeerSend len tmo v ∨ i = .reqPeerRecv len tmo v) → exec i s = .next t → t.status ≠ 0x00 →
    t.mode = s.mode ∧ t.count = 0 ∧ t.busy = false ∧
      (t.status = 0x82 ∨ t.status = 0x83 ∨ t.status = 0x84 ∨ t.status = 0x85)

/-- 30_encoding.md R68: a command presented while `BUSY` = 1 "is not accepted and has no effect of any kind". -/
def Obligations.BusyEngineIgnoresCommands : Prop :=
  ∀ (s : State) (i : Instr), s.busy = true → i.isFrame = false → exec i s = .next s

/-- 42_send_path.md R131, R144 and R145, 43_receive_path.md R181: with `TMO` = 0 a command that would make a transport call
ends in `Timeout` before the first one; the mode bootstrap has happened. That a `READ` is accepted in one step and listens
in the next is the model's choice (notes/assumptions/3.md). -/
def Obligations.ZeroTimeoutEndsBeforeTheFirstCall : Prop :=
  ∀ (s : State) (len : Word), s.busy = false →
    (s.mode ≠ .receiver → ∃ t, exec (.write len 0 true) s = .next t ∧ EndedBy .timeout t ∧ t.mode = .sender ∧
      t.attempt = 1 ∧ t.seq = 0 ∧ t.trace = s.trace) ∧
    (s.mode ≠ .sender → ∃ t u, exec (.read len 0 true) s = .next t ∧ step t = .next u ∧ EndedBy .timeout u ∧
      u.mode = .receiver ∧ u.trace = s.trace)

/-! ### Frames: what an instruction leaves alone -/

/-- 43_receive_path.md R166 to R168: what the frames `ACK`, `NACK` and `SEQ_BEGIN` leave alone, whatever the environment
answers: every control register, `SEQ`, `RB`, the latched command, `OFF`, `RXF` and every byte of HBUF; `INSEQ` but for
`SEQ_BEGIN` in phase `Msg`; and the completion word, `BUSY` and `PH` unless the reply could not be transmitted. -/
def Obligations.FrameOfControlFrames : Prop :=
  ∀ (s t : State) (i : Instr), (i = .ack ∨ i = .nack ∨ i = .seqBegin) → exec i s = .next t →
    SameControl s t ∧ t.seq = s.seq ∧ t.rb = s.rb ∧ SameCommand s t ∧ SameMemory s t ∧
    t.rxf = s.rxf ∧ t.rxq = s.rxq ∧ t.host = s.host ∧
    (t.inseq = s.inseq ∨ i = .seqBegin ∧ s.ph = .recv .msg ∧ t.inseq = true) ∧
    (SameProgress s t ∨ EndedBy .timeout t ∨ EndedBy .writeFailed t)

/-- 43_receive_path.md R169, R172 to R176, 20_memory.md R41: what the frames `SEQ_END` and `DATA` leave alone. HBUF changes
only in a completion `OK`, and then exactly the bytes `HBUF[0 .. COUNT-1]`, which hold the message; `MODE` and the other
control registers, the latched command, `OFF` and `RXF` never change. -/
def Obligations.FrameOfMessageFrames : Prop :=
  ∀ (s t : State) (i : Instr) (q : Byte) (p : List Byte), memWf s.hbuf = true →
    (i = .seqEnd ∨ i = .data q p) → exec i s = .next t →
    SameControl s t ∧ SameCommand s t ∧ t.rxf = s.rxf ∧ t.rxq = s.rxq ∧ t.host = s.host ∧
    (t.seq = s.seq ∨ i = .data q p ∧ s.ph = .recv .msg ∧ t.seq = q ∧ q = s.seq + 1) ∧
    (t.inseq = s.inseq ∨ i = .seqEnd ∧ s.ph = .recv .msg ∧ t.inseq = false) ∧
    (t.rb = s.rb ∨ i = .data q p ∧ s.ph = .recv .msg ∧ q = s.seq + 1 ∧ t.rb = s.rb ++ p) ∧
    (SameMemory s t ∨ CompletedWith statusOk (BitVec.ofNat 32 t.rb.length) t ∧ t.rb.length ≤ s.len.toNat ∧
      ∀ a, memRead t.hbuf a = if a < t.rb.length then t.rb.getD a 0 else memRead s.hbuf a) ∧
    (SameProgress s t ∨ EndedBy .timeout t ∨ EndedBy .writeFailed t ∨ EndedBy .bufferOverflow t ∨
      CompletedWith statusOk (BitVec.ofNat 32 t.rb.length) t)

/-- 44_mode_negotiation.md R206: what the frames `SET_SEND` and `SET_RECV` leave alone: the policy and the configuration,
the latched command, `OFF`, `RXF` and every byte of HBUF; `MODE` and the per-exchange state change only as the rule says,
and both only after an `ACK` that went out. -/
def Obligations.FrameOfNegotiationFrames : Prop :=
  ∀ (s t : State) (target : Role), exec (setFrame target) s = .next t →
    t.policy = s.policy ∧ t.mtu = s.mtu ∧ t.reserve = s.reserve ∧ t.pMalformed = s.pMalformed ∧
    SameCommand s t ∧ SameMemory s t ∧ t.rxf = s.rxf ∧ t.rxq = s.rxq ∧ t.host = s.host ∧
    (SameExchange s t ∨ t.seq = 0 ∧ t.inseq = false ∧ t.rb = []) ∧
    (t.mode = s.mode ∨ s.policy = .auto ∧ t.mode = roleMode target ∧ t.seq = 0 ∧ t.inseq = false ∧ t.rb = []) ∧
    (SameProgress s t ∨ EndedBy .timeout t ∨ EndedBy .writeFailed t ∨
      CompletedWith statusModeSwitched 0 t ∧ t.mode = roleMode target ∨
      t.mode = roleMode target ∧ t.status = s.status ∧ t.count = s.count ∧ t.busy = s.busy)

/-- 42_send_path.md R137, 43_receive_path.md R161, 44_mode_negotiation.md R207 and R208: what the four host commands leave
alone, whatever the environment answers: the policy and the configuration, every byte of HBUF, the host's moves; `MODE`
but for the bootstrap of `WRITE` and `READ` and an acknowledged request; `OFF` but for `WRITE`; `SEQ`, `INSEQ` and `RB`
but for their reset, and `SEQ` 1 after the acknowledged frame of a `WRITE`. -/
def Obligations.FrameOfHostCommands : Prop :=
  ∀ (s t : State) (i : Instr) (cmd : Byte) (len tmo : Word) (v : Bool),
    commandOf cmd len tmo v = some i → s.busy = false → exec i s = .next t →
    t.policy = s.policy ∧ t.mtu = s.mtu ∧ t.reserve = s.reserve ∧ t.pMalformed = s.pMalformed ∧
    SameMemory s t ∧ t.host = s.host ∧
    t.cmd = cmd ∧ t.len = len ∧ t.tmo = tmo ∧ t.bufv = v ∧
    (t.off = s.off ∨ cmd = cmdWrite) ∧
    (t.seq = s.seq ∨ t.seq = 0 ∨ cmd = cmdWrite ∧ t.seq = 1) ∧
    (t.inseq = s.inseq ∧ t.rb = s.rb ∨ t.inseq = false ∧ t.rb = []) ∧
    (t.mode = s.mode ∨ s.mode = .undefined ∧ (cmd = cmdWrite ∧ t.mode = .sender ∨ cmd = cmdRead ∧ t.mode = .receiver) ∨
      CompletedWith statusOk 0 t ∧ s.policy = .auto ∧
        (cmd = cmdReqPeerSend ∧ t.mode = .receiver ∨ cmd = cmdReqPeerRecv ∧ t.mode = .sender))

/-! ### The whole machine -/

/-- 10_state.md R29, 20_memory.md R43, 42_send_path.md R139 and R141: every step keeps the invariant: HBUF in its canonical
form, `BUSY` = 0 exactly when `PH` = `IDLE`, `ATTEMPT` at most 5, both frame buffers within `MTU + 3`, `CRCACC` below
0x80, a completion word of R70, the role and the command that belong to the phase, the cursor of a segmented `WRITE`. -/
def Obligations.StepKeepsTheInvariant : Prop :=
  ∀ s t : State, Invariant s → step s = .next t → Invariant t

/-- 44_mode_negotiation.md R200: `MODE` changes only along the transitions of the table, each by its own cause; under
`Manual` only the bootstrap changes it; only the host's reset brings it back to `Undefined`. -/
def Obligations.ModeMovesOnlyByItsCauses : Prop :=
  ∀ s t : State, Invariant s → step s = .next t → t.mode ≠ s.mode →
    (∃ c ms, s.ph = .idle ∧ s.host = .reset c :: ms ∧ t.mode = .undefined) ∨
    (∃ w ms, s.ph = .idle ∧ s.host = .command w :: ms ∧ s.mode = .undefined ∧ hostBufv w = true ∧
      (hostCmd w = cmdWrite ∧ t.mode = .sender ∨ hostCmd w = cmdRead ∧ t.mode = .receiver)) ∨
    (∃ w ms, s.ph = .idle ∧ s.host = .command w :: ms ∧ s.policy = .auto ∧ t.status = statusOk ∧ t.busy = false ∧
      (hostCmd w = cmdReqPeerSend ∧ t.mode = .receiver ∨ hostCmd w = cmdReqPeerRecv ∧ t.mode = .sender)) ∨
    (∃ b w target, Receives b w s ∧ s.policy = .auto ∧ verify b = true ∧ decode (.frame b) = .ok (setFrame target) ∧
      s.mode ≠ .undefined ∧ t.mode = roleMode target)

/-- 10_state.md R29 (b): FPE transmits a data frame only from `WRITE`, and only while `MODE` = `Sender`. -/
def Obligations.OnlyASenderTransmitsData : Prop :=
  ∀ s t : State, Invariant s → step s = .next t →
    ∃ new : List Call, t.trace = new ++ s.trace ∧
      ∀ c ∈ new, isDataCall c = true → t.mode = .sender ∧ t.cmd = cmdWrite

/-- 10_state.md R12, R13, R14: no step but the host's reset changes `POLICY`, `MTU`, `RESERVE` or `P_MALFORMED`. -/
def Obligations.ConfigurationChangesOnlyByReset : Prop :=
  ∀ s t : State, step s = .next t →
    (t.policy = s.policy ∧ t.mtu = s.mtu ∧ t.reserve = s.reserve ∧ t.pMalformed = s.pMalformed) ∨
      ∃ c ms, s.ph = .idle ∧ s.host = .reset c :: ms

/-- 20_memory.md R41, 43_receive_path.md R176, 70_reset_and_hazards.md R255: HBUF changes only when the idle engine's host
writes it or when a `READ` completes `OK`, and then only at the bytes below `COUNT`. -/
def Obligations.MemoryChangesOnlyOnDelivery : Prop :=
  ∀ s t : State, Invariant s → step s = .next t →
    SameMemory s t ∨
    (∃ a b ms, s.ph = .idle ∧ s.host = .poke a b :: ms ∧
      ∀ x, memRead t.hbuf x = if x = a.toNat then b else memRead s.hbuf x) ∨
    (s.ph = .recv .msg ∧ s.cmd = cmdRead ∧ CompletedWith statusOk t.count t ∧ t.count.toNat = t.rb.length ∧
      t.count.toNat ≤ s.len.toNat ∧
      ∀ x, memRead t.hbuf x = if x < t.count.toNat then t.rb.getD x 0 else memRead s.hbuf x)

/-- 42_send_path.md R139 and R141, whole: a `WRITE` of more than `MTU` bytes, every frame of which is handed over and
acknowledged, hands over `SEQ_BEGIN`, then `N = ceil(LEN / MTU)` data frames, frame `k` with sequence number `k mod 256`
and the bytes `HBUF[(k-1)*MTU .. min(k*MTU, LEN)-1]`, then `SEQ_END`, and completes `OK` with `COUNT` = `LEN`. That this takes
`N + 2` steps, one for each acknowledged frame, is the model's choice (notes/assumptions/3.md). -/
def Obligations.SegmentedWriteSendsTheMessage : Prop :=
  ∀ (s : State) (len : Word) (n : Nat),
    Invariant s → s.ph = .idle → s.mode ≠ .receiver → s.mtu.toNat < len.toNat →
    s.host = [.command (hostWord cmdWrite len tInf true)] →
    n = (len.toNat + s.mtu.toNat - 1) / s.mtu.toNat →
    (∀ a ∈ s.txq, ∃ k, rxMax s ≤ k ∧ a.outcome = .txOk k) → n + 2 ≤ s.txq.length →
    (∀ a ∈ s.rxq, a.outcome = .rxOk (ctrlFrame ftAck)) → n + 2 ≤ s.rxq.length →
    ∃ t, Host.Core.run Sys2Proof.core (n + 2) s = .next t ∧
      CompletedWith statusOk len t ∧ t.mode = .sender ∧ SameMemory s t ∧
      sentFrames t = sentFrames s ++ [ctrlFrame ftSeqBegin] ++
        segmentFrames s.hbuf s.mtu.toNat len.toNat 1 n ++ [ctrlFrame ftSeqEnd]

/-- 43_receive_path.md R161, R168, R169, R175, R176, whole: a `READ` to which the transport brings `SEQ_BEGIN`, the data
frames of a list of payloads in order, and `SEQ_END`, its replies going out, acknowledges each, and completes `OK` with
the concatenation of the payloads in HBUF and their total length in `COUNT`. That this takes one step for the command and
one for each received frame is the model's choice (notes/assumptions/3.md). -/
def Obligations.ReadDeliversTheBracketedMessage : Prop :=
  ∀ (s : State) (len : Word) (ps : List (List Byte)),
    Invariant s → s.ph = .idle → s.mode ≠ .sender →
    s.host = [.command (hostWord cmdRead len tInf true)] →
    (∀ p ∈ ps, p.length ≤ s.mtu.toNat) → ps.flatten.length ≤ len.toNat →
    s.rxq.map RxAnswer.outcome =
      ([ctrlFrame ftSeqBegin] ++ payloadFrames 1 ps ++ [ctrlFrame ftSeqEnd]).map RxOutcome.rxOk →
    (∀ a ∈ s.txq, ∃ k, 2 ≤ k ∧ a.outcome = .txOk k) → ps.length + 2 ≤ s.txq.length →
    ∃ t, Host.Core.run Sys2Proof.core (ps.length + 3) s = .next t ∧
      CompletedWith statusOk (BitVec.ofNat 32 ps.flatten.length) t ∧ t.mode = .receiver ∧ t.rxq = [] ∧
      memReadBytes t.hbuf 0 ps.flatten.length = ps.flatten ∧
      sentFrames t = sentFrames s ++ List.replicate (ps.length + 2) (ctrlFrame ftAck)

/-- 43_receive_path.md R179, 60_exceptions.md R227 and R242: a receive loop to which nothing comes ends in `Timeout` once
the times of its empty reads add up to what was left of a finite `TMO`, and not before. That one read is one step is the
model's choice (notes/assumptions/3.md). -/
def Obligations.SilentReceiveEndsAtTheDeadline : Prop :=
  ∀ (s : State) (w : RecvPhase) (ds : List Nat),
    s.ph = .recv w → s.tmo ≠ tInf → s.rxq = ds.map (fun d => { outcome := .rxNone, dt := d }) →
    s.elapsed.toNat + ds.dropLast.sum < s.tmo.toNat → s.tmo.toNat ≤ s.elapsed.toNat + ds.sum →
    (∃ t, Host.Core.run Sys2Proof.core ds.length s = .next t ∧ t.ph = .recv w ∧ t.rxq = []) ∧
    ∃ t, Host.Core.run Sys2Proof.core (ds.length + 1) s = .next t ∧ EndedBy .timeout t ∧ t.mode = s.mode

/-! ### The sequencer's own steps -/

/-- 42_send_path.md R137 to R143: the steps of a `WRITE` that run no instruction, whatever the environment answers. The
role and the configuration, HBUF, the host's moves, the latched command, `INSEQ` and `RB` are unchanged. Either `SendArq`
has ended the command, with `SEQ` and `OFF` as they were; or the frame was acknowledged, and they, the completion word and
the phase are as the rule for that frame says. That these are the steps is the model's choice (notes/assumptions/3.md). -/
def Obligations.FrameOfSendingSteps : Prop :=
  ∀ s t : State, (s.ph = .send ∨ s.ph = .segment) → step s = .next t →
    SameControl s t ∧ SameMemory s t ∧ t.host = s.host ∧
    t.cmd = s.cmd ∧ t.len = s.len ∧ t.tmo = s.tmo ∧ t.bufv = s.bufv ∧ t.inseq = s.inseq ∧ t.rb = s.rb ∧
    ((t.seq = s.seq ∧ t.off = s.off ∧ (EndedBy .timeout t ∨ EndedBy .writeFailed t ∨ EndedBy .readFailed t)) ∨
      (s.ph = .send ∧ s.len.toNat ≤ s.mtu.toNat ∧ t.seq = 1 ∧ t.off = s.len ∧ CompletedWith statusOk s.len t) ∨
      (s.ph = .send ∧ s.mtu.toNat < s.len.toNat ∧ t.seq = s.seq ∧ t.off = s.off ∧
        t.ph = .segment ∧ t.status = s.status ∧ t.count = s.count ∧ t.busy = s.busy) ∨
      (s.ph = .segment ∧ s.off.toNat < s.len.toNat ∧ t.seq = s.seq + 1 ∧
        t.off.toNat = s.off.toNat + min s.mtu.toNat (s.len.toNat - s.off.toNat) ∧ SameProgress s t) ∨
      (s.ph = .segment ∧ s.len.toNat ≤ s.off.toNat ∧ t.seq = s.seq ∧ t.off = s.off ∧
        CompletedWith statusOk s.len t))
end

