-- ==== Sys2Proof/Laws/Codec.lean ====
section
/-! SUPPORT. The small laws of the CRC7 unit and the codec: appending a byte, what the fields of a packed frame and of a
packed command word are. -/

namespace Sys2Proof.Machine

@[simp] theorem crc7_nil : crc7 [] = 0 := rfl

theorem crc7_append (a b : List Byte) : crc7 (a ++ b) = b.foldl crcStep (crc7 a) := by
  simp [crc7, List.foldl_append]

@[simp] theorem crc7_snoc (a : List Byte) (b : Byte) : crc7 (a ++ [b]) = crcTab (crc7 a ^^^ b) := by
  simp [crc7_append, crcStep]

/-- Every table entry is a 7-bit value. -/
theorem crcTab_lt (i : Byte) : (crcTab i).toNat < 128 := by
  have h : ∀ i : Byte, (crcTab i).toNat < 128 := by decide
  exact h i

@[simp] theorem frameBody_snoc (b : List Byte) (c : Byte) : frameBody (b ++ [c]) = b := by simp [frameBody]

@[simp] theorem frameBody_seal (b : List Byte) : frameBody (sealFrame b) = b := by simp [sealFrame]

@[simp] theorem sealFrame_length (b : List Byte) : (sealFrame b).length = b.length + 1 := by simp [sealFrame]

@[simp] theorem ctrlFrame_length (t : Byte) : (ctrlFrame t).length = 2 := by simp [ctrlFrame]

theorem ctrlFrame_eq (t : Byte) : ctrlFrame t = [t, crc7 [t]] := rfl

@[simp] theorem dataFrame_length (s : Byte) (p : List Byte) : (dataFrame s p).length = p.length + 3 := by
  simp [dataFrame]

@[simp] theorem frameSeq_data (s : Byte) (p : List Byte) : frameSeq (dataFrame s p) = s := by
  simp [frameSeq, dataFrame, sealFrame]

@[simp] theorem framePayload_data (s : Byte) (p : List Byte) : framePayload (dataFrame s p) = p := by
  simp [framePayload, dataFrame]

/-- Bit `i` of a host command word: the four fields from bit 0 up (R68). -/
theorem hostWord_bit (c : Byte) (l t : Word) (v : Bool) (i : Nat) :
    (hostWord c l t v).getLsbD i =
      if i < 8 then c.getLsbD i else if i - 8 < 32 then l.getLsbD (i - 8)
      else if i - 8 - 32 < 32 then t.getLsbD (i - 8 - 32) else (BitVec.ofBool v).getLsbD (i - 8 - 32 - 32) := by
  unfold hostWord
  erw [BitVec.getLsbD_append, BitVec.getLsbD_append, BitVec.getLsbD_append]

@[simp] theorem hostCmd_hostWord (c : Byte) (l t : Word) (v : Bool) : hostCmd (hostWord c l t v) = c := by
  refine BitVec.eq_of_getLsbD_eq fun i hi => ?_
  simp [hostCmd, hostWord_bit, hi]

@[simp] theorem hostLen_hostWord (c : Byte) (l t : Word) (v : Bool) : hostLen (hostWord c l t v) = l := by
  refine BitVec.eq_of_getLsbD_eq fun i hi => ?_
  simp [hostLen, hostWord_bit, hi]

@[simp] theorem hostTmo_hostWord (c : Byte) (l t : Word) (v : Bool) : hostTmo (hostWord c l t v) = t := by
  refine BitVec.eq_of_getLsbD_eq fun i hi => ?_
  simp [hostTmo, hostWord_bit, hi, show ¬ 40 + i < 8 by omega, show ¬ 40 + i - 8 < 32 by omega,
    show 40 + i - 8 - 32 = i by omega]

@[simp] theorem hostBufv_hostWord (c : Byte) (l t : Word) (v : Bool) : hostBufv (hostWord c l t v) = v := by
  simp only [hostBufv, hostWord_bit]
  cases v <;> rfl

end Sys2Proof.Machine
end

