-- ==== Sys2Proof/Laws/State.lean ====
section
/-! SUPPORT. One lemma per field per update, for the named updates of the state: each true by unfolding the update once,
so that no later proof unfolds a record update. -/

namespace Sys2Proof.Machine

/-! ### `setMode` -/

@[simp] theorem setMode_mode (m : Mode) (s : State) : (setMode m s).mode = m := rfl
@[simp] theorem setMode_policy (m : Mode) (s : State) : (setMode m s).policy = s.policy := rfl
@[simp] theorem setMode_mtu (m : Mode) (s : State) : (setMode m s).mtu = s.mtu := rfl
@[simp] theorem setMode_reserve (m : Mode) (s : State) : (setMode m s).reserve = s.reserve := rfl
@[simp] theorem setMode_pMalformed (m : Mode) (s : State) : (setMode m s).pMalformed = s.pMalformed := rfl
@[simp] theorem setMode_seq (m : Mode) (s : State) : (setMode m s).seq = s.seq := rfl
@[simp] theorem setMode_inseq (m : Mode) (s : State) : (setMode m s).inseq = s.inseq := rfl
@[simp] theorem setMode_rb (m : Mode) (s : State) : (setMode m s).rb = s.rb := rfl
@[simp] theorem setMode_cmd (m : Mode) (s : State) : (setMode m s).cmd = s.cmd := rfl
@[simp] theorem setMode_len (m : Mode) (s : State) : (setMode m s).len = s.len := rfl
@[simp] theorem setMode_tmo (m : Mode) (s : State) : (setMode m s).tmo = s.tmo := rfl
@[simp] theorem setMode_bufv (m : Mode) (s : State) : (setMode m s).bufv = s.bufv := rfl
@[simp] theorem setMode_elapsed (m : Mode) (s : State) : (setMode m s).elapsed = s.elapsed := rfl
@[simp] theorem setMode_attempt (m : Mode) (s : State) : (setMode m s).attempt = s.attempt := rfl
@[simp] theorem setMode_off (m : Mode) (s : State) : (setMode m s).off = s.off := rfl
@[simp] theorem setMode_status (m : Mode) (s : State) : (setMode m s).status = s.status := rfl
@[simp] theorem setMode_count (m : Mode) (s : State) : (setMode m s).count = s.count := rfl
@[simp] theorem setMode_busy (m : Mode) (s : State) : (setMode m s).busy = s.busy := rfl
@[simp] theorem setMode_txf (m : Mode) (s : State) : (setMode m s).txf = s.txf := rfl
@[simp] theorem setMode_rxf (m : Mode) (s : State) : (setMode m s).rxf = s.rxf := rfl
@[simp] theorem setMode_ph (m : Mode) (s : State) : (setMode m s).ph = s.ph := rfl
@[simp] theorem setMode_crcacc (m : Mode) (s : State) : (setMode m s).crcacc = s.crcacc := rfl
@[simp] theorem setMode_hbuf (m : Mode) (s : State) : (setMode m s).hbuf = s.hbuf := rfl
@[simp] theorem setMode_host (m : Mode) (s : State) : (setMode m s).host = s.host := rfl
@[simp] theorem setMode_txq (m : Mode) (s : State) : (setMode m s).txq = s.txq := rfl
@[simp] theorem setMode_rxq (m : Mode) (s : State) : (setMode m s).rxq = s.rxq := rfl
@[simp] theorem setMode_draws (m : Mode) (s : State) : (setMode m s).draws = s.draws := rfl
@[simp] theorem setMode_trace (m : Mode) (s : State) : (setMode m s).trace = s.trace := rfl

/-! ### `setSeq` -/

@[simp] theorem setSeq_mode (q : Byte) (s : State) : (setSeq q s).mode = s.mode := rfl
@[simp] theorem setSeq_policy (q : Byte) (s : State) : (setSeq q s).policy = s.policy := rfl
@[simp] theorem setSeq_mtu (q : Byte) (s : State) : (setSeq q s).mtu = s.mtu := rfl
@[simp] theorem setSeq_reserve (q : Byte) (s : State) : (setSeq q s).reserve = s.reserve := rfl
@[simp] theorem setSeq_pMalformed (q : Byte) (s : State) : (setSeq q s).pMalformed = s.pMalformed := rfl
@[simp] theorem setSeq_seq (q : Byte) (s : State) : (setSeq q s).seq = q := rfl
@[simp] theorem setSeq_inseq (q : Byte) (s : State) : (setSeq q s).inseq = s.inseq := rfl
@[simp] theorem setSeq_rb (q : Byte) (s : State) : (setSeq q s).rb = s.rb := rfl
@[simp] theorem setSeq_cmd (q : Byte) (s : State) : (setSeq q s).cmd = s.cmd := rfl
@[simp] theorem setSeq_len (q : Byte) (s : State) : (setSeq q s).len = s.len := rfl
@[simp] theorem setSeq_tmo (q : Byte) (s : State) : (setSeq q s).tmo = s.tmo := rfl
@[simp] theorem setSeq_bufv (q : Byte) (s : State) : (setSeq q s).bufv = s.bufv := rfl
@[simp] theorem setSeq_elapsed (q : Byte) (s : State) : (setSeq q s).elapsed = s.elapsed := rfl
@[simp] theorem setSeq_attempt (q : Byte) (s : State) : (setSeq q s).attempt = s.attempt := rfl
@[simp] theorem setSeq_off (q : Byte) (s : State) : (setSeq q s).off = s.off := rfl
@[simp] theorem setSeq_status (q : Byte) (s : State) : (setSeq q s).status = s.status := rfl
@[simp] theorem setSeq_count (q : Byte) (s : State) : (setSeq q s).count = s.count := rfl
@[simp] theorem setSeq_busy (q : Byte) (s : State) : (setSeq q s).busy = s.busy := rfl
@[simp] theorem setSeq_txf (q : Byte) (s : State) : (setSeq q s).txf = s.txf := rfl
@[simp] theorem setSeq_rxf (q : Byte) (s : State) : (setSeq q s).rxf = s.rxf := rfl
@[simp] theorem setSeq_ph (q : Byte) (s : State) : (setSeq q s).ph = s.ph := rfl
@[simp] theorem setSeq_crcacc (q : Byte) (s : State) : (setSeq q s).crcacc = s.crcacc := rfl
@[simp] theorem setSeq_hbuf (q : Byte) (s : State) : (setSeq q s).hbuf = s.hbuf := rfl
@[simp] theorem setSeq_host (q : Byte) (s : State) : (setSeq q s).host = s.host := rfl
@[simp] theorem setSeq_txq (q : Byte) (s : State) : (setSeq q s).txq = s.txq := rfl
@[simp] theorem setSeq_rxq (q : Byte) (s : State) : (setSeq q s).rxq = s.rxq := rfl
@[simp] theorem setSeq_draws (q : Byte) (s : State) : (setSeq q s).draws = s.draws := rfl
@[simp] theorem setSeq_trace (q : Byte) (s : State) : (setSeq q s).trace = s.trace := rfl

/-! ### `setInseq` -/

@[simp] theorem setInseq_mode (b : Bool) (s : State) : (setInseq b s).mode = s.mode := rfl
@[simp] theorem setInseq_policy (b : Bool) (s : State) : (setInseq b s).policy = s.policy := rfl
@[simp] theorem setInseq_mtu (b : Bool) (s : State) : (setInseq b s).mtu = s.mtu := rfl
@[simp] theorem setInseq_reserve (b : Bool) (s : State) : (setInseq b s).reserve = s.reserve := rfl
@[simp] theorem setInseq_pMalformed (b : Bool) (s : State) : (setInseq b s).pMalformed = s.pMalformed := rfl
@[simp] theorem setInseq_seq (b : Bool) (s : State) : (setInseq b s).seq = s.seq := rfl
@[simp] theorem setInseq_inseq (b : Bool) (s : State) : (setInseq b s).inseq = b := rfl
@[simp] theorem setInseq_rb (b : Bool) (s : State) : (setInseq b s).rb = s.rb := rfl
@[simp] theorem setInseq_cmd (b : Bool) (s : State) : (setInseq b s).cmd = s.cmd := rfl
@[simp] theorem setInseq_len (b : Bool) (s : State) : (setInseq b s).len = s.len := rfl
@[simp] theorem setInseq_tmo (b : Bool) (s : State) : (setInseq b s).tmo = s.tmo := rfl
@[simp] theorem setInseq_bufv (b : Bool) (s : State) : (setInseq b s).bufv = s.bufv := rfl
@[simp] theorem setInseq_elapsed (b : Bool) (s : State) : (setInseq b s).elapsed = s.elapsed := rfl
@[simp] theorem setInseq_attempt (b : Bool) (s : State) : (setInseq b s).attempt = s.attempt := rfl
@[simp] theorem setInseq_off (b : Bool) (s : State) : (setInseq b s).off = s.off := rfl
@[simp] theorem setInseq_status (b : Bool) (s : State) : (setInseq b s).status = s.status := rfl
@[simp] theorem setInseq_count (b : Bool) (s : State) : (setInseq b s).count = s.count := rfl
@[simp] theorem setInseq_busy (b : Bool) (s : State) : (setInseq b s).busy = s.busy := rfl
@[simp] theorem setInseq_txf (b : Bool) (s : State) : (setInseq b s).txf = s.txf := rfl
@[simp] theorem setInseq_rxf (b : Bool) (s : State) : (setInseq b s).rxf = s.rxf := rfl
@[simp] theorem setInseq_ph (b : Bool) (s : State) : (setInseq b s).ph = s.ph := rfl
@[simp] theorem setInseq_crcacc (b : Bool) (s : State) : (setInseq b s).crcacc = s.crcacc := rfl
@[simp] theorem setInseq_hbuf (b : Bool) (s : State) : (setInseq b s).hbuf = s.hbuf := rfl
@[simp] theorem setInseq_host (b : Bool) (s : State) : (setInseq b s).host = s.host := rfl
@[simp] theorem setInseq_txq (b : Bool) (s : State) : (setInseq b s).txq = s.txq := rfl
@[simp] theorem setInseq_rxq (b : Bool) (s : State) : (setInseq b s).rxq = s.rxq := rfl
@[simp] theorem setInseq_draws (b : Bool) (s : State) : (setInseq b s).draws = s.draws := rfl
@[simp] theorem setInseq_trace (b : Bool) (s : State) : (setInseq b s).trace = s.trace := rfl

/-! ### `setAttempt` -/

@[simp] theorem setAttempt_mode (n : BitVec 3) (s : State) : (setAttempt n s).mode = s.mode := rfl
@[simp] theorem setAttempt_policy (n : BitVec 3) (s : State) : (setAttempt n s).policy = s.policy := rfl
@[simp] theorem setAttempt_mtu (n : BitVec 3) (s : State) : (setAttempt n s).mtu = s.mtu := rfl
@[simp] theorem setAttempt_reserve (n : BitVec 3) (s : State) : (setAttempt n s).reserve = s.reserve := rfl
@[simp] theorem setAttempt_pMalformed (n : BitVec 3) (s : State) : (setAttempt n s).pMalformed = s.pMalformed := rfl
@[simp] theorem setAttempt_seq (n : BitVec 3) (s : State) : (setAttempt n s).seq = s.seq := rfl
@[simp] theorem setAttempt_inseq (n : BitVec 3) (s : State) : (setAttempt n s).inseq = s.inseq := rfl
@[simp] theorem setAttempt_rb (n : BitVec 3) (s : State) : (setAttempt n s).rb = s.rb := rfl
@[simp] theorem setAttempt_cmd (n : BitVec 3) (s : State) : (setAttempt n s).cmd = s.cmd := rfl
@[simp] theorem setAttempt_len (n : BitVec 3) (s : State) : (setAttempt n s).len = s.len := rfl
@[simp] theorem setAttempt_tmo (n : BitVec 3) (s : State) : (setAttempt n s).tmo = s.tmo := rfl
@[simp] theorem setAttempt_bufv (n : BitVec 3) (s : State) : (setAttempt n s).bufv = s.bufv := rfl
@[simp] theorem setAttempt_elapsed (n : BitVec 3) (s : State) : (setAttempt n s).elapsed = s.elapsed := rfl
@[simp] theorem setAttempt_attempt (n : BitVec 3) (s : State) : (setAttempt n s).attempt = n := rfl
@[simp] theorem setAttempt_off (n : BitVec 3) (s : State) : (setAttempt n s).off = s.off := rfl
@[simp] theorem setAttempt_status (n : BitVec 3) (s : State) : (setAttempt n s).status = s.status := rfl
@[simp] theorem setAttempt_count (n : BitVec 3) (s : State) : (setAttempt n s).count = s.count := rfl
@[simp] theorem setAttempt_busy (n : BitVec 3) (s : State) : (setAttempt n s).busy = s.busy := rfl
@[simp] theorem setAttempt_txf (n : BitVec 3) (s : State) : (setAttempt n s).txf = s.txf := rfl
@[simp] theorem setAttempt_rxf (n : BitVec 3) (s : State) : (setAttempt n s).rxf = s.rxf := rfl
@[simp] theorem setAttempt_ph (n : BitVec 3) (s : State) : (setAttempt n s).ph = s.ph := rfl
@[simp] theorem setAttempt_crcacc (n : BitVec 3) (s : State) : (setAttempt n s).crcacc = s.crcacc := rfl
@[simp] theorem setAttempt_hbuf (n : BitVec 3) (s : State) : (setAttempt n s).hbuf = s.hbuf := rfl
@[simp] theorem setAttempt_host (n : BitVec 3) (s : State) : (setAttempt n s).host = s.host := rfl
@[simp] theorem setAttempt_txq (n : BitVec 3) (s : State) : (setAttempt n s).txq = s.txq := rfl
@[simp] theorem setAttempt_rxq (n : BitVec 3) (s : State) : (setAttempt n s).rxq = s.rxq := rfl
@[simp] theorem setAttempt_draws (n : BitVec 3) (s : State) : (setAttempt n s).draws = s.draws := rfl
@[simp] theorem setAttempt_trace (n : BitVec 3) (s : State) : (setAttempt n s).trace = s.trace := rfl

/-! ### `setOff` -/

@[simp] theorem setOff_mode (o : Word) (s : State) : (setOff o s).mode = s.mode := rfl
@[simp] theorem setOff_policy (o : Word) (s : State) : (setOff o s).policy = s.policy := rfl
@[simp] theorem setOff_mtu (o : Word) (s : State) : (setOff o s).mtu = s.mtu := rfl
@[simp] theorem setOff_reserve (o : Word) (s : State) : (setOff o s).reserve = s.reserve := rfl
@[simp] theorem setOff_pMalformed (o : Word) (s : State) : (setOff o s).pMalformed = s.pMalformed := rfl
@[simp] theorem setOff_seq (o : Word) (s : State) : (setOff o s).seq = s.seq := rfl
@[simp] theorem setOff_inseq (o : Word) (s : State) : (setOff o s).inseq = s.inseq := rfl
@[simp] theorem setOff_rb (o : Word) (s : State) : (setOff o s).rb = s.rb := rfl
@[simp] theorem setOff_cmd (o : Word) (s : State) : (setOff o s).cmd = s.cmd := rfl
@[simp] theorem setOff_len (o : Word) (s : State) : (setOff o s).len = s.len := rfl
@[simp] theorem setOff_tmo (o : Word) (s : State) : (setOff o s).tmo = s.tmo := rfl
@[simp] theorem setOff_bufv (o : Word) (s : State) : (setOff o s).bufv = s.bufv := rfl
@[simp] theorem setOff_elapsed (o : Word) (s : State) : (setOff o s).elapsed = s.elapsed := rfl
@[simp] theorem setOff_attempt (o : Word) (s : State) : (setOff o s).attempt = s.attempt := rfl
@[simp] theorem setOff_off (o : Word) (s : State) : (setOff o s).off = o := rfl
@[simp] theorem setOff_status (o : Word) (s : State) : (setOff o s).status = s.status := rfl
@[simp] theorem setOff_count (o : Word) (s : State) : (setOff o s).count = s.count := rfl
@[simp] theorem setOff_busy (o : Word) (s : State) : (setOff o s).busy = s.busy := rfl
@[simp] theorem setOff_txf (o : Word) (s : State) : (setOff o s).txf = s.txf := rfl
@[simp] theorem setOff_rxf (o : Word) (s : State) : (setOff o s).rxf = s.rxf := rfl
@[simp] theorem setOff_ph (o : Word) (s : State) : (setOff o s).ph = s.ph := rfl
@[simp] theorem setOff_crcacc (o : Word) (s : State) : (setOff o s).crcacc = s.crcacc := rfl
@[simp] theorem setOff_hbuf (o : Word) (s : State) : (setOff o s).hbuf = s.hbuf := rfl
@[simp] theorem setOff_host (o : Word) (s : State) : (setOff o s).host = s.host := rfl
@[simp] theorem setOff_txq (o : Word) (s : State) : (setOff o s).txq = s.txq := rfl
@[simp] theorem setOff_rxq (o : Word) (s : State) : (setOff o s).rxq = s.rxq := rfl
@[simp] theorem setOff_draws (o : Word) (s : State) : (setOff o s).draws = s.draws := rfl
@[simp] theorem setOff_trace (o : Word) (s : State) : (setOff o s).trace = s.trace := rfl

/-! ### `setPhase` -/

@[simp] theorem setPhase_mode (p : Phase) (s : State) : (setPhase p s).mode = s.mode := rfl
@[simp] theorem setPhase_policy (p : Phase) (s : State) : (setPhase p s).policy = s.policy := rfl
@[simp] theorem setPhase_mtu (p : Phase) (s : State) : (setPhase p s).mtu = s.mtu := rfl
@[simp] theorem setPhase_reserve (p : Phase) (s : State) : (setPhase p s).reserve = s.reserve := rfl
@[simp] theorem setPhase_pMalformed (p : Phase) (s : State) : (setPhase p s).pMalformed = s.pMalformed := rfl
@[simp] theorem setPhase_seq (p : Phase) (s : State) : (setPhase p s).seq = s.seq := rfl
@[simp] theorem setPhase_inseq (p : Phase) (s : State) : (setPhase p s).inseq = s.inseq := rfl
@[simp] theorem setPhase_rb (p : Phase) (s : State) : (setPhase p s).rb = s.rb := rfl
@[simp] theorem setPhase_cmd (p : Phase) (s : State) : (setPhase p s).cmd = s.cmd := rfl
@[simp] theorem setPhase_len (p : Phase) (s : State) : (setPhase p s).len = s.len := rfl
@[simp] theorem setPhase_tmo (p : Phase) (s : State) : (setPhase p s).tmo = s.tmo := rfl
@[simp] theorem setPhase_bufv (p : Phase) (s : State) : (setPhase p s).bufv = s.bufv := rfl
@[simp] theorem setPhase_elapsed (p : Phase) (s : State) : (setPhase p s).elapsed = s.elapsed := rfl
@[simp] theorem setPhase_attempt (p : Phase) (s : State) : (setPhase p s).attempt = s.attempt := rfl
@[simp] theorem setPhase_off (p : Phase) (s : State) : (setPhase p s).off = s.off := rfl
@[simp] theorem setPhase_status (p : Phase) (s : State) : (setPhase p s).status = s.status := rfl
@[simp] theorem setPhase_count (p : Phase) (s : State) : (setPhase p s).count = s.count := rfl
@[simp] theorem setPhase_busy (p : Phase) (s : State) : (setPhase p s).busy = s.busy := rfl
@[simp] theorem setPhase_txf (p : Phase) (s : State) : (setPhase p s).txf = s.txf := rfl
@[simp] theorem setPhase_rxf (p : Phase) (s : State) : (setPhase p s).rxf = s.rxf := rfl
@[simp] theorem setPhase_ph (p : Phase) (s : State) : (setPhase p s).ph = p := rfl
@[simp] theorem setPhase_crcacc (p : Phase) (s : State) : (setPhase p s).crcacc = s.crcacc := rfl
@[simp] theorem setPhase_hbuf (p : Phase) (s : State) : (setPhase p s).hbuf = s.hbuf := rfl
@[simp] theorem setPhase_host (p : Phase) (s : State) : (setPhase p s).host = s.host := rfl
@[simp] theorem setPhase_txq (p : Phase) (s : State) : (setPhase p s).txq = s.txq := rfl
@[simp] theorem setPhase_rxq (p : Phase) (s : State) : (setPhase p s).rxq = s.rxq := rfl
@[simp] theorem setPhase_draws (p : Phase) (s : State) : (setPhase p s).draws = s.draws := rfl
@[simp] theorem setPhase_trace (p : Phase) (s : State) : (setPhase p s).trace = s.trace := rfl

/-! ### `appendRb` -/

@[simp] theorem appendRb_mode (p : List Byte) (s : State) : (appendRb p s).mode = s.mode := rfl
@[simp] theorem appendRb_policy (p : List Byte) (s : State) : (appendRb p s).policy = s.policy := rfl
@[simp] theorem appendRb_mtu (p : List Byte) (s : State) : (appendRb p s).mtu = s.mtu := rfl
@[simp] theorem appendRb_reserve (p : List Byte) (s : State) : (appendRb p s).reserve = s.reserve := rfl
@[simp] theorem appendRb_pMalformed (p : List Byte) (s : State) : (appendRb p s).pMalformed = s.pMalformed := rfl
@[simp] theorem appendRb_seq (p : List Byte) (s : State) : (appendRb p s).seq = s.seq := rfl
@[simp] theorem appendRb_inseq (p : List Byte) (s : State) : (appendRb p s).inseq = s.inseq := rfl
@[simp] theorem appendRb_rb (p : List Byte) (s : State) : (appendRb p s).rb = (s.rb ++ p) := rfl
@[simp] theorem appendRb_cmd (p : List Byte) (s : State) : (appendRb p s).cmd = s.cmd := rfl
@[simp] theorem appendRb_len (p : List Byte) (s : State) : (appendRb p s).len = s.len := rfl
@[simp] theorem appendRb_tmo (p : List Byte) (s : State) : (appendRb p s).tmo = s.tmo := rfl
@[simp] theorem appendRb_bufv (p : List Byte) (s : State) : (appendRb p s).bufv = s.bufv := rfl
@[simp] theorem appendRb_elapsed (p : List Byte) (s : State) : (appendRb p s).elapsed = s.elapsed := rfl
@[simp] theorem appendRb_attempt (p : List Byte) (s : State) : (appendRb p s).attempt = s.attempt := rfl
@[simp] theorem appendRb_off (p : List Byte) (s : State) : (appendRb p s).off = s.off := rfl
@[simp] theorem appendRb_status (p : List Byte) (s : State) : (appendRb p s).status = s.status := rfl
@[simp] theorem appendRb_count (p : List Byte) (s : State) : (appendRb p s).count = s.count := rfl
@[simp] theorem appendRb_busy (p : List Byte) (s : State) : (appendRb p s).busy = s.busy := rfl
@[simp] theorem appendRb_txf (p : List Byte) (s : State) : (appendRb p s).txf = s.txf := rfl
@[simp] theorem appendRb_rxf (p : List Byte) (s : State) : (appendRb p s).rxf = s.rxf := rfl
@[simp] theorem appendRb_ph (p : List Byte) (s : State) : (appendRb p s).ph = s.ph := rfl
@[simp] theorem appendRb_crcacc (p : List Byte) (s : State) : (appendRb p s).crcacc = s.crcacc := rfl
@[simp] theorem appendRb_hbuf (p : List Byte) (s : State) : (appendRb p s).hbuf = s.hbuf := rfl
@[simp] theorem appendRb_host (p : List Byte) (s : State) : (appendRb p s).host = s.host := rfl
@[simp] theorem appendRb_txq (p : List Byte) (s : State) : (appendRb p s).txq = s.txq := rfl
@[simp] theorem appendRb_rxq (p : List Byte) (s : State) : (appendRb p s).rxq = s.rxq := rfl
@[simp] theorem appendRb_draws (p : List Byte) (s : State) : (appendRb p s).draws = s.draws := rfl
@[simp] theorem appendRb_trace (p : List Byte) (s : State) : (appendRb p s).trace = s.trace := rfl

/-! ### `copyOut` -/

@[simp] theorem copyOut_mode (s : State) : (copyOut s).mode = s.mode := rfl
@[simp] theorem copyOut_policy (s : State) : (copyOut s).policy = s.policy := rfl
@[simp] theorem copyOut_mtu (s : State) : (copyOut s).mtu = s.mtu := rfl
@[simp] theorem copyOut_reserve (s : State) : (copyOut s).reserve = s.reserve := rfl
@[simp] theorem copyOut_pMalformed (s : State) : (copyOut s).pMalformed = s.pMalformed := rfl
@[simp] theorem copyOut_seq (s : State) : (copyOut s).seq = s.seq := rfl
@[simp] theorem copyOut_inseq (s : State) : (copyOut s).inseq = s.inseq := rfl
@[simp] theorem copyOut_rb (s : State) : (copyOut s).rb = s.rb := rfl
@[simp] theorem copyOut_cmd (s : State) : (copyOut s).cmd = s.cmd := rfl
@[simp] theorem copyOut_len (s : State) : (copyOut s).len = s.len := rfl
@[simp] theorem copyOut_tmo (s : State) : (copyOut s).tmo = s.tmo := rfl
@[simp] theorem copyOut_bufv (s : State) : (copyOut s).bufv = s.bufv := rfl
@[simp] theorem copyOut_elapsed (s : State) : (copyOut s).elapsed = s.elapsed := rfl
@[simp] theorem copyOut_attempt (s : State) : (copyOut s).attempt = s.attempt := rfl
@[simp] theorem copyOut_off (s : State) : (copyOut s).off = s.off := rfl
@[simp] theorem copyOut_status (s : State) : (copyOut s).status = s.status := rfl
@[simp] theorem copyOut_count (s : State) : (copyOut s).count = s.count := rfl
@[simp] theorem copyOut_busy (s : State) : (copyOut s).busy = s.busy := rfl
@[simp] theorem copyOut_txf (s : State) : (copyOut s).txf = s.txf := rfl
@[simp] theorem copyOut_rxf (s : State) : (copyOut s).rxf = s.rxf := rfl
@[simp] theorem copyOut_ph (s : State) : (copyOut s).ph = s.ph := rfl
@[simp] theorem copyOut_crcacc (s : State) : (copyOut s).crcacc = s.crcacc := rfl
@[simp] theorem copyOut_hbuf (s : State) : (copyOut s).hbuf = (memWriteBytes s.hbuf 0 s.rb) := rfl
@[simp] theorem copyOut_host (s : State) : (copyOut s).host = s.host := rfl
@[simp] theorem copyOut_txq (s : State) : (copyOut s).txq = s.txq := rfl
@[simp] theorem copyOut_rxq (s : State) : (copyOut s).rxq = s.rxq := rfl
@[simp] theorem copyOut_draws (s : State) : (copyOut s).draws = s.draws := rfl
@[simp] theorem copyOut_trace (s : State) : (copyOut s).trace = s.trace := rfl

/-! ### `poke` -/

@[simp] theorem poke_mode (a : Word) (b : Byte) (s : State) : (poke a b s).mode = s.mode := rfl
@[simp] theorem poke_policy (a : Word) (b : Byte) (s : State) : (poke a b s).policy = s.policy := rfl
@[simp] theorem poke_mtu (a : Word) (b : Byte) (s : State) : (poke a b s).mtu = s.mtu := rfl
@[simp] theorem poke_reserve (a : Word) (b : Byte) (s : State) : (poke a b s).reserve = s.reserve := rfl
@[simp] theorem poke_pMalformed (a : Word) (b : Byte) (s : State) : (poke a b s).pMalformed = s.pMalformed := rfl
@[simp] theorem poke_seq (a : Word) (b : Byte) (s : State) : (poke a b s).seq = s.seq := rfl
@[simp] theorem poke_inseq (a : Word) (b : Byte) (s : State) : (poke a b s).inseq = s.inseq := rfl
@[simp] theorem poke_rb (a : Word) (b : Byte) (s : State) : (poke a b s).rb = s.rb := rfl
@[simp] theorem poke_cmd (a : Word) (b : Byte) (s : State) : (poke a b s).cmd = s.cmd := rfl
@[simp] theorem poke_len (a : Word) (b : Byte) (s : State) : (poke a b s).len = s.len := rfl
@[simp] theorem poke_tmo (a : Word) (b : Byte) (s : State) : (poke a b s).tmo = s.tmo := rfl
@[simp] theorem poke_bufv (a : Word) (b : Byte) (s : State) : (poke a b s).bufv = s.bufv := rfl
@[simp] theorem poke_elapsed (a : Word) (b : Byte) (s : State) : (poke a b s).elapsed = s.elapsed := rfl
@[simp] theorem poke_attempt (a : Word) (b : Byte) (s : State) : (poke a b s).attempt = s.attempt := rfl
@[simp] theorem poke_off (a : Word) (b : Byte) (s : State) : (poke a b s).off = s.off := rfl
@[simp] theorem poke_status (a : Word) (b : Byte) (s : State) : (poke a b s).status = s.status := rfl
@[simp] theorem poke_count (a : Word) (b : Byte) (s : State) : (poke a b s).count = s.count := rfl
@[simp] theorem poke_busy (a : Word) (b : Byte) (s : State) : (poke a b s).busy = s.busy := rfl
@[simp] theorem poke_txf (a : Word) (b : Byte) (s : State) : (poke a b s).txf = s.txf := rfl
@[simp] theorem poke_rxf (a : Word) (b : Byte) (s : State) : (poke a b s).rxf = s.rxf := rfl
@[simp] theorem poke_ph (a : Word) (b : Byte) (s : State) : (poke a b s).ph = s.ph := rfl
@[simp] theorem poke_crcacc (a : Word) (b : Byte) (s : State) : (poke a b s).crcacc = s.crcacc := rfl
@[simp] theorem poke_hbuf (a : Word) (b : Byte) (s : State) : (poke a b s).hbuf = (memWrite s.hbuf a.toNat b) := rfl
@[simp] theorem poke_host (a : Word) (b : Byte) (s : State) : (poke a b s).host = s.host := rfl
@[simp] theorem poke_txq (a : Word) (b : Byte) (s : State) : (poke a b s).txq = s.txq := rfl
@[simp] theorem poke_rxq (a : Word) (b : Byte) (s : State) : (poke a b s).rxq = s.rxq := rfl
@[simp] theorem poke_draws (a : Word) (b : Byte) (s : State) : (poke a b s).draws = s.draws := rfl
@[simp] theorem poke_trace (a : Word) (b : Byte) (s : State) : (poke a b s).trace = s.trace := rfl

/-! ### `setHost` -/

@[simp] theorem setHost_mode (ms : List HostMove) (s : State) : (setHost ms s).mode = s.mode := rfl
@[simp] theorem setHost_policy (ms : List HostMove) (s : State) : (setHost ms s).policy = s.policy := rfl
@[simp] theorem setHost_mtu (ms : List HostMove) (s : State) : (setHost ms s).mtu = s.mtu := rfl
@[simp] theorem setHost_reserve (ms : List HostMove) (s : State) : (setHost ms s).reserve = s.reserve := rfl
@[simp] theorem setHost_pMalformed (ms : List HostMove) (s : State) : (setHost ms s).pMalformed = s.pMalformed := rfl
@[simp] theorem setHost_seq (ms : List HostMove) (s : State) : (setHost ms s).seq = s.seq := rfl
@[simp] theorem setHost_inseq (ms : List HostMove) (s : State) : (setHost ms s).inseq = s.inseq := rfl
@[simp] theorem setHost_rb (ms : List HostMove) (s : State) : (setHost ms s).rb = s.rb := rfl
@[simp] theorem setHost_cmd (ms : List HostMove) (s : State) : (setHost ms s).cmd = s.cmd := rfl
@[simp] theorem setHost_len (ms : List HostMove) (s : State) : (setHost ms s).len = s.len := rfl
@[simp] theorem setHost_tmo (ms : List HostMove) (s : State) : (setHost ms s).tmo = s.tmo := rfl
@[simp] theorem setHost_bufv (ms : List HostMove) (s : State) : (setHost ms s).bufv = s.bufv := rfl
@[simp] theorem setHost_elapsed (ms : List HostMove) (s : State) : (setHost ms s).elapsed = s.elapsed := rfl
@[simp] theorem setHost_attempt (ms : List HostMove) (s : State) : (setHost ms s).attempt = s.attempt := rfl
@[simp] theorem setHost_off (ms : List HostMove) (s : State) : (setHost ms s).off = s.off := rfl
@[simp] theorem setHost_status (ms : List HostMove) (s : State) : (setHost ms s).status = s.status := rfl
@[simp] theorem setHost_count (ms : List HostMove) (s : State) : (setHost ms s).count = s.count := rfl
@[simp] theorem setHost_busy (ms : List HostMove) (s : State) : (setHost ms s).busy = s.busy := rfl
@[simp] theorem setHost_txf (ms : List HostMove) (s : State) : (setHost ms s).txf = s.txf := rfl
@[simp] theorem setHost_rxf (ms : List HostMove) (s : State) : (setHost ms s).rxf = s.rxf := rfl
@[simp] theorem setHost_ph (ms : List HostMove) (s : State) : (setHost ms s).ph = s.ph := rfl
@[simp] theorem setHost_crcacc (ms : List HostMove) (s : State) : (setHost ms s).crcacc = s.crcacc := rfl
@[simp] theorem setHost_hbuf (ms : List HostMove) (s : State) : (setHost ms s).hbuf = s.hbuf := rfl
@[simp] theorem setHost_host (ms : List HostMove) (s : State) : (setHost ms s).host = ms := rfl
@[simp] theorem setHost_txq (ms : List HostMove) (s : State) : (setHost ms s).txq = s.txq := rfl
@[simp] theorem setHost_rxq (ms : List HostMove) (s : State) : (setHost ms s).rxq = s.rxq := rfl
@[simp] theorem setHost_draws (ms : List HostMove) (s : State) : (setHost ms s).draws = s.draws := rfl
@[simp] theorem setHost_trace (ms : List HostMove) (s : State) : (setHost ms s).trace = s.trace := rfl

/-! ### `complete` -/

@[simp] theorem complete_mode (st : Byte) (n : Word) (s : State) : (complete st n s).mode = s.mode := rfl
@[simp] theorem complete_policy (st : Byte) (n : Word) (s : State) : (complete st n s).policy = s.policy := rfl
@[simp] theorem complete_mtu (st : Byte) (n : Word) (s : State) : (complete st n s).mtu = s.mtu := rfl
@[simp] theorem complete_reserve (st : Byte) (n : Word) (s : State) : (complete st n s).reserve = s.reserve := rfl
@[simp] theorem complete_pMalformed (st : Byte) (n : Word) (s : State) : (complete st n s).pMalformed = s.pMalformed := rfl
@[simp] theorem complete_seq (st : Byte) (n : Word) (s : State) : (complete st n s).seq = s.seq := rfl
@[simp] theorem complete_inseq (st : Byte) (n : Word) (s : State) : (complete st n s).inseq = s.inseq := rfl
@[simp] theorem complete_rb (st : Byte) (n : Word) (s : State) : (complete st n s).rb = s.rb := rfl
@[simp] theorem complete_cmd (st : Byte) (n : Word) (s : State) : (complete st n s).cmd = s.cmd := rfl
@[simp] theorem complete_len (st : Byte) (n : Word) (s : State) : (complete st n s).len = s.len := rfl
@[simp] theorem complete_tmo (st : Byte) (n : Word) (s : State) : (complete st n s).tmo = s.tmo := rfl
@[simp] theorem complete_bufv (st : Byte) (n : Word) (s : State) : (complete st n s).bufv = s.bufv := rfl
@[simp] theorem complete_elapsed (st : Byte) (n : Word) (s : State) : (complete st n s).elapsed = s.elapsed := rfl
@[simp] theorem complete_attempt (st : Byte) (n : Word) (s : State) : (complete st n s).attempt = s.attempt := rfl
@[simp] theorem complete_off (st : Byte) (n : Word) (s : State) : (complete st n s).off = s.off := rfl
@[simp] theorem complete_status (st : Byte) (n : Word) (s : State) : (complete st n s).status = st := rfl
@[simp] theorem complete_count (st : Byte) (n : Word) (s : State) : (complete st n s).count = n := rfl
@[simp] theorem complete_busy (st : Byte) (n : Word) (s : State) : (complete st n s).busy = false := rfl
@[simp] theorem complete_txf (st : Byte) (n : Word) (s : State) : (complete st n s).txf = s.txf := rfl
@[simp] theorem complete_rxf (st : Byte) (n : Word) (s : State) : (complete st n s).rxf = s.rxf := rfl
@[simp] theorem complete_ph (st : Byte) (n : Word) (s : State) : (complete st n s).ph = .idle := rfl
@[simp] theorem complete_crcacc (st : Byte) (n : Word) (s : State) : (complete st n s).crcacc = s.crcacc := rfl
@[simp] theorem complete_hbuf (st : Byte) (n : Word) (s : State) : (complete st n s).hbuf = s.hbuf := rfl
@[simp] theorem complete_host (st : Byte) (n : Word) (s : State) : (complete st n s).host = s.host := rfl
@[simp] theorem complete_txq (st : Byte) (n : Word) (s : State) : (complete st n s).txq = s.txq := rfl
@[simp] theorem complete_rxq (st : Byte) (n : Word) (s : State) : (complete st n s).rxq = s.rxq := rfl
@[simp] theorem complete_draws (st : Byte) (n : Word) (s : State) : (complete st n s).draws = s.draws := rfl
@[simp] theorem complete_trace (st : Byte) (n : Word) (s : State) : (complete st n s).trace = s.trace := rfl

/-! ### `raiseError` -/

@[simp] theorem raiseError_mode (e : ErrorKind) (s : State) : (raiseError e s).mode = s.mode := rfl
@[simp] theorem raiseError_policy (e : ErrorKind) (s : State) : (raiseError e s).policy = s.policy := rfl
@[simp] theorem raiseError_mtu (e : ErrorKind) (s : State) : (raiseError e s).mtu = s.mtu := rfl
@[simp] theorem raiseError_reserve (e : ErrorKind) (s : State) : (raiseError e s).reserve = s.reserve := rfl
@[simp] theorem raiseError_pMalformed (e : ErrorKind) (s : State) : (raiseError e s).pMalformed = s.pMalformed := rfl
@[simp] theorem raiseError_seq (e : ErrorKind) (s : State) : (raiseError e s).seq = s.seq := rfl
@[simp] theorem raiseError_inseq (e : ErrorKind) (s : State) : (raiseError e s).inseq = s.inseq := rfl
@[simp] theorem raiseError_rb (e : ErrorKind) (s : State) : (raiseError e s).rb = s.rb := rfl
@[simp] theorem raiseError_cmd (e : ErrorKind) (s : State) : (raiseError e s).cmd = s.cmd := rfl
@[simp] theorem raiseError_len (e : ErrorKind) (s : State) : (raiseError e s).len = s.len := rfl
@[simp] theorem raiseError_tmo (e : ErrorKind) (s : State) : (raiseError e s).tmo = s.tmo := rfl
@[simp] theorem raiseError_bufv (e : ErrorKind) (s : State) : (raiseError e s).bufv = s.bufv := rfl
@[simp] theorem raiseError_elapsed (e : ErrorKind) (s : State) : (raiseError e s).elapsed = s.elapsed := rfl
@[simp] theorem raiseError_attempt (e : ErrorKind) (s : State) : (raiseError e s).attempt = s.attempt := rfl
@[simp] theorem raiseError_off (e : ErrorKind) (s : State) : (raiseError e s).off = s.off := rfl
@[simp] theorem raiseError_status (e : ErrorKind) (s : State) : (raiseError e s).status = (errorCode e) := rfl
@[simp] theorem raiseError_count (e : ErrorKind) (s : State) : (raiseError e s).count = 0 := rfl
@[simp] theorem raiseError_busy (e : ErrorKind) (s : State) : (raiseError e s).busy = false := rfl
@[simp] theorem raiseError_txf (e : ErrorKind) (s : State) : (raiseError e s).txf = s.txf := rfl
@[simp] theorem raiseError_rxf (e : ErrorKind) (s : State) : (raiseError e s).rxf = s.rxf := rfl
@[simp] theorem raiseError_ph (e : ErrorKind) (s : State) : (raiseError e s).ph = .idle := rfl
@[simp] theorem raiseError_crcacc (e : ErrorKind) (s : State) : (raiseError e s).crcacc = s.crcacc := rfl
@[simp] theorem raiseError_hbuf (e : ErrorKind) (s : State) : (raiseError e s).hbuf = s.hbuf := rfl
@[simp] theorem raiseError_host (e : ErrorKind) (s : State) : (raiseError e s).host = s.host := rfl
@[simp] theorem raiseError_txq (e : ErrorKind) (s : State) : (raiseError e s).txq = s.txq := rfl
@[simp] theorem raiseError_rxq (e : ErrorKind) (s : State) : (raiseError e s).rxq = s.rxq := rfl
@[simp] theorem raiseError_draws (e : ErrorKind) (s : State) : (raiseError e s).draws = s.draws := rfl
@[simp] theorem raiseError_trace (e : ErrorKind) (s : State) : (raiseError e s).trace = s.trace := rfl

/-! ### `resetExchange` -/

@[simp] theorem resetExchange_mode (s : State) : (resetExchange s).mode = s.mode := rfl
@[simp] theorem resetExchange_policy (s : State) : (resetExchange s).policy = s.policy := rfl
@[simp] theorem resetExchange_mtu (s : State) : (resetExchange s).mtu = s.mtu := rfl
@[simp] theorem resetExchange_reserve (s : State) : (resetExchange s).reserve = s.reserve := rfl
@[simp] theorem resetExchange_pMalformed (s : State) : (resetExchange s).pMalformed = s.pMalformed := rfl
@[simp] theorem resetExchange_seq (s : State) : (resetExchange s).seq = 0 := rfl
@[simp] theorem resetExchange_inseq (s : State) : (resetExchange s).inseq = false := rfl
@[simp] theorem resetExchange_rb (s : State) : (resetExchange s).rb = [] := rfl
@[simp] theorem resetExchange_cmd (s : State) : (resetExchange s).cmd = s.cmd := rfl
@[simp] theorem resetExchange_len (s : State) : (resetExchange s).len = s.len := rfl
@[simp] theorem resetExchange_tmo (s : State) : (resetExchange s).tmo = s.tmo := rfl
@[simp] theorem resetExchange_bufv (s : State) : (resetExchange s).bufv = s.bufv := rfl
@[simp] theorem resetExchange_elapsed (s : State) : (resetExchange s).elapsed = s.elapsed := rfl
@[simp] theorem resetExchange_attempt (s : State) : (resetExchange s).attempt = s.attempt := rfl
@[simp] theorem resetExchange_off (s : State) : (resetExchange s).off = s.off := rfl
@[simp] theorem resetExchange_status (s : State) : (resetExchange s).status = s.status := rfl
@[simp] theorem resetExchange_count (s : State) : (resetExchange s).count = s.count := rfl
@[simp] theorem resetExchange_busy (s : State) : (resetExchange s).busy = s.busy := rfl
@[simp] theorem resetExchange_txf (s : State) : (resetExchange s).txf = s.txf := rfl
@[simp] theorem resetExchange_rxf (s : State) : (resetExchange s).rxf = s.rxf := rfl
@[simp] theorem resetExchange_ph (s : State) : (resetExchange s).ph = s.ph := rfl
@[simp] theorem resetExchange_crcacc (s : State) : (resetExchange s).crcacc = s.crcacc := rfl
@[simp] theorem resetExchange_hbuf (s : State) : (resetExchange s).hbuf = s.hbuf := rfl
@[simp] theorem resetExchange_host (s : State) : (resetExchange s).host = s.host := rfl
@[simp] theorem resetExchange_txq (s : State) : (resetExchange s).txq = s.txq := rfl
@[simp] theorem resetExchange_rxq (s : State) : (resetExchange s).rxq = s.rxq := rfl
@[simp] theorem resetExchange_draws (s : State) : (resetExchange s).draws = s.draws := rfl
@[simp] theorem resetExchange_trace (s : State) : (resetExchange s).trace = s.trace := rfl

/-! ### `latch` -/

@[simp] theorem latch_mode (c : Byte) (l t : Word) (v : Bool) (s : State) : (latch c l t v s).mode = s.mode := rfl
@[simp] theorem latch_policy (c : Byte) (l t : Word) (v : Bool) (s : State) : (latch c l t v s).policy = s.policy := rfl
@[simp] theorem latch_mtu (c : Byte) (l t : Word) (v : Bool) (s : State) : (latch c l t v s).mtu = s.mtu := rfl
@[simp] theorem latch_reserve (c : Byte) (l t : Word) (v : Bool) (s : State) : (latch c l t v s).reserve = s.reserve := rfl
@[simp] theorem latch_pMalformed (c : Byte) (l t : Word) (v : Bool) (s : State) : (latch c l t v s).pMalformed = s.pMalformed := rfl
@[simp] theorem latch_seq (c : Byte) (l t : Word) (v : Bool) (s : State) : (latch c l t v s).seq = s.seq := rfl
@[simp] theorem latch_inseq (c : Byte) (l t : Word) (v : Bool) (s : State) : (latch c l t v s).inseq = s.inseq := rfl
@[simp] theorem latch_rb (c : Byte) (l t : Word) (v : Bool) (s : State) : (latch c l t v s).rb = s.rb := rfl
@[simp] theorem latch_cmd (c : Byte) (l t : Word) (v : Bool) (s : State) : (latch c l t v s).cmd = c := rfl
@[simp] theorem latch_len (c : Byte) (l t : Word) (v : Bool) (s : State) : (latch c l t v s).len = l := rfl
@[simp] theorem latch_tmo (c : Byte) (l t : Word) (v : Bool) (s : State) : (latch c l t v s).tmo = t := rfl
@[simp] theorem latch_bufv (c : Byte) (l t : Word) (v : Bool) (s : State) : (latch c l t v s).bufv = v := rfl
@[simp] theorem latch_elapsed (c : Byte) (l t : Word) (v : Bool) (s : State) : (latch c l t v s).elapsed = 0 := rfl
@[simp] theorem latch_attempt (c : Byte) (l t : Word) (v : Bool) (s : State) : (latch c l t v s).attempt = s.attempt := rfl
@[simp] theorem latch_off (c : Byte) (l t : Word) (v : Bool) (s : State) : (latch c l t v s).off = s.off := rfl
@[simp] theorem latch_status (c : Byte) (l t : Word) (v : Bool) (s : State) : (latch c l t v s).status = s.status := rfl
@[simp] theorem latch_count (c : Byte) (l t : Word) (v : Bool) (s : State) : (latch c l t v s).count = s.count := rfl
@[simp] theorem latch_busy (c : Byte) (l t : Word) (v : Bool) (s : State) : (latch c l t v s).busy = true := rfl
@[simp] theorem latch_txf (c : Byte) (l t : Word) (v : Bool) (s : State) : (latch c l t v s).txf = s.txf := rfl
@[simp] theorem latch_rxf (c : Byte) (l t : Word) (v : Bool) (s : State) : (latch c l t v s).rxf = s.rxf := rfl
@[simp] theorem latch_ph (c : Byte) (l t : Word) (v : Bool) (s : State) : (latch c l t v s).ph = s.ph := rfl
@[simp] theorem latch_crcacc (c : Byte) (l t : Word) (v : Bool) (s : State) : (latch c l t v s).crcacc = s.crcacc := rfl
@[simp] theorem latch_hbuf (c : Byte) (l t : Word) (v : Bool) (s : State) : (latch c l t v s).hbuf = s.hbuf := rfl
@[simp] theorem latch_host (c : Byte) (l t : Word) (v : Bool) (s : State) : (latch c l t v s).host = s.host := rfl
@[simp] theorem latch_txq (c : Byte) (l t : Word) (v : Bool) (s : State) : (latch c l t v s).txq = s.txq := rfl
@[simp] theorem latch_rxq (c : Byte) (l t : Word) (v : Bool) (s : State) : (latch c l t v s).rxq = s.rxq := rfl
@[simp] theorem latch_draws (c : Byte) (l t : Word) (v : Bool) (s : State) : (latch c l t v s).draws = s.draws := rfl
@[simp] theorem latch_trace (c : Byte) (l t : Word) (v : Bool) (s : State) : (latch c l t v s).trace = s.trace := rfl

/-! ### `encCtrl` -/

@[simp] theorem encCtrl_mode (ty : Byte) (s : State) : (encCtrl ty s).mode = s.mode := rfl
@[simp] theorem encCtrl_policy (ty : Byte) (s : State) : (encCtrl ty s).policy = s.policy := rfl
@[simp] theorem encCtrl_mtu (ty : Byte) (s : State) : (encCtrl ty s).mtu = s.mtu := rfl
@[simp] theorem encCtrl_reserve (ty : Byte) (s : State) : (encCtrl ty s).reserve = s.reserve := rfl
@[simp] theorem encCtrl_pMalformed (ty : Byte) (s : State) : (encCtrl ty s).pMalformed = s.pMalformed := rfl
@[simp] theorem encCtrl_seq (ty : Byte) (s : State) : (encCtrl ty s).seq = s.seq := rfl
@[simp] theorem encCtrl_inseq (ty : Byte) (s : State) : (encCtrl ty s).inseq = s.inseq := rfl
@[simp] theorem encCtrl_rb (ty : Byte) (s : State) : (encCtrl ty s).rb = s.rb := rfl
@[simp] theorem encCtrl_cmd (ty : Byte) (s : State) : (encCtrl ty s).cmd = s.cmd := rfl
@[simp] theorem encCtrl_len (ty : Byte) (s : State) : (encCtrl ty s).len = s.len := rfl
@[simp] theorem encCtrl_tmo (ty : Byte) (s : State) : (encCtrl ty s).tmo = s.tmo := rfl
@[simp] theorem encCtrl_bufv (ty : Byte) (s : State) : (encCtrl ty s).bufv = s.bufv := rfl
@[simp] theorem encCtrl_elapsed (ty : Byte) (s : State) : (encCtrl ty s).elapsed = s.elapsed := rfl
@[simp] theorem encCtrl_attempt (ty : Byte) (s : State) : (encCtrl ty s).attempt = s.attempt := rfl
@[simp] theorem encCtrl_off (ty : Byte) (s : State) : (encCtrl ty s).off = s.off := rfl
@[simp] theorem encCtrl_status (ty : Byte) (s : State) : (encCtrl ty s).status = s.status := rfl
@[simp] theorem encCtrl_count (ty : Byte) (s : State) : (encCtrl ty s).count = s.count := rfl
@[simp] theorem encCtrl_busy (ty : Byte) (s : State) : (encCtrl ty s).busy = s.busy := rfl
@[simp] theorem encCtrl_txf (ty : Byte) (s : State) : (encCtrl ty s).txf = (ctrlFrame ty) := rfl
@[simp] theorem encCtrl_rxf (ty : Byte) (s : State) : (encCtrl ty s).rxf = s.rxf := rfl
@[simp] theorem encCtrl_ph (ty : Byte) (s : State) : (encCtrl ty s).ph = s.ph := rfl
@[simp] theorem encCtrl_crcacc (ty : Byte) (s : State) : (encCtrl ty s).crcacc = (crc7 [ty]) := rfl
@[simp] theorem encCtrl_hbuf (ty : Byte) (s : State) : (encCtrl ty s).hbuf = s.hbuf := rfl
@[simp] theorem encCtrl_host (ty : Byte) (s : State) : (encCtrl ty s).host = s.host := rfl
@[simp] theorem encCtrl_txq (ty : Byte) (s : State) : (encCtrl ty s).txq = s.txq := rfl
@[simp] theorem encCtrl_rxq (ty : Byte) (s : State) : (encCtrl ty s).rxq = s.rxq := rfl
@[simp] theorem encCtrl_draws (ty : Byte) (s : State) : (encCtrl ty s).draws = s.draws := rfl
@[simp] theorem encCtrl_trace (ty : Byte) (s : State) : (encCtrl ty s).trace = s.trace := rfl

/-! ### `encData` -/

@[simp] theorem encData_mode (q : Byte) (p : List Byte) (s : State) : (encData q p s).mode = s.mode := rfl
@[simp] theorem encData_policy (q : Byte) (p : List Byte) (s : State) : (encData q p s).policy = s.policy := rfl
@[simp] theorem encData_mtu (q : Byte) (p : List Byte) (s : State) : (encData q p s).mtu = s.mtu := rfl
@[simp] theorem encData_reserve (q : Byte) (p : List Byte) (s : State) : (encData q p s).reserve = s.reserve := rfl
@[simp] theorem encData_pMalformed (q : Byte) (p : List Byte) (s : State) : (encData q p s).pMalformed = s.pMalformed := rfl
@[simp] theorem encData_seq (q : Byte) (p : List Byte) (s : State) : (encData q p s).seq = s.seq := rfl
@[simp] theorem encData_inseq (q : Byte) (p : List Byte) (s : State) : (encData q p s).inseq = s.inseq := rfl
@[simp] theorem encData_rb (q : Byte) (p : List Byte) (s : State) : (encData q p s).rb = s.rb := rfl
@[simp] theorem encData_cmd (q : Byte) (p : List Byte) (s : State) : (encData q p s).cmd = s.cmd := rfl
@[simp] theorem encData_len (q : Byte) (p : List Byte) (s : State) : (encData q p s).len = s.len := rfl
@[simp] theorem encData_tmo (q : Byte) (p : List Byte) (s : State) : (encData q p s).tmo = s.tmo := rfl
@[simp] theorem encData_bufv (q : Byte) (p : List Byte) (s : State) : (encData q p s).bufv = s.bufv := rfl
@[simp] theorem encData_elapsed (q : Byte) (p : List Byte) (s : State) : (encData q p s).elapsed = s.elapsed := rfl
@[simp] theorem encData_attempt (q : Byte) (p : List Byte) (s : State) : (encData q p s).attempt = s.attempt := rfl
@[simp] theorem encData_off (q : Byte) (p : List Byte) (s : State) : (encData q p s).off = s.off := rfl
@[simp] theorem encData_status (q : Byte) (p : List Byte) (s : State) : (encData q p s).status = s.status := rfl
@[simp] theorem encData_count (q : Byte) (p : List Byte) (s : State) : (encData q p s).count = s.count := rfl
@[simp] theorem encData_busy (q : Byte) (p : List Byte) (s : State) : (encData q p s).busy = s.busy := rfl
@[simp] theorem encData_txf (q : Byte) (p : List Byte) (s : State) : (encData q p s).txf = (dataFrame q p) := rfl
@[simp] theorem encData_rxf (q : Byte) (p : List Byte) (s : State) : (encData q p s).rxf = s.rxf := rfl
@[simp] theorem encData_ph (q : Byte) (p : List Byte) (s : State) : (encData q p s).ph = s.ph := rfl
@[simp] theorem encData_crcacc (q : Byte) (p : List Byte) (s : State) : (encData q p s).crcacc = (crc7 (ftData :: q :: p)) := rfl
@[simp] theorem encData_hbuf (q : Byte) (p : List Byte) (s : State) : (encData q p s).hbuf = s.hbuf := rfl
@[simp] theorem encData_host (q : Byte) (p : List Byte) (s : State) : (encData q p s).host = s.host := rfl
@[simp] theorem encData_txq (q : Byte) (p : List Byte) (s : State) : (encData q p s).txq = s.txq := rfl
@[simp] theorem encData_rxq (q : Byte) (p : List Byte) (s : State) : (encData q p s).rxq = s.rxq := rfl
@[simp] theorem encData_draws (q : Byte) (p : List Byte) (s : State) : (encData q p s).draws = s.draws := rfl
@[simp] theorem encData_trace (q : Byte) (p : List Byte) (s : State) : (encData q p s).trace = s.trace := rfl

/-! ### `noteVerify` -/

@[simp] theorem noteVerify_mode (s : State) : (noteVerify s).mode = s.mode := rfl
@[simp] theorem noteVerify_policy (s : State) : (noteVerify s).policy = s.policy := rfl
@[simp] theorem noteVerify_mtu (s : State) : (noteVerify s).mtu = s.mtu := rfl
@[simp] theorem noteVerify_reserve (s : State) : (noteVerify s).reserve = s.reserve := rfl
@[simp] theorem noteVerify_pMalformed (s : State) : (noteVerify s).pMalformed = s.pMalformed := rfl
@[simp] theorem noteVerify_seq (s : State) : (noteVerify s).seq = s.seq := rfl
@[simp] theorem noteVerify_inseq (s : State) : (noteVerify s).inseq = s.inseq := rfl
@[simp] theorem noteVerify_rb (s : State) : (noteVerify s).rb = s.rb := rfl
@[simp] theorem noteVerify_cmd (s : State) : (noteVerify s).cmd = s.cmd := rfl
@[simp] theorem noteVerify_len (s : State) : (noteVerify s).len = s.len := rfl
@[simp] theorem noteVerify_tmo (s : State) : (noteVerify s).tmo = s.tmo := rfl
@[simp] theorem noteVerify_bufv (s : State) : (noteVerify s).bufv = s.bufv := rfl
@[simp] theorem noteVerify_elapsed (s : State) : (noteVerify s).elapsed = s.elapsed := rfl
@[simp] theorem noteVerify_attempt (s : State) : (noteVerify s).attempt = s.attempt := rfl
@[simp] theorem noteVerify_off (s : State) : (noteVerify s).off = s.off := rfl
@[simp] theorem noteVerify_status (s : State) : (noteVerify s).status = s.status := rfl
@[simp] theorem noteVerify_count (s : State) : (noteVerify s).count = s.count := rfl
@[simp] theorem noteVerify_busy (s : State) : (noteVerify s).busy = s.busy := rfl
@[simp] theorem noteVerify_txf (s : State) : (noteVerify s).txf = s.txf := rfl
@[simp] theorem noteVerify_rxf (s : State) : (noteVerify s).rxf = s.rxf := rfl
@[simp] theorem noteVerify_ph (s : State) : (noteVerify s).ph = s.ph := rfl
@[simp] theorem noteVerify_crcacc (s : State) : (noteVerify s).crcacc = (crc7 (frameBody s.rxf)) := rfl
@[simp] theorem noteVerify_hbuf (s : State) : (noteVerify s).hbuf = s.hbuf := rfl
@[simp] theorem noteVerify_host (s : State) : (noteVerify s).host = s.host := rfl
@[simp] theorem noteVerify_txq (s : State) : (noteVerify s).txq = s.txq := rfl
@[simp] theorem noteVerify_rxq (s : State) : (noteVerify s).rxq = s.rxq := rfl
@[simp] theorem noteVerify_draws (s : State) : (noteVerify s).draws = s.draws := rfl
@[simp] theorem noteVerify_trace (s : State) : (noteVerify s).trace = s.trace := rfl

/-! ### `storeRx` -/

@[simp] theorem storeRx_mode (b : List Byte) (s : State) : (storeRx b s).mode = s.mode := rfl
@[simp] theorem storeRx_policy (b : List Byte) (s : State) : (storeRx b s).policy = s.policy := rfl
@[simp] theorem storeRx_mtu (b : List Byte) (s : State) : (storeRx b s).mtu = s.mtu := rfl
@[simp] theorem storeRx_reserve (b : List Byte) (s : State) : (storeRx b s).reserve = s.reserve := rfl
@[simp] theorem storeRx_pMalformed (b : List Byte) (s : State) : (storeRx b s).pMalformed = s.pMalformed := rfl
@[simp] theorem storeRx_seq (b : List Byte) (s : State) : (storeRx b s).seq = s.seq := rfl
@[simp] theorem storeRx_inseq (b : List Byte) (s : State) : (storeRx b s).inseq = s.inseq := rfl
@[simp] theorem storeRx_rb (b : List Byte) (s : State) : (storeRx b s).rb = s.rb := rfl
@[simp] theorem storeRx_cmd (b : List Byte) (s : State) : (storeRx b s).cmd = s.cmd := rfl
@[simp] theorem storeRx_len (b : List Byte) (s : State) : (storeRx b s).len = s.len := rfl
@[simp] theorem storeRx_tmo (b : List Byte) (s : State) : (storeRx b s).tmo = s.tmo := rfl
@[simp] theorem storeRx_bufv (b : List Byte) (s : State) : (storeRx b s).bufv = s.bufv := rfl
@[simp] theorem storeRx_elapsed (b : List Byte) (s : State) : (storeRx b s).elapsed = s.elapsed := rfl
@[simp] theorem storeRx_attempt (b : List Byte) (s : State) : (storeRx b s).attempt = s.attempt := rfl
@[simp] theorem storeRx_off (b : List Byte) (s : State) : (storeRx b s).off = s.off := rfl
@[simp] theorem storeRx_status (b : List Byte) (s : State) : (storeRx b s).status = s.status := rfl
@[simp] theorem storeRx_count (b : List Byte) (s : State) : (storeRx b s).count = s.count := rfl
@[simp] theorem storeRx_busy (b : List Byte) (s : State) : (storeRx b s).busy = s.busy := rfl
@[simp] theorem storeRx_txf (b : List Byte) (s : State) : (storeRx b s).txf = s.txf := rfl
@[simp] theorem storeRx_rxf (b : List Byte) (s : State) : (storeRx b s).rxf = b := rfl
@[simp] theorem storeRx_ph (b : List Byte) (s : State) : (storeRx b s).ph = s.ph := rfl
@[simp] theorem storeRx_crcacc (b : List Byte) (s : State) : (storeRx b s).crcacc = s.crcacc := rfl
@[simp] theorem storeRx_hbuf (b : List Byte) (s : State) : (storeRx b s).hbuf = s.hbuf := rfl
@[simp] theorem storeRx_host (b : List Byte) (s : State) : (storeRx b s).host = s.host := rfl
@[simp] theorem storeRx_txq (b : List Byte) (s : State) : (storeRx b s).txq = s.txq := rfl
@[simp] theorem storeRx_rxq (b : List Byte) (s : State) : (storeRx b s).rxq = s.rxq := rfl
@[simp] theorem storeRx_draws (b : List Byte) (s : State) : (storeRx b s).draws = s.draws := rfl
@[simp] theorem storeRx_trace (b : List Byte) (s : State) : (storeRx b s).trace = s.trace := rfl

/-! ### `afterTx` -/

@[simp] theorem afterTx_mode (l : Word) (s : State) : (afterTx l s).mode = s.mode := rfl
@[simp] theorem afterTx_policy (l : Word) (s : State) : (afterTx l s).policy = s.policy := rfl
@[simp] theorem afterTx_mtu (l : Word) (s : State) : (afterTx l s).mtu = s.mtu := rfl
@[simp] theorem afterTx_reserve (l : Word) (s : State) : (afterTx l s).reserve = s.reserve := rfl
@[simp] theorem afterTx_pMalformed (l : Word) (s : State) : (afterTx l s).pMalformed = s.pMalformed := rfl
@[simp] theorem afterTx_seq (l : Word) (s : State) : (afterTx l s).seq = s.seq := rfl
@[simp] theorem afterTx_inseq (l : Word) (s : State) : (afterTx l s).inseq = s.inseq := rfl
@[simp] theorem afterTx_rb (l : Word) (s : State) : (afterTx l s).rb = s.rb := rfl
@[simp] theorem afterTx_cmd (l : Word) (s : State) : (afterTx l s).cmd = s.cmd := rfl
@[simp] theorem afterTx_len (l : Word) (s : State) : (afterTx l s).len = s.len := rfl
@[simp] theorem afterTx_tmo (l : Word) (s : State) : (afterTx l s).tmo = s.tmo := rfl
@[simp] theorem afterTx_bufv (l : Word) (s : State) : (afterTx l s).bufv = s.bufv := rfl
@[simp] theorem afterTx_elapsed (l : Word) (s : State) : (afterTx l s).elapsed = (charge s.elapsed (txAnswer s).dt) := rfl
@[simp] theorem afterTx_attempt (l : Word) (s : State) : (afterTx l s).attempt = s.attempt := rfl
@[simp] theorem afterTx_off (l : Word) (s : State) : (afterTx l s).off = s.off := rfl
@[simp] theorem afterTx_status (l : Word) (s : State) : (afterTx l s).status = s.status := rfl
@[simp] theorem afterTx_count (l : Word) (s : State) : (afterTx l s).count = s.count := rfl
@[simp] theorem afterTx_busy (l : Word) (s : State) : (afterTx l s).busy = s.busy := rfl
@[simp] theorem afterTx_txf (l : Word) (s : State) : (afterTx l s).txf = s.txf := rfl
@[simp] theorem afterTx_rxf (l : Word) (s : State) : (afterTx l s).rxf = s.rxf := rfl
@[simp] theorem afterTx_ph (l : Word) (s : State) : (afterTx l s).ph = s.ph := rfl
@[simp] theorem afterTx_crcacc (l : Word) (s : State) : (afterTx l s).crcacc = s.crcacc := rfl
@[simp] theorem afterTx_hbuf (l : Word) (s : State) : (afterTx l s).hbuf = s.hbuf := rfl
@[simp] theorem afterTx_host (l : Word) (s : State) : (afterTx l s).host = s.host := rfl
@[simp] theorem afterTx_txq (l : Word) (s : State) : (afterTx l s).txq = s.txq.tail := rfl
@[simp] theorem afterTx_rxq (l : Word) (s : State) : (afterTx l s).rxq = s.rxq := rfl
@[simp] theorem afterTx_draws (l : Word) (s : State) : (afterTx l s).draws = (if s.txq = [] then s.draws + 1 else s.draws) := rfl
@[simp] theorem afterTx_trace (l : Word) (s : State) : (afterTx l s).trace = (.tx s.txf l (txOutcome s) (txAnswer s).dt :: s.trace) := rfl

/-! ### `afterRx` -/

@[simp] theorem afterRx_mode (l : Word) (s : State) : (afterRx l s).mode = s.mode := rfl
@[simp] theorem afterRx_policy (l : Word) (s : State) : (afterRx l s).policy = s.policy := rfl
@[simp] theorem afterRx_mtu (l : Word) (s : State) : (afterRx l s).mtu = s.mtu := rfl
@[simp] theorem afterRx_reserve (l : Word) (s : State) : (afterRx l s).reserve = s.reserve := rfl
@[simp] theorem afterRx_pMalformed (l : Word) (s : State) : (afterRx l s).pMalformed = s.pMalformed := rfl
@[simp] theorem afterRx_seq (l : Word) (s : State) : (afterRx l s).seq = s.seq := rfl
@[simp] theorem afterRx_inseq (l : Word) (s : State) : (afterRx l s).inseq = s.inseq := rfl
@[simp] theorem afterRx_rb (l : Word) (s : State) : (afterRx l s).rb = s.rb := rfl
@[simp] theorem afterRx_cmd (l : Word) (s : State) : (afterRx l s).cmd = s.cmd := rfl
@[simp] theorem afterRx_len (l : Word) (s : State) : (afterRx l s).len = s.len := rfl
@[simp] theorem afterRx_tmo (l : Word) (s : State) : (afterRx l s).tmo = s.tmo := rfl
@[simp] theorem afterRx_bufv (l : Word) (s : State) : (afterRx l s).bufv = s.bufv := rfl
@[simp] theorem afterRx_elapsed (l : Word) (s : State) : (afterRx l s).elapsed = (charge s.elapsed (rxAnswer s).dt) := rfl
@[simp] theorem afterRx_attempt (l : Word) (s : State) : (afterRx l s).attempt = s.attempt := rfl
@[simp] theorem afterRx_off (l : Word) (s : State) : (afterRx l s).off = s.off := rfl
@[simp] theorem afterRx_status (l : Word) (s : State) : (afterRx l s).status = s.status := rfl
@[simp] theorem afterRx_count (l : Word) (s : State) : (afterRx l s).count = s.count := rfl
@[simp] theorem afterRx_busy (l : Word) (s : State) : (afterRx l s).busy = s.busy := rfl
@[simp] theorem afterRx_txf (l : Word) (s : State) : (afterRx l s).txf = s.txf := rfl
@[simp] theorem afterRx_rxf (l : Word) (s : State) : (afterRx l s).rxf = s.rxf := rfl
@[simp] theorem afterRx_ph (l : Word) (s : State) : (afterRx l s).ph = s.ph := rfl
@[simp] theorem afterRx_crcacc (l : Word) (s : State) : (afterRx l s).crcacc = s.crcacc := rfl
@[simp] theorem afterRx_hbuf (l : Word) (s : State) : (afterRx l s).hbuf = s.hbuf := rfl
@[simp] theorem afterRx_host (l : Word) (s : State) : (afterRx l s).host = s.host := rfl
@[simp] theorem afterRx_txq (l : Word) (s : State) : (afterRx l s).txq = s.txq := rfl
@[simp] theorem afterRx_rxq (l : Word) (s : State) : (afterRx l s).rxq = s.rxq.tail := rfl
@[simp] theorem afterRx_draws (l : Word) (s : State) : (afterRx l s).draws = (if s.rxq = [] then s.draws + 1 else s.draws) := rfl
@[simp] theorem afterRx_trace (l : Word) (s : State) : (afterRx l s).trace = (.rx (rxMax s) l (rxOutcome s) (rxAnswer s).dt :: s.trace) := rfl

/-! ### `resetEngine` -/

@[simp] theorem resetEngine_mode (c : Config) (s : State) : (resetEngine c s).mode = .undefined := rfl
@[simp] theorem resetEngine_policy (c : Config) (s : State) : (resetEngine c s).policy = c.policy0 := rfl
@[simp] theorem resetEngine_mtu (c : Config) (s : State) : (resetEngine c s).mtu = c.mtu := rfl
@[simp] theorem resetEngine_reserve (c : Config) (s : State) : (resetEngine c s).reserve = c.reserve := rfl
@[simp] theorem resetEngine_pMalformed (c : Config) (s : State) : (resetEngine c s).pMalformed = c.pMalformed := rfl
@[simp] theorem resetEngine_seq (c : Config) (s : State) : (resetEngine c s).seq = 0 := rfl
@[simp] theorem resetEngine_inseq (c : Config) (s : State) : (resetEngine c s).inseq = false := rfl
@[simp] theorem resetEngine_rb (c : Config) (s : State) : (resetEngine c s).rb = [] := rfl
@[simp] theorem resetEngine_cmd (c : Config) (s : State) : (resetEngine c s).cmd = 0 := rfl
@[simp] theorem resetEngine_len (c : Config) (s : State) : (resetEngine c s).len = 0 := rfl
@[simp] theorem resetEngine_tmo (c : Config) (s : State) : (resetEngine c s).tmo = 0 := rfl
@[simp] theorem resetEngine_bufv (c : Config) (s : State) : (resetEngine c s).bufv = false := rfl
@[simp] theorem resetEngine_elapsed (c : Config) (s : State) : (resetEngine c s).elapsed = 0 := rfl
@[simp] theorem resetEngine_attempt (c : Config) (s : State) : (resetEngine c s).attempt = 0 := rfl
@[simp] theorem resetEngine_off (c : Config) (s : State) : (resetEngine c s).off = 0 := rfl
@[simp] theorem resetEngine_status (c : Config) (s : State) : (resetEngine c s).status = 0 := rfl
@[simp] theorem resetEngine_count (c : Config) (s : State) : (resetEngine c s).count = 0 := rfl
@[simp] theorem resetEngine_busy (c : Config) (s : State) : (resetEngine c s).busy = false := rfl
@[simp] theorem resetEngine_txf (c : Config) (s : State) : (resetEngine c s).txf = [] := rfl
@[simp] theorem resetEngine_rxf (c : Config) (s : State) : (resetEngine c s).rxf = [] := rfl
@[simp] theorem resetEngine_ph (c : Config) (s : State) : (resetEngine c s).ph = .idle := rfl
@[simp] theorem resetEngine_crcacc (c : Config) (s : State) : (resetEngine c s).crcacc = 0 := rfl
@[simp] theorem resetEngine_hbuf (c : Config) (s : State) : (resetEngine c s).hbuf = s.hbuf := rfl
@[simp] theorem resetEngine_host (c : Config) (s : State) : (resetEngine c s).host = s.host := rfl
@[simp] theorem resetEngine_txq (c : Config) (s : State) : (resetEngine c s).txq = s.txq := rfl
@[simp] theorem resetEngine_rxq (c : Config) (s : State) : (resetEngine c s).rxq = s.rxq := rfl
@[simp] theorem resetEngine_draws (c : Config) (s : State) : (resetEngine c s).draws = s.draws := rfl
@[simp] theorem resetEngine_trace (c : Config) (s : State) : (resetEngine c s).trace = s.trace := rfl

/-! ### `Safety.replied` -/

@[simp] theorem replied_mode (ty : Byte) (s : State) : (Safety.replied ty s).mode = s.mode := rfl
@[simp] theorem replied_policy (ty : Byte) (s : State) : (Safety.replied ty s).policy = s.policy := rfl
@[simp] theorem replied_mtu (ty : Byte) (s : State) : (Safety.replied ty s).mtu = s.mtu := rfl
@[simp] theorem replied_reserve (ty : Byte) (s : State) : (Safety.replied ty s).reserve = s.reserve := rfl
@[simp] theorem replied_pMalformed (ty : Byte) (s : State) : (Safety.replied ty s).pMalformed = s.pMalformed := rfl
@[simp] theorem replied_seq (ty : Byte) (s : State) : (Safety.replied ty s).seq = s.seq := rfl
@[simp] theorem replied_inseq (ty : Byte) (s : State) : (Safety.replied ty s).inseq = s.inseq := rfl
@[simp] theorem replied_rb (ty : Byte) (s : State) : (Safety.replied ty s).rb = s.rb := rfl
@[simp] theorem replied_cmd (ty : Byte) (s : State) : (Safety.replied ty s).cmd = s.cmd := rfl
@[simp] theorem replied_len (ty : Byte) (s : State) : (Safety.replied ty s).len = s.len := rfl
@[simp] theorem replied_tmo (ty : Byte) (s : State) : (Safety.replied ty s).tmo = s.tmo := rfl
@[simp] theorem replied_bufv (ty : Byte) (s : State) : (Safety.replied ty s).bufv = s.bufv := rfl
@[simp] theorem replied_elapsed (ty : Byte) (s : State) : (Safety.replied ty s).elapsed = (charge s.elapsed (txAnswer s).dt) := rfl
@[simp] theorem replied_attempt (ty : Byte) (s : State) : (Safety.replied ty s).attempt = 1 := rfl
@[simp] theorem replied_off (ty : Byte) (s : State) : (Safety.replied ty s).off = s.off := rfl
@[simp] theorem replied_status (ty : Byte) (s : State) : (Safety.replied ty s).status = s.status := rfl
@[simp] theorem replied_count (ty : Byte) (s : State) : (Safety.replied ty s).count = s.count := rfl
@[simp] theorem replied_busy (ty : Byte) (s : State) : (Safety.replied ty s).busy = s.busy := rfl
@[simp] theorem replied_txf (ty : Byte) (s : State) : (Safety.replied ty s).txf = ([ty, crc7 [ty]]) := rfl
@[simp] theorem replied_rxf (ty : Byte) (s : State) : (Safety.replied ty s).rxf = s.rxf := rfl
@[simp] theorem replied_ph (ty : Byte) (s : State) : (Safety.replied ty s).ph = s.ph := rfl
@[simp] theorem replied_crcacc (ty : Byte) (s : State) : (Safety.replied ty s).crcacc = (crc7 [ty]) := rfl
@[simp] theorem replied_hbuf (ty : Byte) (s : State) : (Safety.replied ty s).hbuf = s.hbuf := rfl
@[simp] theorem replied_host (ty : Byte) (s : State) : (Safety.replied ty s).host = s.host := rfl
@[simp] theorem replied_txq (ty : Byte) (s : State) : (Safety.replied ty s).txq = s.txq.tail := rfl
@[simp] theorem replied_rxq (ty : Byte) (s : State) : (Safety.replied ty s).rxq = s.rxq := rfl
@[simp] theorem replied_draws (ty : Byte) (s : State) : (Safety.replied ty s).draws = (if s.txq = [] then s.draws + 1 else s.draws) := rfl
@[simp] theorem replied_trace (ty : Byte) (s : State) : (Safety.replied ty s).trace = (.tx [ty, crc7 [ty]] (bound tSub s) (.txOk 2) (txAnswer s).dt :: s.trace) := rfl

/-! ### `Safety.handedOver` -/

@[simp] theorem handedOver_mode (s : State) : (Safety.handedOver s).mode = s.mode := rfl
@[simp] theorem handedOver_policy (s : State) : (Safety.handedOver s).policy = s.policy := rfl
@[simp] theorem handedOver_mtu (s : State) : (Safety.handedOver s).mtu = s.mtu := rfl
@[simp] theorem handedOver_reserve (s : State) : (Safety.handedOver s).reserve = s.reserve := rfl
@[simp] theorem handedOver_pMalformed (s : State) : (Safety.handedOver s).pMalformed = s.pMalformed := rfl
@[simp] theorem handedOver_seq (s : State) : (Safety.handedOver s).seq = s.seq := rfl
@[simp] theorem handedOver_inseq (s : State) : (Safety.handedOver s).inseq = s.inseq := rfl
@[simp] theorem handedOver_rb (s : State) : (Safety.handedOver s).rb = s.rb := rfl
@[simp] theorem handedOver_cmd (s : State) : (Safety.handedOver s).cmd = s.cmd := rfl
@[simp] theorem handedOver_len (s : State) : (Safety.handedOver s).len = s.len := rfl
@[simp] theorem handedOver_tmo (s : State) : (Safety.handedOver s).tmo = s.tmo := rfl
@[simp] theorem handedOver_bufv (s : State) : (Safety.handedOver s).bufv = s.bufv := rfl
@[simp] theorem handedOver_elapsed (s : State) : (Safety.handedOver s).elapsed = (charge s.elapsed (txAnswer s).dt) := rfl
@[simp] theorem handedOver_attempt (s : State) : (Safety.handedOver s).attempt = 1 := rfl
@[simp] theorem handedOver_off (s : State) : (Safety.handedOver s).off = s.off := rfl
@[simp] theorem handedOver_status (s : State) : (Safety.handedOver s).status = s.status := rfl
@[simp] theorem handedOver_count (s : State) : (Safety.handedOver s).count = s.count := rfl
@[simp] theorem handedOver_busy (s : State) : (Safety.handedOver s).busy = s.busy := rfl
@[simp] theorem handedOver_txf (s : State) : (Safety.handedOver s).txf = s.txf := rfl
@[simp] theorem handedOver_rxf (s : State) : (Safety.handedOver s).rxf = s.rxf := rfl
@[simp] theorem handedOver_ph (s : State) : (Safety.handedOver s).ph = s.ph := rfl
@[simp] theorem handedOver_crcacc (s : State) : (Safety.handedOver s).crcacc = s.crcacc := rfl
@[simp] theorem handedOver_hbuf (s : State) : (Safety.handedOver s).hbuf = s.hbuf := rfl
@[simp] theorem handedOver_host (s : State) : (Safety.handedOver s).host = s.host := rfl
@[simp] theorem handedOver_txq (s : State) : (Safety.handedOver s).txq = s.txq.tail := rfl
@[simp] theorem handedOver_rxq (s : State) : (Safety.handedOver s).rxq = s.rxq := rfl
@[simp] theorem handedOver_draws (s : State) : (Safety.handedOver s).draws = (if s.txq = [] then s.draws + 1 else s.draws) := rfl
@[simp] theorem handedOver_trace (s : State) : (Safety.handedOver s).trace = (.tx s.txf (bound tSub s) (txOutcome s) (txAnswer s).dt :: s.trace) := rfl

/-! ### `Safety.acked` -/

@[simp] theorem acked_mode (s : State) : (Safety.acked s).mode = s.mode := rfl
@[simp] theorem acked_policy (s : State) : (Safety.acked s).policy = s.policy := rfl
@[simp] theorem acked_mtu (s : State) : (Safety.acked s).mtu = s.mtu := rfl
@[simp] theorem acked_reserve (s : State) : (Safety.acked s).reserve = s.reserve := rfl
@[simp] theorem acked_pMalformed (s : State) : (Safety.acked s).pMalformed = s.pMalformed := rfl
@[simp] theorem acked_seq (s : State) : (Safety.acked s).seq = s.seq := rfl
@[simp] theorem acked_inseq (s : State) : (Safety.acked s).inseq = s.inseq := rfl
@[simp] theorem acked_rb (s : State) : (Safety.acked s).rb = s.rb := rfl
@[simp] theorem acked_cmd (s : State) : (Safety.acked s).cmd = s.cmd := rfl
@[simp] theorem acked_len (s : State) : (Safety.acked s).len = s.len := rfl
@[simp] theorem acked_tmo (s : State) : (Safety.acked s).tmo = s.tmo := rfl
@[simp] theorem acked_bufv (s : State) : (Safety.acked s).bufv = s.bufv := rfl
@[simp] theorem acked_elapsed (s : State) : (Safety.acked s).elapsed = (charge (charge s.elapsed (txAnswer s).dt) (rxAnswer (Safety.handedOver s)).dt) := rfl
@[simp] theorem acked_attempt (s : State) : (Safety.acked s).attempt = 1 := rfl
@[simp] theorem acked_off (s : State) : (Safety.acked s).off = s.off := rfl
@[simp] theorem acked_status (s : State) : (Safety.acked s).status = s.status := rfl
@[simp] theorem acked_count (s : State) : (Safety.acked s).count = s.count := rfl
@[simp] theorem acked_busy (s : State) : (Safety.acked s).busy = s.busy := rfl
@[simp] theorem acked_txf (s : State) : (Safety.acked s).txf = s.txf := rfl
@[simp] theorem acked_rxf (s : State) : (Safety.acked s).rxf = ([ftAck, crc7 [ftAck]]) := rfl
@[simp] theorem acked_ph (s : State) : (Safety.acked s).ph = s.ph := rfl
@[simp] theorem acked_crcacc (s : State) : (Safety.acked s).crcacc = (crc7 [ftAck]) := rfl
@[simp] theorem acked_hbuf (s : State) : (Safety.acked s).hbuf = s.hbuf := rfl
@[simp] theorem acked_host (s : State) : (Safety.acked s).host = s.host := rfl
@[simp] theorem acked_txq (s : State) : (Safety.acked s).txq = s.txq.tail := rfl
@[simp] theorem acked_rxq (s : State) : (Safety.acked s).rxq = s.rxq.tail := rfl
@[simp] theorem acked_trace (s : State) : (Safety.acked s).trace = (.rx (rxMax s) (bound tSub (Safety.handedOver s)) (rxOutcome (Safety.handedOver s)) (rxAnswer (Safety.handedOver s)).dt :: .tx s.txf (bound tSub s) (txOutcome s) (txAnswer s).dt :: s.trace) := rfl

/-! ### The bootstraps are mode writes -/

theorem bootSender_eq (s : State) : bootSender s = setMode (if s.mode = .undefined then .sender else s.mode) s := rfl
theorem bootReceiver_eq (s : State) : bootReceiver s = setMode (if s.mode = .undefined then .receiver else s.mode) s := rfl

end Sys2Proof.Machine
end

