-- ==== Sys2Proof/Laws/Commands.lean ====
section
/-! SUPPORT. What the first steps of the host commands come to: acceptance, and the mode bootstrap of `WRITE` and
`READ` in the two cases that matter to it. -/

namespace Sys2Proof.Machine

/-- An idle engine accepts the command (R68). -/
theorem accept_idle {cmd : Byte} {len tmo : Word} {v : Bool} {run : State → State} {s : State} (h : s.busy = false) :
    accept cmd len tmo v run s = run (latch cmd len tmo v s) := by simp [accept, h]

/-- A busy engine does not (R68). -/
theorem accept_busy {cmd : Byte} {len tmo : Word} {v : Bool} {run : State → State} {s : State} (h : s.busy = true) :
    accept cmd len tmo v run s = s := by simp [accept, h]

/-- The bootstrap of `WRITE` leaves a `Receiver` a `Receiver` (R201). -/
theorem bootSender_receiver {s : State} (h : s.mode = .receiver) : bootSender s = setMode .receiver s := by
  simp only [bootSender, h]; rfl

/-- After the bootstrap of `WRITE` an engine that was no `Receiver` is a `Sender` (R201). -/
theorem bootSender_other {s : State} (h : s.mode ≠ .receiver) : bootSender s = setMode .sender s := by
  unfold bootSender
  cases hm : s.mode
  · rfl
  · rfl
  · exact absurd hm h

/-- The bootstrap of `READ` leaves a `Sender` a `Sender` (R201). -/
theorem bootReceiver_sender {s : State} (h : s.mode = .sender) : bootReceiver s = setMode .sender s := by
  simp only [bootReceiver, h]; rfl

/-- After the bootstrap of `READ` an engine that was no `Sender` is a `Receiver` (R201). -/
theorem bootReceiver_other {s : State} (h : s.mode ≠ .sender) : bootReceiver s = setMode .receiver s := by
  unfold bootReceiver
  cases hm : s.mode
  · rfl
  · exact absurd hm h
  · rfl

/-- `WRITE` without a buffer (R137 step 1). -/
theorem startWrite_nobuf {s : State} (h : s.bufv = false) : startWrite s = raiseError .incorrectParameter s := by
  simp [startWrite, h]

/-- `WRITE` of a `Receiver` under `Manual` (R137 step 4, R202). -/
theorem startWrite_mismatch {s : State} (h : s.bufv = true) (hm : s.mode = .receiver) (hp : s.policy = .manual) :
    startWrite s = raiseError .incorrectMode (setOff 0 (resetExchange s)) := by
  simp [startWrite, h, bootSender_receiver hm, hp]

/-- `WRITE` of a `Receiver` under `Auto` waits (R137 step 4, R204). -/
theorem startWrite_wait {s : State} (h : s.bufv = true) (hm : s.mode = .receiver) (hp : s.policy = .auto) :
    startWrite s = setPhase (.recv (.wait .sender)) (setOff 0 (resetExchange s)) := by
  simp [startWrite, h, bootSender_receiver hm, hp]

/-- `WRITE` of an engine that is no `Receiver` sends at once (R137 steps 3 to 5). -/
theorem startWrite_send {s : State} (h : s.bufv = true) (hm : s.mode ≠ .receiver) :
    startWrite s = sendMessage (setOff 0 (resetExchange (setMode .sender s))) := by
  simp [startWrite, h, bootSender_other hm]

/-- Step 5 of `WRITE` for a message of at most `MTU` bytes (R138). -/
theorem sendMessage_short {s : State} (h : s.len.toNat ≤ s.mtu.toNat) :
    sendMessage s = sendThen (fun s => complete statusOk s.len (setOff s.len (setSeq 1 s)))
      (encData 1 (messageBytes s 0 s.len.toNat) s) := if_pos h

/-- Step 5 of `WRITE` for a longer message, up to the `ACK` of `SEQ_BEGIN` (R139). -/
theorem sendMessage_long {s : State} (h : s.mtu.toNat < s.len.toNat) :
    sendMessage s = sendThen (setPhase .segment) (encCtrl ftSeqBegin s) := if_neg (Nat.not_le.mpr h)

/-- A turn of the segment loop while the message is not out (R139, R141). -/
theorem sendSegment_more {s : State} (h : s.off.toNat < s.len.toNat) :
    sendSegment s = sendThen (fun t => setOff (s.off + BitVec.ofNat 32 (chunkLen s)) (setSeq (nextSeq s) t))
      (encData (nextSeq s) (messageBytes s s.off.toNat (chunkLen s)) s) := if_pos h

/-- The end of the segment loop (R139). -/
theorem sendSegment_last {s : State} (h : s.len.toNat ≤ s.off.toNat) :
    sendSegment s = sendThen (fun s => complete statusOk s.len s) (encCtrl ftSeqEnd s) := if_neg (Nat.not_lt.mpr h)

/-- The cursor after a segment does not wrap (R139). -/
theorem off_advance (s : State) (h : s.off.toNat < s.len.toNat) :
    (s.off + BitVec.ofNat 32 (chunkLen s)).toNat = s.off.toNat + min s.mtu.toNat (s.len.toNat - s.off.toNat) := by
  have := s.len.isLt
  rw [BitVec.toNat_add, BitVec.toNat_ofNat, chunkLen]
  omega

/-- `READ` without a buffer (R161 step 1). -/
theorem startRead_nobuf {s : State} (h : s.bufv = false) : startRead s = raiseError .incorrectParameter s := by
  simp [startRead, h]

/-- `READ` of a `Sender` under `Manual` (R161 step 4, R202). -/
theorem startRead_mismatch {s : State} (h : s.bufv = true) (hm : s.mode = .sender) (hp : s.policy = .manual) :
    startRead s = raiseError .incorrectMode (resetExchange s) := by
  simp [startRead, h, bootReceiver_sender hm, hp]

/-- `READ` of a `Sender` under `Auto` waits (R161 step 4, R203). -/
theorem startRead_wait {s : State} (h : s.bufv = true) (hm : s.mode = .sender) (hp : s.policy = .auto) :
    startRead s = setPhase (.recv (.wait .receiver)) (resetExchange s) := by
  simp [startRead, h, bootReceiver_sender hm, hp]

/-- `READ` of an engine that is no `Sender` enters its message loop (R161 steps 3 to 5). -/
theorem startRead_listen {s : State} (h : s.bufv = true) (hm : s.mode ≠ .sender) :
    startRead s = setPhase (.recv .msg) (resetExchange (setMode .receiver s)) := by
  simp [startRead, h, bootReceiver_other hm]

end Sys2Proof.Machine
end

