-- ==== Sys2Proof/Laws/Memory.lean ====
section
/-! SUPPORT. The laws of HBUF: every operation keeps the canonical form; a read after a write; the byte a range write
leaves. -/

namespace Sys2Proof.Machine

theorem memWfFrom_mono {lo lo' : Nat} (h : lo' ≤ lo) :
    ∀ {m : List Host.Cell}, memWfFrom lo m = true → memWfFrom lo' m = true
  | [], _ => rfl
  | (k, c) :: m, hm => by
    simp only [memWfFrom, Bool.and_eq_true, decide_eq_true_eq] at hm ⊢
    exact ⟨⟨by omega, hm.1.2⟩, hm.2⟩

theorem memRead_below {m : List Host.Cell} {lo a : Nat} (hm : memWfFrom lo m = true) (h : a < lo) :
    memRead m a = memDefault := by
  cases m with
  | nil => rfl
  | cons x m =>
    obtain ⟨k, c⟩ := x
    simp only [memWfFrom, Bool.and_eq_true, decide_eq_true_eq] at hm
    simp [memRead, show a < k by omega]

theorem memCons_wf {lo a : Nat} {b : Byte} {m : List Host.Cell} (hl : lo ≤ a)
    (hm : memWfFrom (a + 1) m = true) : memWfFrom lo (memCons a b m) = true := by
  unfold memCons
  split
  · exact memWfFrom_mono (by omega) hm
  · simp [memWfFrom, *]

theorem memRead_memCons {lo a x : Nat} {b : Byte} {m : List Host.Cell} (hl : a < lo)
    (hm : memWfFrom lo m = true) : memRead (memCons a b m) x = if x = a then b else memRead m x := by
  unfold memCons
  split
  · next h => split
              · next hx => subst hx; rw [h, memRead_below hm hl]
              · rfl
  · simp only [memRead]
    split
    · next hx => simp [show x ≠ a by omega, memRead_below hm (show x < lo by omega)]
    · rfl

/-- A write keeps the canonical form. -/
theorem memWrite_wfFrom (a : Nat) (b : Byte) : ∀ {lo : Nat} {m : List Host.Cell}, lo ≤ a →
    memWfFrom lo m = true → memWfFrom lo (memWrite m a b) = true
  | lo, [], hl, _ => memCons_wf hl rfl
  | lo, (k, c) :: m, hl, hm => by
    have hm' := hm
    simp only [memWfFrom, Bool.and_eq_true, decide_eq_true_eq] at hm'
    simp only [memWrite]
    split
    · refine memCons_wf hl ?_
      simp only [memWfFrom, Bool.and_eq_true, decide_eq_true_eq]
      exact ⟨⟨by omega, hm'.1.2⟩, hm'.2⟩
    · split
      · next h => subst h; exact memCons_wf hl hm'.2
      · simp only [memWfFrom, Bool.and_eq_true, decide_eq_true_eq]
        exact ⟨hm'.1, memWrite_wfFrom a b (by omega) hm'.2⟩

/-- A read after a write: the byte written at its address, every other byte as before. -/
theorem memRead_memWrite_from (a x : Nat) (b : Byte) : ∀ {lo : Nat} {m : List Host.Cell},
    memWfFrom lo m = true → memRead (memWrite m a b) x = if x = a then b else memRead m x
  | lo, [], _ => by
    have := memRead_memCons (a := a) (b := b) (x := x) (lo := a + 1) (m := []) (by omega) rfl
    simpa [memWrite] using this
  | lo, (k, c) :: m, hm => by
    have hm' := hm
    simp only [memWfFrom, Bool.and_eq_true, decide_eq_true_eq] at hm'
    simp only [memWrite]
    split
    · next h =>
      refine memRead_memCons (lo := k) h ?_
      simp only [memWfFrom, Bool.and_eq_true, decide_eq_true_eq]
      exact ⟨⟨Nat.le_refl _, hm'.1.2⟩, hm'.2⟩
    · split
      · next h =>
        subst h
        rw [memRead_memCons (lo := a + 1) (by omega) hm'.2]
        simp only [memRead]
        split
        · rfl
        · split
          · next hx => exact memRead_below hm'.2 (by omega)
          · rfl
      · next h1 h2 =>
        simp only [memRead]
        split
        · next hx => simp [show x ≠ a by omega]
        · split
          · next hx => simp [show x ≠ a by omega]
          · exact memRead_memWrite_from a x b hm'.2

theorem memWrite_wf {m : List Host.Cell} (a : Nat) (b : Byte) (h : memWf m = true) :
    memWf (memWrite m a b) = true := memWrite_wfFrom a b (Nat.zero_le _) h

theorem memRead_memWrite {m : List Host.Cell} (a x : Nat) (b : Byte) (h : memWf m = true) :
    memRead (memWrite m a b) x = if x = a then b else memRead m x := memRead_memWrite_from a x b h

/-- A range write keeps the canonical form. -/
theorem memWriteBytes_wf : ∀ (bs : List Byte) (a : Nat) {m : List Host.Cell}, memWf m = true →
    memWf (memWriteBytes m a bs) = true
  | [], _, _, h => h
  | b :: bs, a, _, h => memWriteBytes_wf bs (a + 1) (memWrite_wf a b h)

/-- The byte at `x` after a range write at `a`. -/
theorem memRead_memWriteBytes : ∀ (bs : List Byte) (a x : Nat) {m : List Host.Cell}, memWf m = true →
    memRead (memWriteBytes m a bs) x =
      if a ≤ x ∧ x < a + bs.length then bs.getD (x - a) 0 else memRead m x
  | [], a, x, m, _ => by simp [memWriteBytes]
  | b :: bs, a, x, m, h => by
    rw [memWriteBytes, memRead_memWriteBytes bs (a + 1) x (memWrite_wf a b h), memRead_memWrite a x b h]
    by_cases hx : x = a
    · subst hx; simp
    · rw [if_neg hx]
      by_cases hr : a + 1 ≤ x ∧ x < a + 1 + bs.length
      · have : x - a = (x - (a + 1)) + 1 := by omega
        simp only [hr, and_self, ↓reduceIte, List.length_cons, this, List.getD_cons_succ]
        simp [show a ≤ x ∧ x < a + (bs.length + 1) by omega]
      · rw [if_neg hr, if_neg (by simp only [List.length_cons]; omega)]

@[simp] theorem memReadBytes_length (m : List Host.Cell) : ∀ (n a : Nat), (memReadBytes m a n).length = n
  | 0, _ => rfl
  | n + 1, a => by simp [memReadBytes, memReadBytes_length m n (a + 1)]

/-- Reading a range is reading its two parts. -/
theorem memReadBytes_add (m : List Host.Cell) : ∀ (n k a : Nat),
    memReadBytes m a (n + k) = memReadBytes m a n ++ memReadBytes m (a + n) k
  | 0, k, a => by simp [memReadBytes]
  | n + 1, k, a => by
    rw [show n + 1 + k = (n + k) + 1 by omega]
    simp [memReadBytes, memReadBytes_add m n k (a + 1), show a + 1 + n = a + (n + 1) by omega]

/-- Reading back the range just written gives the bytes written. -/
theorem memReadBytes_memWriteBytes (bs : List Byte) (a : Nat) {m : List Host.Cell} (h : memWf m = true) :
    memReadBytes (memWriteBytes m a bs) a bs.length = bs := by
  suffices ∀ (n : Nat) (k : Nat) (hk : k + n = bs.length),
      memReadBytes (memWriteBytes m a bs) (a + k) n = bs.drop k by
    simpa using this bs.length 0 (by omega)
  intro n
  induction n with
  | zero => intro k hk; simp [memReadBytes, show k = bs.length by omega]
  | succ n ih =>
    intro k hk
    have hlt : k < bs.length := by omega
    rw [memReadBytes, memRead_memWriteBytes bs a _ h, show a + k + 1 = a + (k + 1) by omega, ih (k + 1) (by omega),
      List.drop_eq_getElem_cons hlt]
    simp [hlt]

end Sys2Proof.Machine
end

