-- ==== Sys2Proof/Laws/PerInstr.lean ====
section
/-! SUPPORT. The statements made of every instruction as syntax, one lemma per constructor. The family `Encoding`: the
form of an instruction's encoding, whatever its operands are. -/

namespace Sys2Proof.Laws.Encoding

open Sys2Proof.Machine

/-- What the encoding of an instruction is: for a control frame two bytes and for a data frame at least three, the first
one of the seven type codes (30_encoding.md R61, R62, R77); for a host command a word whose `cmd` is one of the four codes
(R69). -/
def Statement (i : Instr) : Prop :=
  match encode i with
  | .frame f => i.isFrame = true ∧ 2 ≤ f.length ∧ ∃ t, f.head? = some t ∧ isFrameType t = true
  | .word w => i.isFrame = false ∧ 1 ≤ (hostCmd w).toNat ∧ (hostCmd w).toNat ≤ 4

theorem ack : Statement .ack := ⟨rfl, by decide, ftAck, by decide, by decide⟩

theorem nack : Statement .nack := ⟨rfl, by decide, ftNack, by decide, by decide⟩

theorem seqBegin : Statement .seqBegin := ⟨rfl, by decide, ftSeqBegin, by decide, by decide⟩

theorem seqEnd : Statement .seqEnd := ⟨rfl, by decide, ftSeqEnd, by decide, by decide⟩

theorem setSend : Statement .setSend := ⟨rfl, by decide, ftSetSend, by decide, by decide⟩

theorem setRecv : Statement .setRecv := ⟨rfl, by decide, ftSetRecv, by decide, by decide⟩

theorem data (seq : Byte) (payload : List Byte) : Statement (.data seq payload) := by
  refine ⟨rfl, ?_, ftData, ?_, by decide⟩
  · rw [dataFrame_length]; omega
  · simp [dataFrame, sealFrame]

theorem write (len tmo : Word) (bufv : Bool) : Statement (.write len tmo bufv) := by
  simp [Statement, encode, Instr.isFrame, cmdWrite]

theorem read (len tmo : Word) (bufv : Bool) : Statement (.read len tmo bufv) := by
  simp [Statement, encode, Instr.isFrame, cmdRead]

theorem reqPeerSend (len tmo : Word) (bufv : Bool) : Statement (.reqPeerSend len tmo bufv) := by
  simp [Statement, encode, Instr.isFrame, cmdReqPeerSend]

theorem reqPeerRecv (len tmo : Word) (bufv : Bool) : Statement (.reqPeerRecv len tmo bufv) := by
  simp [Statement, encode, Instr.isFrame, cmdReqPeerRecv]

end Sys2Proof.Laws.Encoding
end

