-- ==== Sys2Proof/Laws/Transport.lean ====
section
/-! SUPPORT. What the timeout arbiter, the two transport calls, the retry loop, `SendArq` and `Reply` can do: one lemma
each, to be cited instead of unfolding them. -/

namespace Sys2Proof.Machine

open Sys2Proof.Safety

theorem checkDeadline_of_live {s : State} (h : expired s = false) : checkDeadline s = .cont () s := by
  simp [checkDeadline, h]

theorem checkDeadline_of_expired {s : State} (h : expired s = true) :
    checkDeadline s = .halt (raiseError .timeout s) := by
  simp [checkDeadline, h]

/-- With an infinite `TMO` the deadline never expires (R131). -/
theorem expired_of_infinite {s : State} (h : s.tmo = tInf) : expired s = false := by simp [expired, h]

/-- `XmitOnce` is one `TxCall`, or `Timeout` (R132). -/
theorem xmitOnce_eq (t : Word) (s : State) : xmitOnce t s =
    if expired s then .halt (raiseError .timeout s)
    else .cont (decide (txOutcome s = .txOk (txfLen s))) (afterTx (bound t s) s) := by
  unfold xmitOnce checkDeadline
  cases expired s <;> rfl

/-- `RecvOnce` is one `RxCall`: a frame, nothing, `ReadFailed` or `Timeout` (R133). -/
theorem recvOnce_eq (t : Word) (s : State) : recvOnce t s =
    if expired s then .halt (raiseError .timeout s)
    else match rxOutcome s with
      | .rxError =>
        .halt (raiseError (if expired (afterRx (bound t s) s) then .timeout else .readFailed) (afterRx (bound t s) s))
      | .rxOk b => .cont (.rxOk b) (storeRx b (afterRx (bound t s) s))
      | .rxNone => .cont .rxNone (afterRx (bound t s) s) := by
  unfold recvOnce checkDeadline
  cases expired s
  · cases h : rxOutcome s <;> simp only [Bool.false_eq_true, ↓reduceIte, h]
    cases expired (afterRx (bound t s) s) <;> rfl
  · rfl

/-- `RxOk(b)` obeys its law: `1 <= len(b) <= RX_MAX` (R8, R133). -/
theorem rxOutcome_ok {s : State} {b : List Byte} (h : rxOutcome s = .rxOk b) : b ≠ [] ∧ b.length ≤ rxMax s := by
  unfold rxOutcome lawfulRx at h
  split at h <;> try contradiction
  split at h
  · contradiction
  · next b' _ hb =>
    cases h
    refine ⟨?_, by simp⟩
    simp [hb, rxMax]

/-- `TxOk(k)` obeys its law: `k <= TXF_LEN` (R8). -/
theorem txOutcome_ok {s : State} {k : Nat} (h : txOutcome s = .txOk k) : k ≤ txfLen s := by
  unfold txOutcome lawfulTx at h
  split at h <;> try contradiction
  cases h; omega

/-- The error kinds a transport operation raises. -/
def TransportError (e : ErrorKind) : Prop := e = .timeout ∨ e = .writeFailed ∨ e = .readFailed

/-- What transport calls leave alone: every register but `ELAPSED`, `ATTEMPT`, `RXF` and `CRCACC`; and every frame they
put on the transport is the one in `TXF`. -/
structure Transported (s t : State) : Prop where
  control : SameControl s t
  exchange : SameExchange s t
  command : SameCommand s t
  progress : SameProgress s t
  hbuf : t.hbuf = s.hbuf
  host : t.host = s.host
  txf : t.txf = s.txf
  rxFits : rxfLen s ≤ rxMax s → rxfLen t ≤ rxMax t
  crcRange : s.crcacc.toNat < 128 → t.crcacc.toNat < 128
  calls : ∃ new, t.trace = new ++ s.trace ∧ ∀ c ∈ new, ∀ f l o d, c = .tx f l o d → f = s.txf

theorem Transported.refl (s : State) : Transported s s :=
  ⟨⟨rfl, rfl, rfl, rfl, rfl⟩, ⟨rfl, rfl, rfl⟩, ⟨rfl, rfl, rfl, rfl, rfl⟩, ⟨rfl, rfl, rfl, rfl⟩, rfl, rfl, rfl, id, id,
    [], rfl, by simp⟩

theorem Transported.trans {s t u : State} (h : Transported s t) (k : Transported t u) : Transported s u where
  control := ⟨k.1.1.trans h.1.1, k.1.2.trans h.1.2, k.1.3.trans h.1.3, k.1.4.trans h.1.4, k.1.5.trans h.1.5⟩
  exchange := ⟨k.2.1.trans h.2.1, k.2.2.trans h.2.2, k.2.3.trans h.2.3⟩
  command := ⟨k.3.1.trans h.3.1, k.3.2.trans h.3.2, k.3.3.trans h.3.3, k.3.4.trans h.3.4, k.3.5.trans h.3.5⟩
  progress := ⟨k.4.1.trans h.4.1, k.4.2.trans h.4.2, k.4.3.trans h.4.3, k.4.4.trans h.4.4⟩
  hbuf := k.hbuf.trans h.hbuf
  host := k.host.trans h.host
  txf := k.txf.trans h.txf
  rxFits := k.rxFits ∘ h.rxFits
  crcRange := k.crcRange ∘ h.crcRange
  calls := by
    obtain ⟨a, ha, ha'⟩ := h.calls
    obtain ⟨b, hb, hb'⟩ := k.calls
    refine ⟨b ++ a, by simp [hb, ha], fun c hc f l o d e => ?_⟩
    rcases List.mem_append.1 hc with hc | hc
    · exact (hb' c hc f l o d e).trans h.txf
    · exact ha' c hc f l o d e

theorem transported_attempt (n : BitVec 3) (s : State) : Transported s (setAttempt n s) :=
  ⟨⟨rfl, rfl, rfl, rfl, rfl⟩, ⟨rfl, rfl, rfl⟩, ⟨rfl, rfl, rfl, rfl, rfl⟩, ⟨rfl, rfl, rfl, rfl⟩, rfl, rfl, rfl, id, id,
    [], rfl, by simp⟩

theorem transported_afterTx (l : Word) (s : State) : Transported s (afterTx l s) :=
  ⟨⟨rfl, rfl, rfl, rfl, rfl⟩, ⟨rfl, rfl, rfl⟩, ⟨rfl, rfl, rfl, rfl, rfl⟩, ⟨rfl, rfl, rfl, rfl⟩, rfl, rfl, rfl, id, id,
    [_], rfl, fun c hc f l' o d e => by simp_all⟩

theorem transported_afterRx (l : Word) (s : State) : Transported s (afterRx l s) :=
  ⟨⟨rfl, rfl, rfl, rfl, rfl⟩, ⟨rfl, rfl, rfl⟩, ⟨rfl, rfl, rfl, rfl, rfl⟩, ⟨rfl, rfl, rfl, rfl⟩, rfl, rfl, rfl, id, id,
    [_], rfl, by simp⟩

theorem transported_storeRx {b : List Byte} {s : State} (h : b.length ≤ rxMax s) : Transported s (storeRx b s) :=
  ⟨⟨rfl, rfl, rfl, rfl, rfl⟩, ⟨rfl, rfl, rfl⟩, ⟨rfl, rfl, rfl, rfl, rfl⟩, ⟨rfl, rfl, rfl, rfl⟩, rfl, rfl, rfl,
    fun _ => h, id, [], rfl, by simp⟩

theorem crc7_lt (b : List Byte) : (crc7 b).toNat < 128 := by
  rcases List.eq_nil_or_concat b with rfl | ⟨a, c, rfl⟩
  · decide
  · simpa using crcTab_lt _

theorem transported_noteVerify (s : State) : Transported s (noteVerify s) :=
  ⟨⟨rfl, rfl, rfl, rfl, rfl⟩, ⟨rfl, rfl, rfl⟩, ⟨rfl, rfl, rfl, rfl, rfl⟩, ⟨rfl, rfl, rfl, rfl⟩, rfl, rfl, rfl, id,
    fun _ => crc7_lt _, [], rfl, by simp⟩

theorem transported_noteReply (o : RxOutcome) (s : State) : Transported s (noteReply o s) := by
  cases o
  · exact transported_noteVerify s
  · exact .refl s
  · exact .refl s

/-- An operation that went on, or ended the command by a `raise` of a transport error, left the rest alone. -/
def Keeps {α : Type} (s : State) : Run α → Prop
  | .cont _ t => Transported s t
  | .halt t => ∃ e u, TransportError e ∧ Transported s u ∧ t = raiseError e u

theorem xmitOnce_keeps (t : Word) (s : State) : Keeps s (xmitOnce t s) := by
  rw [xmitOnce_eq]
  split
  · exact ⟨_, s, .inl rfl, .refl s, rfl⟩
  · exact transported_afterTx _ s

theorem recvOnce_keeps (t : Word) (s : State) : Keeps s (recvOnce t s) := by
  rw [recvOnce_eq]
  split
  · exact ⟨_, s, .inl rfl, .refl s, rfl⟩
  · split
    · refine ⟨_, _, ?_, transported_afterRx _ s, rfl⟩
      unfold TransportError
      split <;> simp
    · next h => exact (transported_afterRx _ s).trans (transported_storeRx (rxOutcome_ok h).2)
    · exact transported_afterRx _ s

theorem arqAttempt_keeps (s : State) : Keeps s (arqAttempt s) := by
  unfold arqAttempt
  have h := xmitOnce_keeps tSub s
  cases hx : xmitOnce tSub s with
  | halt t => rw [hx] at h; exact h
  | cont b s' =>
    rw [hx] at h
    cases b
    · exact h
    · have k := recvOnce_keeps tSub s'
      dsimp only
      cases hr : recvOnce tSub s' with
      | halt t =>
        rw [hr] at k
        obtain ⟨e, u, he, hu, rfl⟩ := k
        exact ⟨e, u, he, Transported.trans h hu, rfl⟩
      | cont o t => rw [hr] at k; exact Transported.trans (Transported.trans h k) (transported_noteReply _ _)

/-- One turn of the retry loop. -/
theorem retryLoop_succ (once : State → Run Bool) (n : Nat) (s : State) : retryLoop once (n + 1) s =
    match once (setAttempt (s.attempt + 1) s) with
    | .halt t => .halt t
    | .cont true t => .cont () t
    | .cont false t => if expired t then .halt (raiseError .timeout t) else retryLoop once n t := by
  rw [retryLoop]
  cases once (setAttempt (s.attempt + 1) s) with
  | halt t => rfl
  | cont b t =>
    cases b
    · simp only [checkDeadline]; cases expired t <;> rfl
    · rfl

/-- The retry loop keeps what each attempt keeps. -/
theorem retryLoop_keeps {once : State → Run Bool} (h : ∀ s, Keeps s (once s)) :
    ∀ n s, Keeps s (retryLoop once n s)
  | 0, s => ⟨_, s, .inr (.inl rfl), .refl s, rfl⟩
  | n + 1, s => by
    have k := h (setAttempt (s.attempt + 1) s)
    have ha := transported_attempt (s.attempt + 1) s
    rw [retryLoop_succ]
    cases hx : once (setAttempt (s.attempt + 1) s) with
    | halt t =>
      rw [hx] at k
      obtain ⟨e, u, he, hu, rfl⟩ := k
      exact ⟨e, u, he, ha.trans hu, rfl⟩
    | cont b s' =>
      rw [hx] at k
      have hs' : Transported s s' := ha.trans k
      cases b
      · dsimp only
        cases expired s'
        · have r := retryLoop_keeps h n s'
          rw [if_neg (by decide)]
          revert r
          cases retryLoop once n s' with
          | cont a t => exact fun r => hs'.trans r
          | halt t => exact fun ⟨e, u, he, hu, ht⟩ => ⟨e, u, he, hs'.trans hu, ht⟩
        · exact ⟨_, s', .inl rfl, hs', rfl⟩
      · exact hs'

/-- `SendArq` (R134) changes nothing beside `ELAPSED`, `ATTEMPT`, `RXF`, `CRCACC`, and sends only the frame in `TXF`. -/
theorem sendArq_keeps (s : State) : Keeps s (sendArq s) := by
  have h := retryLoop_keeps arqAttempt_keeps nAttempts (setAttempt 0 s)
  have ha := transported_attempt 0 s
  unfold sendArq
  revert h
  cases retryLoop arqAttempt nAttempts (setAttempt 0 s) with
  | cont a t => exact fun h => ha.trans h
  | halt t => exact fun ⟨e, u, he, hu, ht⟩ => ⟨e, u, he, ha.trans hu, ht⟩

/-- `Reply(type)` (R163), from the state in which its frame stands in `TXF`. -/
theorem reply_keeps (type : Byte) (s : State) : Keeps (encCtrl type s) (reply type s) := by
  have h := retryLoop_keeps (xmitOnce_keeps tSub) nAttempts (setAttempt 0 (encCtrl type s))
  have ha := transported_attempt 0 (encCtrl type s)
  unfold reply
  revert h
  cases retryLoop (xmitOnce tSub) nAttempts (setAttempt 0 (encCtrl type s)) with
  | cont a t => exact fun h => ha.trans h
  | halt t => exact fun ⟨e, u, he, hu, ht⟩ => ⟨e, u, he, ha.trans hu, ht⟩

/-- An arm that replies goes on from a kept state, or has ended the command with a transport error. -/
theorem replyThen_cases (type : Byte) (k : State → State) (s : State) :
    (∃ t, reply type s = .cont () t ∧ Transported (encCtrl type s) t ∧ replyThen type k s = k t) ∨
      ∃ e u, TransportError e ∧ Transported (encCtrl type s) u ∧ replyThen type k s = raiseError e u := by
  have h := reply_keeps type s
  unfold replyThen Run.andThen
  cases hr : reply type s with
  | cont a t => rw [hr] at h; exact .inl ⟨t, rfl, h, rfl⟩
  | halt t => rw [hr] at h; exact .inr h

/-- A command that sends a frame goes on from a kept state, or has ended with a transport error. -/
theorem sendThen_cases (k : State → State) (s : State) :
    (∃ t, sendArq s = .cont () t ∧ Transported s t ∧ sendThen k s = k t) ∨
      ∃ e u, TransportError e ∧ Transported s u ∧ sendThen k s = raiseError e u := by
  have h := sendArq_keeps s
  unfold sendThen Run.andThen
  cases hr : sendArq s with
  | cont a t => rw [hr] at h; exact .inl ⟨t, rfl, h, rfl⟩
  | halt t => rw [hr] at h; exact .inr h

/-- What is kept across transport calls includes the message state. -/
theorem Transported.message {s t : State} (h : Transported s t) : SameMessage s t :=
  ⟨h.control, h.exchange, h.command, fun a => congrArg (memRead · a) h.hbuf⟩

/-- The message state after `SendArq`, acknowledged or ended (R134, R141). -/
theorem sendArq_message {s t : State} (h : sendArq s = .cont () t ∨ sendArq s = .halt t) : SameMessage s t := by
  have k := sendArq_keeps s
  rcases h with h | h
  · rw [h] at k; exact k.message
  · rw [h] at k; obtain ⟨e, u, -, hu, rfl⟩ := k
    exact ⟨⟨hu.1.1, hu.1.2, hu.1.3, hu.1.4, hu.1.5⟩, ⟨hu.2.1, hu.2.2, hu.2.3⟩,
      ⟨hu.3.1, hu.3.2, hu.3.3, hu.3.4, hu.3.5⟩, hu.message.memory⟩

/-- The message state after `Reply`, sent or ended (R163). -/
theorem reply_message {type : Byte} {s t : State} (h : reply type s = .cont () t ∨ reply type s = .halt t) :
    SameMessage s t := by
  have k := reply_keeps type s
  rcases h with h | h
  · rw [h] at k
    exact ⟨⟨k.1.1, k.1.2, k.1.3, k.1.4, k.1.5⟩, ⟨k.2.1, k.2.2, k.2.3⟩,
      ⟨k.3.1, k.3.2, k.3.3, k.3.4, k.3.5⟩, k.message.memory⟩
  · rw [h] at k; obtain ⟨e, u, -, hu, rfl⟩ := k
    exact ⟨⟨hu.1.1, hu.1.2, hu.1.3, hu.1.4, hu.1.5⟩, ⟨hu.2.1, hu.2.2, hu.2.3⟩,
      ⟨hu.3.1, hu.3.2, hu.3.3, hu.3.4, hu.3.5⟩, hu.message.memory⟩

/-! ### What a reply does not touch -/

/-- An operation that leaves the observation `g` of the state as it was. -/
def Leaves {α β : Type} (g : State → β) (s : State) : Run α → Prop
  | .cont _ t => g t = g s
  | .halt t => g t = g s

/-- The retry loop leaves alone what each attempt, the counter and a `raise` leave alone. -/
theorem retryLoop_leaves {β : Type} {g : State → β} {once : State → Run Bool}
    (ha : ∀ n s, g (setAttempt n s) = g s) (hr : ∀ e s, g (raiseError e s) = g s) (h : ∀ s, Leaves g s (once s)) :
    ∀ n s, Leaves g s (retryLoop once n s)
  | 0, s => hr _ s
  | n + 1, s => by
    have k := h (setAttempt (s.attempt + 1) s)
    rw [retryLoop_succ]
    cases hx : once (setAttempt (s.attempt + 1) s) with
    | halt t => rw [hx] at k; exact Eq.trans k (ha _ s)
    | cont b t =>
      rw [hx] at k
      have kt : g t = g s := Eq.trans k (ha _ s)
      cases b
      · dsimp only
        cases expired t
        · have r := retryLoop_leaves ha hr h n t
          rw [if_neg (by decide)]
          revert r
          cases retryLoop once n t <;> exact fun r => Eq.trans r kt
        · exact Eq.trans (hr _ t) kt
      · exact kt

/-- A reply reads nothing from the transport: `RXF` and the answers to come to `RxCall`s stay (R163). -/
theorem reply_leaves_rx (type : Byte) (s : State) : Leaves (fun s => (s.rxf, s.rxq)) s (reply type s) := by
  have h := retryLoop_leaves (g := fun s => (s.rxf, s.rxq)) (once := xmitOnce tSub) (fun _ _ => rfl) (fun _ _ => rfl)
    (fun s => by rw [xmitOnce_eq]; split <;> rfl) nAttempts (setAttempt 0 (encCtrl type s))
  unfold reply
  revert h
  cases retryLoop (xmitOnce tSub) nAttempts (setAttempt 0 (encCtrl type s)) <;> exact id

/-! ### The attempt counter -/

/-- An operation that does not touch `ATTEMPT`. -/
def SameAttempt {α : Type} (s : State) : Run α → Prop
  | .cont _ t => t.attempt = s.attempt
  | .halt t => t.attempt = s.attempt

theorem xmitOnce_attempt (t : Word) (s : State) : SameAttempt s (xmitOnce t s) := by
  rw [xmitOnce_eq]; split <;> rfl

theorem recvOnce_attempt (t : Word) (s : State) : SameAttempt s (recvOnce t s) := by
  rw [recvOnce_eq]
  split
  · rfl
  · split <;> rfl

theorem arqAttempt_attempt (s : State) : SameAttempt s (arqAttempt s) := by
  unfold arqAttempt
  have h := xmitOnce_attempt tSub s
  cases hx : xmitOnce tSub s with
  | halt t => rw [hx] at h; exact h
  | cont b s' =>
    rw [hx] at h
    cases b
    · exact h
    · have k := recvOnce_attempt tSub s'
      dsimp only
      cases hr : recvOnce tSub s' with
      | halt t => rw [hr] at k; exact Eq.trans k h
      | cont o t => rw [hr] at k; cases o <;> exact Eq.trans k h

/-- `ATTEMPT` grows by at most the budget. -/
theorem retryLoop_attempt {once : State → Run Bool} (h : ∀ s, SameAttempt s (once s)) :
    ∀ n s, s.attempt.toNat + n < 8 →
      match retryLoop once n s with
      | .cont _ t => t.attempt.toNat ≤ s.attempt.toNat + n
      | .halt t => t.attempt.toNat ≤ s.attempt.toNat + n
  | 0, s, _ => by simp [retryLoop]
  | n + 1, s, hn => by
    have k := h (setAttempt (s.attempt + 1) s)
    have h1 : (s.attempt + 1).toNat = s.attempt.toNat + 1 := by
      have := s.attempt.isLt
      rw [BitVec.toNat_add]; simp; omega
    rw [retryLoop_succ]
    cases hr : once (setAttempt (s.attempt + 1) s) with
    | halt t =>
      rw [hr] at k
      have k : t.attempt.toNat = s.attempt.toNat + 1 := by rw [show t.attempt = s.attempt + 1 from k, h1]
      dsimp only
      omega
    | cont b t =>
      rw [hr] at k
      have k : t.attempt.toNat = s.attempt.toNat + 1 := by rw [show t.attempt = s.attempt + 1 from k, h1]
      cases b
      · dsimp only
        cases expired t
        · have r := retryLoop_attempt h n t (by omega)
          rw [if_neg (by decide)]
          revert r
          cases retryLoop once n t <;> (intro r; dsimp only at r ⊢; omega)
        · rw [if_pos rfl]
          simp only [raiseError_attempt]
          omega
      · dsimp only
        omega

theorem sendArq_attempt (s : State) :
    match sendArq s with
    | .cont _ t => t.attempt.toNat ≤ nAttempts
    | .halt t => t.attempt.toNat ≤ nAttempts := by
  simpa [sendArq] using retryLoop_attempt arqAttempt_attempt nAttempts (setAttempt 0 s) (by simp [nAttempts])

theorem reply_attempt (type : Byte) (s : State) :
    match reply type s with
    | .cont _ t => t.attempt.toNat ≤ nAttempts
    | .halt t => t.attempt.toNat ≤ nAttempts := by
  simpa [reply] using
    retryLoop_attempt (xmitOnce_attempt tSub) nAttempts (setAttempt 0 (encCtrl type s)) (by simp [nAttempts])

/-! ### How the retry loop ends a command -/

/-- The retry loop ends a command with `Timeout` at an expired deadline, with `WriteFailed` after the whole budget with
time left, or as an attempt of it ended the command (R134, R144, R163). -/
theorem retryLoop_halt {once : State → Run Bool} {H : State → Prop} (ha : ∀ s, SameAttempt s (once s))
    (hh : ∀ s t, once s = .halt t → H t) : ∀ n s t, s.attempt.toNat + n = nAttempts → (n = 0 → expired s = false) →
    retryLoop once n s = .halt t →
      H t ∨ (∃ u, expired u = true ∧ t = raiseError .timeout u) ∨
        ∃ u, expired u = false ∧ u.attempt.toNat = nAttempts ∧ t = raiseError .writeFailed u
  | 0, s, t, hn, hl, h => by
    simp only [retryLoop, Run.halt.injEq] at h
    exact .inr (.inr ⟨s, hl rfl, by omega, h.symm⟩)
  | n + 1, s, t, hn, _, h => by
    have k := ha (setAttempt (s.attempt + 1) s)
    have h1 : (s.attempt + 1).toNat = s.attempt.toNat + 1 := by
      have : nAttempts = 5 := rfl
      rw [BitVec.toNat_add]; simp; omega
    rw [retryLoop_succ] at h
    cases hx : once (setAttempt (s.attempt + 1) s) with
    | halt u => rw [hx] at h; simp only [Run.halt.injEq] at h; exact .inl (h ▸ hh _ _ hx)
    | cont b u =>
      rw [hx] at h k
      cases b
      · cases he : expired u with
        | true =>
          simp only [he, ↓reduceIte, Run.halt.injEq] at h
          exact .inr (.inl ⟨u, he, h.symm⟩)
        | false =>
          simp only [he, Bool.false_eq_true, ↓reduceIte] at h
          have k : u.attempt = s.attempt + 1 := k
          exact retryLoop_halt ha hh n u t (by rw [k, h1]; omega) (fun _ => he) h
      · simp at h

/-- A reply ends the command only with `Timeout` or `WriteFailed` (R163). -/
theorem reply_halt {type : Byte} {s t : State} (h : reply type s = .halt t) :
    (∃ u, expired u = true ∧ t = raiseError .timeout u) ∨
      ∃ u, expired u = false ∧ u.attempt.toNat = nAttempts ∧ t = raiseError .writeFailed u := by
  refine (retryLoop_halt (H := fun t => ∃ u, expired u = true ∧ t = raiseError .timeout u) (xmitOnce_attempt tSub)
    (fun s t hx => ?_) _ _ _ (by simp [nAttempts]) (by simp [nAttempts]) h).elim .inl id
  rw [xmitOnce_eq] at hx
  split at hx
  · next he => simp only [Run.halt.injEq] at hx; exact ⟨s, he, hx.symm⟩
  · simp at hx

/-- `SendArq` ends the command with `Timeout`, `WriteFailed` or `ReadFailed`, the last two with time left (R134, R144). -/
theorem sendArq_halt {s t : State} (h : sendArq s = .halt t) :
    (∃ u, expired u = true ∧ t = raiseError .timeout u) ∨
      (∃ u, expired u = false ∧ u.attempt.toNat = nAttempts ∧ t = raiseError .writeFailed u) ∨
      ∃ u, expired u = false ∧ t = raiseError .readFailed u := by
  have := retryLoop_halt (H := fun t => (∃ u, expired u = true ∧ t = raiseError .timeout u) ∨
    ∃ u, expired u = false ∧ t = raiseError .readFailed u) arqAttempt_attempt
    (fun s t hx => ?_) _ _ _ (by simp [nAttempts]) (by simp [nAttempts]) h
  · rcases this with (h | h) | h | h
    · exact .inl h
    · exact .inr (.inr h)
    · exact .inl h
    · exact .inr (.inl h)
  · unfold arqAttempt at hx
    rw [xmitOnce_eq] at hx
    split at hx
    · next v hv =>
      split at hv
      · next he => simp only [Run.halt.injEq] at hx hv; exact .inl ⟨s, he, by rw [← hx, ← hv]⟩
      · simp at hv
    · simp at hx
    · next u hu =>
      rw [recvOnce_eq] at hx
      split at hx
      · next v hv =>
        simp only [Run.halt.injEq] at hx
        split at hv
        · next he => simp only [Run.halt.injEq] at hv; exact .inl ⟨_, he, by rw [← hx, ← hv]⟩
        · split at hv
          · simp only [Run.halt.injEq] at hv
            cases he : expired (afterRx (bound tSub u) u) with
            | true => rw [he, if_pos rfl] at hv; exact .inl ⟨_, he, by rw [← hx, ← hv]⟩
            | false => rw [he, if_neg (by decide)] at hv; exact .inr ⟨_, he, by rw [← hx, ← hv]⟩
          · simp at hv
          · simp at hv
      · simp at hx

/-- What a reply leaves alone (R163): all that transport calls leave, and what was received before. -/
structure Replied (type : Byte) (s t : State) : Prop where
  moved : Transported (encCtrl type s) t
  rxf : t.rxf = s.rxf
  rxq : t.rxq = s.rxq

theorem errorCode_injective {e e' : ErrorKind} (h : errorCode e = errorCode e') : e = e' := by
  revert h; cases e <;> cases e' <;> decide

/-- An arm that replies: the reply went out and the rest of the arm runs, or `Timeout` or `WriteFailed` has ended the
command. -/
theorem replyThen_spec (type : Byte) (k : State → State) (s : State) :
    (∃ t, reply type s = .cont () t ∧ Replied type s t ∧ replyThen type k s = k t) ∨
      ∃ e u, (e = .timeout ∨ e = .writeFailed) ∧ Replied type s u ∧ replyThen type k s = raiseError e u := by
  have h := reply_keeps type s
  have r := reply_leaves_rx type s
  unfold replyThen Run.andThen
  cases hr : reply type s with
  | cont a t =>
    rw [hr] at h r
    simp only [Leaves, Prod.mk.injEq] at r
    exact .inl ⟨t, rfl, ⟨h, r.1, r.2⟩, rfl⟩
  | halt t =>
    rw [hr] at h r
    obtain ⟨e, u, -, hu, rfl⟩ := h
    simp only [Leaves, Prod.mk.injEq] at r
    refine .inr ⟨e, u, ?_, ⟨hu, r.1, r.2⟩, rfl⟩
    rcases reply_halt hr with ⟨v, -, hv⟩ | ⟨v, -, -, hv⟩
    · exact .inl (errorCode_injective (congrArg State.status hv))
    · exact .inr (errorCode_injective (congrArg State.status hv))

theorem replyThen_cont {type : Byte} {k : State → State} {s t : State} (h : reply type s = .cont () t) :
    replyThen type k s = k t := by simp [replyThen, h, Run.andThen]

theorem replyThen_halt {type : Byte} {k : State → State} {s t : State} (h : reply type s = .halt t) :
    replyThen type k s = t := by simp [replyThen, h, Run.andThen]

theorem sendThen_cont {k : State → State} {s t : State} (h : sendArq s = .cont () t) : sendThen k s = k t := by
  simp [sendThen, h, Run.andThen]

theorem sendThen_halt {k : State → State} {s t : State} (h : sendArq s = .halt t) : sendThen k s = t := by
  simp [sendThen, h, Run.andThen]

/-! ### The first attempt succeeds -/

/-- A reply the environment takes at once (R163). -/
theorem reply_first {type : Byte} {s : State} (h : HandsOver 2 s) : reply type s = .cont () (replied type s) := by
  obtain ⟨hx, k, hk, ha⟩ := h
  have ho : txOutcome (setAttempt 1 (encCtrl type s)) = .txOk 2 := by
    have : (txAnswer (setAttempt 1 (encCtrl type s))).outcome = .txOk k := ha
    simp only [txOutcome, this, lawfulTx, txfLen, setAttempt_txf, encCtrl_txf, ctrlFrame_length, Nat.min_eq_right hk]
  have hx' : expired (setAttempt 1 (encCtrl type s)) = false := hx
  simp only [reply, nAttempts, retryLoop, setAttempt_attempt]
  rw [show setAttempt (0 + 1) (setAttempt 0 (encCtrl type s)) = setAttempt 1 (encCtrl type s) from rfl,
    xmitOnce_eq, hx', ho]
  simp only [Bool.false_eq_true, ↓reduceIte, txfLen, setAttempt_txf, encCtrl_txf, ctrlFrame_length, decide_true]
  unfold afterTx
  rw [ho]
  rfl

theorem replyThen_first {type : Byte} {k : State → State} {s : State} (h : HandsOver 2 s) :
    replyThen type k s = k (replied type s) := by
  simp [replyThen, reply_first h, Run.andThen]

/-- A frame acknowledged at once (R134). -/
theorem sendArq_first {s : State} (h : FirstAcked s) : sendArq s = .cont () (acked s) := by
  obtain ⟨⟨hx, k, hk, ha⟩, hx2, hr⟩ := h
  have ho : txOutcome (setAttempt 1 s) = .txOk (txfLen (setAttempt 1 s)) := by
    have : (txAnswer (setAttempt 1 s)).outcome = .txOk k := ha
    simp only [txOutcome, this, lawfulTx]
    rw [Nat.min_eq_right]
    exact hk
  have hx' : expired (setAttempt 1 s) = false := hx
  have hv : rxOutcome (handedOver s) = .rxOk [ftAck, crc7 [ftAck]] := by
    simp [rxOutcome, hr, lawfulRx, rxMax]
  have hi : isAck (.rxOk [ftAck, crc7 [ftAck]]) = true := by decide
  simp only [sendArq, nAttempts, retryLoop, setAttempt_attempt]
  rw [show setAttempt (0 + 1) (setAttempt 0 s) = setAttempt 1 s from rfl]
  unfold arqAttempt
  rw [xmitOnce_eq, hx', ho]
  simp only [Bool.false_eq_true, ↓reduceIte, decide_true]
  rw [show afterTx (bound tSub (setAttempt 1 s)) (setAttempt 1 s) = handedOver s from rfl,
    recvOnce_eq, hx2, hv]
  simp only [Bool.false_eq_true, ↓reduceIte, hi]
  rfl

theorem sendThen_first {k : State → State} {s : State} (h : FirstAcked s) : sendThen k s = k (acked s) := by
  simp [sendThen, sendArq_first h, Run.andThen]

end Sys2Proof.Machine
end

