-- ==== Sys2Proof/Laws/Step.lean ====
section
/-! SUPPORT. What a step can do, said once: `Turn s t` has one constructor per way a step answers a next state, and
`turn_of_step` says there is no other. -/

namespace Sys2Proof.Machine

open Sys2Proof.Safety

/-- A step from `s` to `t`, by what the engine was at and what it got. -/
inductive Turn (s : State) : State → Prop where
  | rest (ph : s.ph = .idle) (host : s.host = []) : Turn s s
  | command {w : HostWord} {ms : List HostMove} {i : Instr} {t : State} (ph : s.ph = .idle)
      (host : s.host = .command w :: ms) (dec : decode (.word w) = .ok i) (run : exec i (setHost ms s) = .next t) :
      Turn s t
  | reserved {w : HostWord} {ms : List HostMove} {r : Reject} (ph : s.ph = .idle) (host : s.host = .command w :: ms)
      (dec : decode (.word w) = .error r) : Turn s (rejectWord w (setHost ms s))
  | poke {a : Word} {b : Byte} {ms : List HostMove} (ph : s.ph = .idle) (host : s.host = .poke a b :: ms) :
      Turn s (poke a b (setHost ms s))
  | reset {c : Config} {ms : List HostMove} (ph : s.ph = .idle) (host : s.host = .reset c :: ms)
      (wf : c.WellFormed) : Turn s (resetEngine c (setHost ms s))
  | deadline {w : RecvPhase} (ph : s.ph = .recv w) (late : expired s = true) : Turn s (raiseError .timeout s)
  | nothing {w : RecvPhase} (ph : s.ph = .recv w) (live : expired s = false) (rx : rxOutcome s = .rxNone) :
      Turn s (afterRx (bound tInf s) s)
  | readError {w : RecvPhase} (ph : s.ph = .recv w) (live : expired s = false) (rx : rxOutcome s = .rxError) :
      Turn s (raiseError (if expired (afterRx (bound tInf s) s) then .timeout else .readFailed)
        (afterRx (bound tInf s) s))
  | corrupted {b : List Byte} {w : RecvPhase} (rx : Receives b w s) (ver : verify b = false) :
      Turn s (replyThen ftNack id (received b s))
  | frame {b : List Byte} {w : RecvPhase} {i : Instr} {t : State} (rx : Receives b w s) (ver : verify b = true)
      (dec : decode (.frame b) = .ok i) (run : exec i (received b s) = .next t) : Turn s t
  | tooShort {b : List Byte} {w : RecvPhase} (rx : Receives b w s) (ver : verify b = true)
      (dec : decode (.frame b) = .error .invalidFrame) : Turn s (raiseError .invalidFrame (received b s))
  | malformed {b : List Byte} {w : RecvPhase} (rx : Receives b w s) (ver : verify b = true)
      (dec : decode (.frame b) = .error .malformed) : Turn s (onMalformed (received b s))
  | send (ph : s.ph = .send) : Turn s (sendMessage s)
  | segment (ph : s.ph = .segment) : Turn s (sendSegment s)

/-- The frame in `RXF` after the `RxCall`, and its checksum in `CRCACC`: that is `received`. -/
theorem noteVerify_storeRx (b : List Byte) (s : State) :
    noteVerify (storeRx b (afterRx (bound tInf s) s)) = received b s := rfl

/-- A frame is never rejected as a command word. -/
theorem decodeFrame_not_reserved (f : List Byte) (c : Byte) : decode (.frame f) ≠ .error (.reservedCommand c) := by
  unfold decode decodeFrame
  cases f with
  | nil => simp
  | cons t r =>
    dsimp only
    split
    · split <;> simp
    · cases ctrlInstr t with
      | none => simp
      | some i => dsimp only; split <;> simp

theorem fetch_recv {s : State} {w : RecvPhase} (ph : s.ph = .recv w) : fetch s = receive s := by
  simp only [fetch, ph]

/-- A turn of the receive loop that gets the frame `b`. -/
theorem fetch_receives {s : State} {w : RecvPhase} {b : List Byte} (h : Receives b w s) :
    fetch s = dispatchFrame (storeRx b (afterRx (bound tInf s) s)) := by
  rw [fetch_recv h.phase, receive, recvOnce_eq, h.live, h.arrives]
  rfl

/-- The step after a wait that `WRITE` has come through. -/
theorem step_send {s : State} (ph : s.ph = .send) : step s = .next (sendMessage s) := by
  simp only [step, fetch, ph]

/-- The step of the segment loop. -/
theorem step_segment {s : State} (ph : s.ph = .segment) : step s = .next (sendSegment s) := by
  simp only [step, fetch, ph]

/-- Every step that answers a next state is one of these. -/
theorem turn_of_step {s t : State} (h : step s = .next t) : Turn s t := by
  unfold step at h
  cases ph : s.ph with
  | idle =>
    simp only [fetch, ph] at h
    cases host : s.host with
    | nil => simp only [host, Host.Outcome.next.injEq] at h; exact h ▸ .rest ph host
    | cons m ms =>
      simp only [host] at h
      cases m with
      | command w =>
        simp only [hostMove] at h
        cases dec : decode (.word w) with
        | ok i => simp only [dec] at h; exact .command ph host dec h
        | error r =>
          simp only [dec, Host.Outcome.next.injEq] at h
          exact h ▸ .reserved ph host dec
      | poke a b => simp only [hostMove, Host.Outcome.next.injEq] at h; exact h ▸ .poke ph host
      | reset c =>
        simp only [hostMove] at h
        split_ifs at h with wf
        simp only [Host.Outcome.next.injEq] at h
        exact h ▸ .reset ph host wf
  | send => simp only [fetch, ph, Host.Outcome.next.injEq] at h; exact h ▸ .send ph
  | segment => simp only [fetch, ph, Host.Outcome.next.injEq] at h; exact h ▸ .segment ph
  | recv w =>
    cases late : expired s with
    | true =>
      simp only [fetch_recv ph, receive, recvOnce_eq, late, ↓reduceIte, Host.Outcome.next.injEq] at h
      exact h ▸ .deadline ph late
    | false =>
      cases rx : rxOutcome s with
      | rxNone =>
        simp only [fetch_recv ph, receive, recvOnce_eq, late, rx, Bool.false_eq_true, ↓reduceIte,
          Host.Outcome.next.injEq] at h
        exact h ▸ .nothing ph late rx
      | rxError =>
        simp only [fetch_recv ph, receive, recvOnce_eq, late, rx, Bool.false_eq_true, ↓reduceIte,
          Host.Outcome.next.injEq] at h
        exact h ▸ .readError ph late rx
      | rxOk b =>
        have r : Receives b w s := ⟨ph, late, rx⟩
        rw [fetch_receives r, dispatchFrame, noteVerify_storeRx, storeRx_rxf] at h
        cases ver : verify b with
        | false =>
          simp only [ver, Bool.false_eq_true, ↓reduceIte, Host.Outcome.next.injEq] at h
          exact h ▸ .corrupted r ver
        | true =>
          simp only [ver, ↓reduceIte] at h
          cases dec : decode (.frame b) with
          | ok i => simp only [dec] at h; exact .frame r ver dec h
          | error e =>
            cases e with
            | invalidFrame =>
              simp only [dec, Host.Outcome.next.injEq] at h
              exact h ▸ .tooShort r ver dec
            | malformed =>
              simp only [dec, Host.Outcome.next.injEq] at h
              exact h ▸ .malformed r ver dec
            | reservedCommand c => exact absurd dec (decodeFrame_not_reserved b c)

end Sys2Proof.Machine
end

