-- ==== Sys2Proof/Tests/Slice0.lean ====
section
/-! SUPPORT. Tests: the ill-formed term WellFormed refuses, one written-out encoding per instruction, the vectors of
spec/95_test_vectors.md one step at a time, and for each statement with hypotheses a state that meets them. -/

namespace Sys2Proof.Tests

open Sys2Proof.Machine Sys2Proof.Safety

/-! ### Helpers: small states -/

/-- A configuration with `MTU` = 4, the size most vectors of 95_test_vectors.md use. -/
def conf (p : Policy) (m : PMalformed) : Config := { mtu := 4, policy0 := p, reserve := 0, pMalformed := m }

/-- A fresh engine with that configuration. -/
def fresh : State := State.resetWith (conf .auto .nack)

/-- A transport that takes a frame of up to 16 bytes at once. -/
def takes : TxAnswer := { outcome := .txOk 16, dt := 0 }

/-- A transport that brings a frame at once. -/
def brings (f : List Byte) : RxAnswer := { outcome := .rxOk f, dt := 0 }

/-- The frame `ACK`, as 30_encoding.md R63 writes it. -/
def ackFrame : List Byte := [0x0A, 0x5F]

/-- A `READ max=4 tmo=inf` in its message loop, and the replies will go out. -/
def listening : State :=
  { fresh with
    mode := .receiver, cmd := 0x02, len := 4, tmo := 0xFFFFFFFF, bufv := true, busy := true, ph := .recv .msg
    txq := [takes, takes] }

/-- The same, with the frame `f` on its way. -/
def hearing (f : List Byte) : State := { listening with rxq := [brings f] }

/-- A `WRITE` that waits for `SET_SEND`. -/
def waiting : State := { listening with cmd := 0x01, ph := .recv (.wait .sender) }

/-- A `READ` of a `Sender` that waits for `SET_RECV`. -/
def waitingToRead : State := { listening with mode := .sender, ph := .recv (.wait .receiver) }

/-- An idle engine in the role `m` whose transport takes two frames and brings two `ACK`s; HBUF holds `41 42 43 44 45`. -/
def ready (m : Mode) : State :=
  { fresh with
    mode := m, hbuf := [(0, 0x41), (1, 0x42), (2, 0x43), (3, 0x44), (4, 0x45)]
    txq := [takes, takes], rxq := [brings ackFrame, brings ackFrame] }

/-- One field of the next state, if there is a next state. -/
def after {α : Type} (f : State → α) (o : Host.Outcome State Fault Refusal) : Option α :=
  match o with
  | .next t => some (f t)
  | .fault _ => none
  | .refused _ => none

/-! ### Well-formedness and decoding -/

/-- A data frame whose payload is longer than `MTU` is no well-formed instruction (R62); one of `MTU` bytes is. -/
theorem test_wellFormed_refuses_long_payload :
    ¬ Instr.WellFormed 4 (.data 1 [0x41, 0x42, 0x43, 0x44, 0x45]) ∧
      Instr.WellFormed 4 (.data 1 [0x41, 0x42, 0x43, 0x44]) := by decide

/-- The six control frames of 30_encoding.md R63, byte by byte. -/
theorem test_decode_control_frames :
    decode (.frame [0x0A, 0x5F]) = .ok .ack ∧ decode (.frame [0x0B, 0x1E]) = .ok .nack ∧
    decode (.frame [0x0C, 0x6A]) = .ok .seqBegin ∧ decode (.frame [0x0D, 0x2B]) = .ok .seqEnd ∧
    decode (.frame [0x0E, 0x79]) = .ok .setSend ∧ decode (.frame [0x0F, 0x38]) = .ok .setRecv :=
  ⟨rfl, rfl, rfl, rfl, rfl, rfl⟩

/-- Vectors F7, F9, F9f: an empty payload, two bytes, a payload that is itself a frame. -/
theorem test_decode_data_frames :
    decode (.frame [0x10, 0x01, 0x4C]) = .ok (.data 1 []) ∧
    decode (.frame [0x10, 0x01, 0x48, 0x69, 0x1C]) = .ok (.data 1 [0x48, 0x69]) ∧
    decode (.frame [0x10, 0x07, 0x10, 0x01, 0x4C, 0x4C]) = .ok (.data 7 [0x10, 0x01, 0x4C]) := ⟨rfl, rfl, rfl⟩

/-- The four command words of R68 and R69, field by field from bit 72 down: `buf_valid`, `timeout`, `len`, `cmd`. -/
theorem test_decode_command_words :
    decode (.word (BitVec.ofNat 73 (1 * 2 ^ 72 + 1000 * 2 ^ 40 + 5 * 2 ^ 8 + 0x01))) = .ok (.write 5 1000 true) ∧
    decode (.word (BitVec.ofNat 73 (1 * 2 ^ 72 + 0xFFFFFFFF * 2 ^ 40 + 16 * 2 ^ 8 + 0x02))) =
      .ok (.read 16 0xFFFFFFFF true) ∧
    decode (.word (BitVec.ofNat 73 (0 * 2 ^ 72 + 1000 * 2 ^ 40 + 0 * 2 ^ 8 + 0x03))) = .ok (.reqPeerSend 0 1000 false) ∧
    decode (.word (BitVec.ofNat 73 (0 * 2 ^ 72 + 0 * 2 ^ 40 + 0xFFFFFFFF * 2 ^ 8 + 0x04))) =
      .ok (.reqPeerRecv 0xFFFFFFFF 0 false) := ⟨rfl, rfl, rfl, rfl⟩

/-- Vectors F17, F20, F27, F28 and the reserved codes 0x00 and 0x05 of R69: refused, each under its name. -/
theorem test_decode_rejects :
    decode (.frame [0x00]) = .error .malformed ∧ decode (.frame [0x10, 0x09]) = .error .invalidFrame ∧
    decode (.frame [0x0A, 0x00, 0x15]) = .error .malformed ∧ decode (.frame [0x11, 0x48]) = .error .malformed ∧
    decode (.word 0x00) = .error (.reservedCommand 0x00) ∧ decode (.word 0x05) = .error (.reservedCommand 0x05) :=
  ⟨rfl, rfl, rfl, rfl, rfl, rfl⟩

/-- Vectors F7 to F9f: what the packers produce. -/
theorem test_encode_vectors :
    encode .ack = .frame [0x0A, 0x5F] ∧ encode .seqBegin = .frame [0x0C, 0x6A] ∧
    encode (.data 1 [0x68, 0x65, 0x6C, 0x6C, 0x6F]) = .frame [0x10, 0x01, 0x68, 0x65, 0x6C, 0x6C, 0x6F, 0x49] ∧
    encode (.data 0 [0x41]) = .frame [0x10, 0x00, 0x41, 0x4E] ∧
    encode (.data 255 [0x41]) = .frame [0x10, 0xFF, 0x41, 0x52] := by decide

/-- Vectors K6, K7, K18, K21, K22 of the CRC7 unit. -/
theorem test_crc_vectors :
    crc7 [0x80] = 0x48 ∧ crc7 [0x91] = 0x00 ∧ crc7 [0x31, 0x32, 0x33, 0x34, 0x35, 0x36, 0x37, 0x38, 0x39] = 0x25 ∧
    crc7 [0x9D] = 0x6A ∧ crc7 [0x91, 0x0C] = 0x6A := by decide

/-- Vectors F11, F14, F15, F16, F17, F24, F25, F29 of `VERIFY`. -/
theorem test_verify_vectors :
    verify [0x0A, 0xCC] = false ∧ verify [0x0A, 0x5E] = false ∧ verify [0x0A, 0xDF] = false ∧ verify [] = false ∧
    verify [0x00] = true ∧ verify [0x10, 0x01, 0x41, 0x2A] = false ∧ verify [0x10, 0x02, 0x41, 0x2B] = false ∧
    verify [0x0C, 0x6A, 0x00] = true := by decide

/-- The ROM holds what the generator computes (R92), at every index. -/
theorem test_crcTab_is_generated : ∀ i : Byte, crcTab i = crc7Byte i := by decide

/-- The placing of an instruction: a frame code in the low byte is received, a command code is presented. -/
theorem test_placed_instructions_run :
    decodeTableWord 8 0x0A = some .ack ∧ decodeTableWord 8 0x10 = some (.data 0 []) ∧
    decodeTableWord 73 0x01 = some (.write 0 0 false) ∧
    after State.status (step (State.reset.withFetchWord 73 0x01)) = some 0x81 := by decide

/-! ### Frames, one step each -/

/-- Q8: an out-of-band `ACK` is answered `0A 5F`. -/
theorem test_ack_answered_ack : after State.txf (step (hearing [0x0A, 0x5F])) = some [0x0A, 0x5F] := by decide

/-- Q8: the answer to a `NACK` is an `ACK` (R167). -/
theorem test_nack_answered_ack : after State.txf (step (hearing [0x0B, 0x1E])) = some [0x0A, 0x5F] := by decide

/-- Q2, first frame. -/
theorem test_seqBegin_sets_inseq : after State.inseq (step (hearing [0x0C, 0x6A])) = some true := by decide

/-- M1: `SEQ_BEGIN` while waiting is refused with `0B 1E`. -/
theorem test_seqBegin_refused_while_waiting :
    after (fun t => (t.txf, t.inseq)) (step { waiting with rxq := [brings [0x0C, 0x6A]] }) =
      some ([0x0B, 0x1E], false) := by decide

/-- Q6: a `SEQ_END` with nothing before it delivers the empty message. -/
theorem test_seqEnd_delivers_empty :
    after (fun t => (t.status, t.count)) (step (hearing [0x0D, 0x2B])) = some (0x00, 0) := by decide

/-- Q5: five bytes for a buffer of four. -/
theorem test_seqEnd_overflow :
    after (fun t => (t.status, t.count, t.hbuf))
      (step { hearing [0x0D, 0x2B] with inseq := true, rb := [0x41, 0x42, 0x43, 0x44, 0x45] }) =
      some (0x87, 0, []) := by decide

/-- Q19: `SET_SEND` in a plain `READ` completes `MODE_SWITCHED`. -/
theorem test_setSend_switches_read :
    after (fun t => (t.mode, t.status, t.rb)) (step { hearing [0x0E, 0x79] with rb := [0x41, 0x42] }) =
      some (.sender, 0x01, []) := by decide

/-- M4: under `Manual` it is refused with `0B 1E`. -/
theorem test_setSend_refused_manual :
    after (fun t => (t.mode, t.txf)) (step { hearing [0x0E, 0x79] with policy := .manual }) =
      some (.receiver, [0x0B, 0x1E]) := by decide

/-- Q18: a duplicate `SET_RECV` empties the reassembly. -/
theorem test_setRecv_duplicate_resets :
    after (fun t => (t.seq, t.inseq, t.rb, t.busy))
      (step { hearing [0x0F, 0x38] with seq := 1, inseq := true, rb := [0x41] }) =
      some (0, false, [], true) := by decide

/-- M1: `SET_RECV` ends the wait of a `READ`. -/
theorem test_setRecv_ends_wait :
    after (fun t => (t.mode, t.ph)) (step { waitingToRead with rxq := [brings [0x0F, 0x38]] }) =
      some (.receiver, .recv .msg) := by decide

/-- Q1 with `MTU` = 4: one data frame, delivered at once. -/
theorem test_data_delivered :
    after (fun t => (t.status, t.count, t.hbuf)) (step (hearing [0x10, 0x01, 0x48, 0x69, 0x1C])) =
      some (0x00, 2, [(0, 0x48), (1, 0x69)]) := by decide

/-- Q7: sequence number 0 first is a duplicate, acknowledged and not stored. -/
theorem test_data_zero_is_duplicate :
    after (fun t => (t.txf, t.seq, t.rb)) (step (hearing [0x10, 0x00, 0x41, 0x4E])) =
      some ([0x0A, 0x5F], 0, []) := by decide

/-! ### Host commands -/

/-- W3: `MTU` bytes go out as one data frame. -/
theorem test_write_single :
    after (fun t => (sentFrames t, t.status, t.count, t.seq, t.off)) (exec (.write 4 1000 true) (ready .undefined)) =
      some ([[0x10, 0x01, 0x41, 0x42, 0x43, 0x44, 0x6F]], 0x00, 4, 1, 4) := by decide

/-- W11: no budget, but the role is taken. -/
theorem test_write_no_budget :
    after (fun t => (t.status, t.mode, t.attempt, t.trace)) (exec (.write 1 0 true) fresh) =
      some (0x83, .sender, 1, []) := by decide

/-- Q16: `READ` without a buffer. -/
theorem test_read_nobuf :
    after (fun t => (t.status, t.mode)) (exec (.read 16 0xFFFFFFFF false) fresh) = some (0x81, .undefined) := by decide

/-- M3: `READ` of a `Sender` under `Manual`. -/
theorem test_read_manual_mismatch :
    after (fun t => (t.status, t.mode)) (exec (.read 4 10 true) { ready .sender with policy := .manual }) =
      some (0x82, .sender) := by decide

/-- M5: the request is acknowledged and the roles are exchanged. -/
theorem test_reqPeerSend :
    after (fun t => (sentFrames t, t.mode, t.status)) (exec (.reqPeerSend 0 1000 false) (ready .sender)) =
      some ([[0x0E, 0x79]], .receiver, 0x00) := by decide

/-- M6. -/
theorem test_reqPeerRecv :
    after (fun t => (sentFrames t, t.mode, t.status)) (exec (.reqPeerRecv 0 1000 false) (ready .receiver)) =
      some ([[0x0F, 0x38]], .sender, 0x00) := by decide

/-- M8. -/
theorem test_reqPeerSend_manual :
    after (fun t => (t.status, t.trace)) (exec (.reqPeerSend 0 1000 false) { ready .sender with policy := .manual }) =
      some (0x82, []) := by decide

/-! ### Witnesses: for each statement with hypotheses, a state and operands that meet them, clause by clause -/

theorem witness_ChecksumIsSevenBitsWide : 0x80 ≤ (0x80 : Byte).toNat ∧ 0x80 ≤ (0xCC : Byte).toNat := by decide

theorem witness_DecodeClassifiesFrames :
    ([0x10] : List Byte).head? = some ftData ∧ ([0x10] : List Byte).length < 3 ∧
    ([0x10, 0x09] : List Byte).head? = some ftData ∧ ([0x10, 0x09] : List Byte).length < 3 ∧
    ctrlInstr 0x0A = some .ack ∧ ([] : List Byte).length ≠ 1 ∧ ([0x00, 0x15] : List Byte).length ≠ 1 ∧
    (0x09 : Byte) ≠ ftData ∧ ctrlInstr 0x09 = none ∧ (0x11 : Byte) ≠ ftData ∧ ctrlInstr 0x11 = none := by decide

theorem witness_DecodeInvertsEncode :
    Instr.WellFormed 1 (.data 0 []) ∧ Instr.WellFormed 1 (.data 255 [0x41]) ∧
      encode (.data 255 [0x41]) = .frame [0x10, 0xFF, 0x41, 0x52] := by decide

theorem witness_EncodeInvertsDecode :
    verify [0x10, 0x01, 0x4C] = true ∧ decode (.frame [0x10, 0x01, 0x4C]) = .ok (.data 1 []) ∧
      decode (.word 0x02) = .ok (.read 0 0 false) := ⟨by decide, rfl, rfl⟩

theorem witness_ResetLeavesTheTableOfValues : State.reset = State.resetWith Config.reference := rfl

/-- The least and the greatest `MTU` (R4). -/
theorem witness_ResetMeetsTheInvariant :
    Config.WellFormed { mtu := 1, policy0 := .manual, reserve := 7, pMalformed := .raise } ∧
      Config.WellFormed { mtu := 0xFFFFFFFC, policy0 := .auto, reserve := 0, pMalformed := .ack } :=
  ⟨⟨by simp, by simp⟩, by simp, by simp⟩

theorem witness_HostResetReconstructs :
    (ready .sender).ph = .idle ∧ ({ ready .sender with host := [.reset Config.reference] } : State).host =
        .reset Config.reference :: [] ∧ Config.reference.WellFormed ∧
      ¬ Config.WellFormed { mtu := 0, policy0 := .auto, reserve := 0, pMalformed := .nack } := by decide

theorem witness_StepRunsThePresentedCommand :
    (fresh.withFetchWord 73 0x02).ph = .idle ∧ (fresh.withFetchWord 73 0x02).host = .command 0x02 :: [] ∧
      decode (.word 0x02) = .ok (.read 0 0 false) := ⟨by decide, by decide, rfl⟩

/-- A verified frame arrives in the message loop. -/
theorem receives_hearing : Receives ackFrame .msg (hearing ackFrame) := ⟨rfl, by decide, by decide⟩

theorem witness_StepRunsTheReceivedFrame :
    Receives ackFrame .msg (hearing ackFrame) ∧ verify ackFrame = true ∧ decode (.frame ackFrame) = .ok .ack :=
  ⟨receives_hearing, by decide, rfl⟩

/-- The reserved codes next to the four commands, and the last (X12); a `WRITE` and a `READ` that complete (W3, M3). -/
theorem witness_IncorrectParameterComesFirst :
    fresh.ph = .idle ∧ fresh.busy = false ∧
    ({ fresh with host := [.command 0x00] } : State).host = .command 0x00 :: [] ∧
    ([0x00, 0x05, 0xFF] : List HostWord).map hostCmd = [0x00, 0x05, 0xFF] ∧
    (∀ c ∈ ([0x00, 0x05, 0xFF] : List Byte), c ≠ 0x01 ∧ c ≠ 0x02 ∧ c ≠ 0x03 ∧ c ≠ 0x04) ∧
    after State.busy (exec (.write 4 1000 true) (ready .sender)) = some false ∧
    after State.busy (exec (.read 4 10 true) { ready .sender with policy := .manual }) = some false :=
  ⟨rfl, rfl, rfl, rfl, by decide, by decide, by decide⟩

/-- A reply will be handed over once the frame `f` has been received. -/
theorem hands_over (f : List Byte) : HandsOver 2 (received f (hearing f)) :=
  ⟨expired_of_infinite rfl, 16, by decide, rfl⟩

theorem witness_CorruptedFrameIsNacked :
    Receives [0x0A, 0x5E] .msg (hearing [0x0A, 0x5E]) ∧ verify [0x0A, 0x5E] = false ∧
      HandsOver 2 (received [0x0A, 0x5E] (hearing [0x0A, 0x5E])) :=
  ⟨⟨rfl, by decide, by decide⟩, by decide, hands_over _⟩

theorem witness_TooShortFrameEndsTheCommand :
    Receives [0x10, 0x09] (.wait .sender) { waiting with rxq := [brings [0x10, 0x09]] } ∧
      verify [0x10, 0x09] = true ∧ decode (.frame [0x10, 0x09]) = .error .invalidFrame :=
  ⟨⟨rfl, by decide, by decide⟩, by decide, rfl⟩

/-- One state for each value of the parameter. -/
theorem witness_MalformedFrameFollowsTheParameter :
    (∀ m : PMalformed, Receives [0x11, 0x48] .msg { hearing [0x11, 0x48] with pMalformed := m } ∧
      HandsOver 2 (received [0x11, 0x48] { hearing [0x11, 0x48] with pMalformed := m })) ∧
    verify [0x11, 0x48] = true ∧ decode (.frame [0x11, 0x48]) = .error .malformed :=
  ⟨fun _ => ⟨⟨rfl, rfl, by show rxOutcome (hearing [0x11, 0x48]) = _; decide⟩, ⟨rfl, 16, by decide, rfl⟩⟩, by decide, rfl⟩

/-- Nothing read; a read error before the deadline; one at the deadline (W13a); a deadline that has passed. -/
theorem witness_ReceiveLoopWithoutAFrame :
    listening.ph = .recv .msg ∧ expired listening = false ∧
    rxOutcome { listening with rxq := [{ outcome := .rxNone, dt := 5 }] } = .rxNone ∧
    rxOutcome { listening with rxq := [{ outcome := .rxError, dt := 5 }] } = .rxError ∧
    (∀ d ∈ ([999, 1000] : List Nat),
      expired { listening with tmo := 1000, rxq := [{ outcome := .rxError, dt := d }] } = false ∧
      expired (afterRx 1000 { listening with tmo := 1000, rxq := [{ outcome := .rxError, dt := d }] }) =
        decide (d = 1000)) ∧
    expired { listening with tmo := 1000, elapsed := 1000 } = true := by decide

/-- One millisecond before the deadline, and with no deadline at all. -/
theorem witness_BoundCutsToTheBudget :
    expired { fresh with tmo := 1000, elapsed := 999 } = false ∧ 1 ≤ tSub.toNat ∧
      expired { fresh with tmo := 0xFFFFFFFF, elapsed := 0xFFFFFFFF } = false := by decide

/-- Before and after the deadline; a frame, nothing, an error with time left, an error at the deadline. -/
theorem witness_ReceptionIsOneBoundedCall :
    expired listening = false ∧ expired fresh = true ∧ rxOutcome (hearing [0x00]) = .rxOk [0x00] ∧
    rxOutcome { listening with rxq := [{ outcome := .rxOk [], dt := 0 }] } = .rxNone ∧
    (∀ d ∈ ([999, 1000] : List Nat),
      expired { listening with tmo := 1000, rxq := [{ outcome := .rxError, dt := d }] } = false ∧
      rxOutcome { listening with tmo := 1000, rxq := [{ outcome := .rxError, dt := d }] } = .rxError ∧
      expired { listening with tmo := 1000, elapsed := charge 0 d } = decide (d = 1000)) := by decide

theorem witness_SaturatingElapsedIsExact :
    (0xFFFFFFFE : Word) ≠ tInf ∧ ([0xFFFFFFFD] : List Nat).sum < (0xFFFFFFFE : Word).toNat := by decide

theorem witness_TransmissionIsOneBoundedCall :
    expired (ready .sender) = true ∧ expired { ready .sender with tmo := 1 } = false := by decide

/-- Four replies that are no `ACK`, then the `ACK`; and none, then the `ACK`. -/
theorem witness_RetransmissionRecovers : ∀ n ∈ ([0, 4] : List Nat),
    (List.replicate n (brings [0x0B, 0x1E])).length < nAttempts ∧
    (List.replicate (n + 1) takes).length = (List.replicate n (brings [0x0B, 0x1E])).length + 1 ∧
    (∀ b ∈ List.replicate n (brings [0x0B, 0x1E]),
      b.outcome ≠ .rxError ∧ isAck (lawfulRx (rxMax listening) b.outcome) = false) ∧
    txfLen listening ≤ 16 ∧ takes.outcome = .txOk 16 ∧ listening.tmo = tInf ∧
    ({ listening with rxq := List.replicate n (brings [0x0B, 0x1E]) ++
        { outcome := .rxOk (ctrlFrame ftAck), dt := 0 } :: [] } : State).rxq =
      List.replicate n (brings [0x0B, 0x1E]) ++ { outcome := .rxOk (ctrlFrame ftAck), dt := 0 } :: [] := by decide

theorem witness_RetryBudgetIsFiveAttempts :
    listening.tmo = tInf ∧ (List.replicate 5 takes).length = 5 ∧ (List.replicate 5 (brings [0x0B, 0x1E])).length = 5 ∧
    txfLen listening ≤ 16 ∧ (∀ a ∈ List.replicate 5 takes, a.outcome = .txOk 16) ∧
    (∀ b ∈ List.replicate 5 (brings [0x0B, 0x1E]),
      b.outcome ≠ .rxError ∧ isAck (lawfulRx (rxMax listening) b.outcome) = false) := by decide

/-- A write that fails: short, timed out, in error (Q12). -/
def fails : List TxAnswer :=
  [{ outcome := .txTimeout, dt := 200 }, { outcome := .txError, dt := 0 }, { outcome := .txError, dt := 0 },
    { outcome := .txOk 1, dt := 0 }]

theorem witness_ReplyIsTriedFiveTimes :
    listening.tmo = tInf ∧ fails.length < 5 ∧ (fails ++ fails.take 1).length = 5 ∧
    (∀ a ∈ fails ++ fails.take 1, a.outcome = .txTimeout ∨ a.outcome = .txError ∨ a.outcome = .txOk 1) ∧
    takes.outcome = .txOk 16 := by decide

/-- A retry loop that ends the command: the deadline has passed (W11); a read error (W13). -/
theorem witness_DeadlineWinsOverTheBudget :
    sendArq fresh = .halt (raiseError .timeout (setAttempt 1 fresh)) ∧
      reply ftAck fresh = .halt (raiseError .timeout (setAttempt 1 (encCtrl ftAck fresh))) := by decide

theorem witness_RetransmissionsAreIdentical :
    sendArq fresh = .halt (raiseError .timeout (setAttempt 1 fresh)) ∧
      sendArq { ready .sender with tmo := tInf } = .cont () (acked { ready .sender with tmo := tInf }) := by decide

theorem hands_over_listening : HandsOver 2 listening := ⟨rfl, 16, by decide, rfl⟩

theorem witness_AckAndNackAreAnsweredAck : listening.ph = .recv .msg ∧ HandsOver 2 listening ∧
    waiting.ph = .recv (.wait .sender) ∧ HandsOver 2 waiting :=
  ⟨rfl, hands_over_listening, rfl, rfl, 16, by decide, rfl⟩

theorem witness_SeqBeginOpensTheBracket : listening.ph = .recv .msg ∧ HandsOver 2 listening ∧
    waiting.ph = .recv (.wait .sender) ∧ HandsOver 2 waiting :=
  ⟨rfl, hands_over_listening, rfl, rfl, 16, by decide, rfl⟩

/-- The message fits exactly; it is one byte too long; the engine waits. -/
theorem witness_SeqEndFinalizesTheMessage : HandsOver 2 listening ∧ listening.ph = .recv .msg ∧
    ([0x41, 0x42, 0x43, 0x44] : List Byte).length ≤ listening.len.toNat ∧
    listening.len.toNat < ([0x41, 0x42, 0x43, 0x44, 0x45] : List Byte).length ∧
    HandsOver 2 waiting ∧ waiting.ph = .recv (.wait .sender) :=
  ⟨hands_over_listening, rfl, by decide, by decide, ⟨rfl, 16, by decide, rfl⟩, rfl⟩

/-- `SEQ` = 255: 255 is the duplicate, 1 is out of order. -/
theorem witness_RepeatedAndMisorderedDataChangeNothing : HandsOver 2 { listening with seq := 255 } ∧
    ({ listening with seq := 255 } : State).ph = .recv .msg ∧ (1 : Byte) ≠ 255 ∧
    (1 : Byte).toNat ≠ ((255 : Byte).toNat + 1) % 256 ∧ HandsOver 2 waiting ∧ waiting.ph = .recv (.wait .sender) :=
  ⟨⟨rfl, 16, by decide, rfl⟩, rfl, by decide, by decide, ⟨rfl, 16, by decide, rfl⟩, rfl⟩

/-- `SEQ` = 255: the next number is 0. The message fits exactly, or is one byte too long. -/
theorem witness_NextDataIsAppended : HandsOver 2 { listening with seq := 255 } ∧
    ({ listening with seq := 255 } : State).ph = .recv .msg ∧ (0 : Byte).toNat = ((255 : Byte).toNat + 1) % 256 ∧
    ({ listening with seq := 255, inseq := true } : State).inseq = true ∧ listening.inseq = false ∧
    (listening.rb ++ [0x41, 0x42, 0x43, 0x44]).length ≤ listening.len.toNat ∧
    listening.len.toNat < (listening.rb ++ [0x41, 0x42, 0x43, 0x44, 0x45]).length :=
  ⟨⟨rfl, 16, by decide, rfl⟩, rfl, by decide, rfl, rfl, by decide, by decide⟩

/-- A reply that goes out, and one that the deadline forbids. -/
theorem reply_both : reply ftAck listening = .cont () (replied ftAck listening) ∧
    reply ftAck { listening with tmo := 0 } =
      .halt (raiseError .timeout (setAttempt 1 (encCtrl ftAck { listening with tmo := 0 }))) := by decide

/-- The reply to an accepted data frame, ended by the deadline (`NextDataIsAppended`, its first clause). -/
theorem witness_NextDataIsAppended_ended :
    ∃ t, reply ftAck { ({ listening with seq := 255, tmo := 0 } : State) with seq := 0 } = .halt t := ⟨_, rfl⟩

theorem witness_NegotiationFrameIsHandled :
    (listening.ph = .recv .msg ∧ HandsOver 2 listening ∧ listening.policy = .auto ∧
      listening.mode ≠ roleMode .sender ∧ listening.mode = roleMode .receiver) ∧
    (waitingToRead.ph = .recv (.wait .receiver) ∧ HandsOver 2 waitingToRead ∧ waitingToRead.policy = .auto ∧
      waitingToRead.mode ≠ roleMode .receiver) ∧
    (waiting.ph = .recv (.wait .sender) ∧ HandsOver 2 waiting ∧ waiting.policy = .auto ∧
      waiting.mode ≠ roleMode .sender) ∧
    (HandsOver 2 { listening with policy := .manual } ∧
      ({ listening with policy := .manual } : State).mode ≠ roleMode .sender) :=
  ⟨⟨rfl, hands_over_listening, rfl, by decide, rfl⟩, ⟨rfl, ⟨rfl, 16, by decide, rfl⟩, rfl, by decide⟩,
    ⟨rfl, ⟨rfl, 16, by decide, rfl⟩, rfl, by decide⟩, ⟨rfl, 16, by decide, rfl⟩, by decide⟩

theorem witness_FrameOutsideTheLoopHasNoEffect :
    (Instr.data 1 [0x41]).isFrame = true ∧ ∀ w, fresh.ph ≠ .recv w := ⟨rfl, fun _ => by show Phase.idle ≠ _; simp⟩

/-- `LEN` = `MTU`, the longest message of one frame, and the frame is acknowledged. -/
theorem witness_ShortWriteSendsOneFrame :
    (ready .undefined).busy = false ∧ (ready .undefined).mode ≠ .receiver ∧
    (4 : Word).toNat ≤ (ready .undefined).mtu.toNat ∧
    FirstAcked { writing 4 1000 (ready .undefined) with
      txf := dataFrame 1 (memReadBytes (ready .undefined).hbuf 0 (4 : Word).toNat)
      crcacc := crc7 (ftData :: 1 :: memReadBytes (ready .undefined).hbuf 0 (4 : Word).toNat) } :=
  ⟨rfl, by decide, by decide, ⟨rfl, 16, by decide, rfl⟩, by decide, by decide⟩

/-- `LEN` = `MTU` + 1. -/
theorem witness_LongWriteOpensWithSeqBegin :
    (ready .sender).busy = false ∧ (ready .sender).mode ≠ .receiver ∧ (ready .sender).mtu.toNat < (5 : Word).toNat ∧
    FirstAcked { writing 5 1000 (ready .sender) with
      txf := [ftSeqBegin, crc7 [ftSeqBegin]], crcacc := crc7 [ftSeqBegin] } :=
  ⟨rfl, by decide, by decide, ⟨rfl, 16, by decide, rfl⟩, by decide, by decide⟩

/-- A segmented `WRITE` of five bytes, `OFF` of them out. -/
def segmenting (off : Word) (seq : Byte) : State :=
  { writing 5 1000 (ready .sender) with ph := .segment, off := off, seq := seq }

/-- One byte left, and none left. -/
theorem witness_SegmentStepAdvancesTheCursor :
    ((segmenting 4 1).ph = .segment ∧ (segmenting 4 1).off.toNat < (segmenting 4 1).len.toNat ∧
      FirstAcked { segmenting 4 1 with txf := dataFrame 2 [0x45], crcacc := crc7 [ftData, 2, 0x45] } ∧
      memReadBytes (segmenting 4 1).hbuf 4 (min 4 (5 - 4)) = [0x45]) ∧
    ((segmenting 5 2).ph = .segment ∧ (segmenting 5 2).len.toNat ≤ (segmenting 5 2).off.toNat ∧
      FirstAcked { segmenting 5 2 with txf := [ftSeqEnd, crc7 [ftSeqEnd]], crcacc := crc7 [ftSeqEnd] }) :=
  ⟨⟨rfl, by decide, ⟨⟨rfl, 16, by decide, rfl⟩, by decide, by decide⟩, by decide⟩,
    rfl, by decide, ⟨rfl, 16, by decide, rfl⟩, by decide, by decide⟩

/-! Each of the states the sending statements speak of, acknowledged at the second attempt, and ended by the deadline. -/

/-- The frame is answered `NACK`, then `ACK`, and there is no deadline. -/
def nackedOnce (s : State) : State :=
  { s with tmo := tInf, txq := [takes, takes], rxq := [brings [0x0B, 0x1E], brings ackFrame] }

/-- Whether a `SendArq` went on, and at which attempt it was. -/
def endsAt : Run Unit → Bool × Nat
  | .cont _ t => (true, t.attempt.toNat)
  | .halt t => (false, t.attempt.toNat)

/-- Both outcomes of `SendArq` of the frame in `TXF`. -/
abbrev bothOutcomes (u : State) : Prop :=
  endsAt (sendArq (nackedOnce u)) = (true, 2) ∧ endsAt (sendArq { u with tmo := 0 }) = (false, 1)

/-- The one data frame, `SEQ_BEGIN`, a segment, `SEQ_END`. -/
theorem witness_sending_outcomes :
    bothOutcomes { writing 4 1000 (ready .undefined) with txf := dataFrame 1 [0x41, 0x42, 0x43, 0x44] } ∧
    bothOutcomes { writing 5 1000 (ready .sender) with txf := ctrlFrame ftSeqBegin } ∧
    bothOutcomes { segmenting 4 1 with txf := dataFrame 2 [0x45] } ∧
    bothOutcomes { segmenting 5 2 with txf := ctrlFrame ftSeqEnd } ∧
    bothOutcomes { writing 4 1000 (ready .sender) with ph := .send, txf := dataFrame 1 [0x41, 0x42, 0x43, 0x44] } ∧
    bothOutcomes { writing 5 1000 (ready .sender) with ph := .send, txf := ctrlFrame ftSeqBegin } := by decide

/-- The third frame of vector W18: `DATA(2, EFGH)` gets `NACK`, then no reply, then `ACK`. -/
def w18 : State :=
  { segmenting 4 1 with
    len := 10, tmo := tInf
    hbuf := [(0, 0x41), (1, 0x42), (2, 0x43), (3, 0x44), (4, 0x45), (5, 0x46), (6, 0x47), (7, 0x48), (8, 0x49), (9, 0x4A)]
    txq := [takes, takes, takes]
    rxq := [brings [0x0B, 0x1E], { outcome := .rxNone, dt := 200 }, brings ackFrame] }

/-- W18: three transmissions of the one frame, `ELAPSED` 200, and the cursor moves once. -/
theorem test_segment_retransmitted :
    after (fun t => (sentFrames t, t.seq, t.off, t.elapsed)) (step w18) =
      some (List.replicate 3 [0x10, 0x02, 0x45, 0x46, 0x47, 0x48, 0x32], 2, 8, 200) := by decide

/-- A segment and its last frame, a message after a wait, each with a next state. -/
theorem witness_FrameOfSendingSteps :
    ((segmenting 4 1).ph = .segment ∧ ∃ t, step (segmenting 4 1) = .next t) ∧
    ((segmenting 5 2).ph = .segment ∧ ∃ t, step (segmenting 5 2) = .next t) ∧
    ∃ t, step { writing 4 1000 (ready .sender) with ph := .send } = .next t :=
  ⟨⟨rfl, _, rfl⟩, ⟨rfl, _, rfl⟩, _, rfl⟩

theorem witness_ReadEntersTheReceiveLoop :
    fresh.busy = false ∧ fresh.mode ≠ .sender ∧ (ready .receiver).mode ≠ .sender ∧
      (ready .sender).busy = false ∧ (ready .sender).mode = .sender ∧ (ready .sender).policy = .auto := by decide

/-- A waiting `WRITE`, and one whose wait is over, with a message of `MTU` bytes and with one of `MTU` + 1. -/
theorem witness_WriteOfAReceiverWaits :
    ((ready .receiver).busy = false ∧ (ready .receiver).mode = .receiver ∧ (ready .receiver).policy = .auto) ∧
    (({ writing 4 1000 (ready .sender) with ph := .send } : State).len.toNat ≤ (ready .sender).mtu.toNat ∧
      FirstAcked { writing 4 1000 (ready .sender) with
        ph := .send, txf := dataFrame 1 [0x41, 0x42, 0x43, 0x44], crcacc := crc7 [ftData, 1, 0x41, 0x42, 0x43, 0x44] }) ∧
    ((ready .sender).mtu.toNat < ({ writing 5 1000 (ready .sender) with ph := .send } : State).len.toNat ∧
      FirstAcked { writing 5 1000 (ready .sender) with
        ph := .send, txf := [ftSeqBegin, crc7 [ftSeqBegin]], crcacc := crc7 [ftSeqBegin] }) :=
  ⟨⟨rfl, rfl, rfl⟩, ⟨by decide, ⟨rfl, 16, by decide, rfl⟩, by decide, by decide⟩,
    by decide, ⟨rfl, 16, by decide, rfl⟩, by decide, by decide⟩

theorem witness_ManualMismatchIsIncorrectMode :
    ∀ m ∈ [Mode.receiver, Mode.sender], ({ ready m with policy := .manual } : State).busy = false ∧
      ({ ready m with policy := .manual } : State).policy = .manual ∧
      ({ ready m with policy := .manual } : State).mode = m := by decide

theorem witness_RequestCommandsTakeTheRole : (ready .receiver).busy = false ∧ (ready .receiver).policy = .auto ∧
    ({ ready .sender with policy := .manual } : State).policy = .manual ∧
    FirstAcked (requesting cmdReqPeerSend ftSetSend 0 1000 false (ready .undefined)) ∧
    FirstAcked (requesting cmdReqPeerRecv ftSetRecv 0 1000 false (ready .receiver)) :=
  ⟨rfl, rfl, rfl, ⟨⟨rfl, 16, by decide, rfl⟩, by decide, by decide⟩, ⟨rfl, 16, by decide, rfl⟩, by decide, by decide⟩

theorem witness_FailedRequestKeepsTheRole : (ready .receiver).busy = false ∧
    ∃ t, exec (.reqPeerRecv 0 0 false) (ready .receiver) = .next t ∧ t.status ≠ 0x00 := ⟨rfl, _, rfl, by decide⟩

theorem witness_BusyEngineIgnoresCommands : listening.busy = true ∧ (Instr.write 1 1 true).isFrame = false :=
  ⟨rfl, rfl⟩

theorem witness_ZeroTimeoutEndsBeforeTheFirstCall :
    fresh.busy = false ∧ fresh.mode ≠ .receiver ∧ fresh.mode ≠ .sender := by decide

theorem witness_FrameOfControlFrames : ∃ t, exec .seqBegin listening = .next t := ⟨_, rfl⟩

theorem witness_FrameOfMessageFrames : memWf listening.hbuf = true ∧ (∃ t, exec .seqEnd listening = .next t) ∧
    ∃ t, exec (.data 1 [0x41]) listening = .next t := ⟨rfl, ⟨_, rfl⟩, _, rfl⟩

theorem witness_FrameOfNegotiationFrames : (∃ t, exec (setFrame .sender) listening = .next t) ∧
    ∃ t, exec (setFrame .receiver) listening = .next t := ⟨⟨_, rfl⟩, _, rfl⟩

theorem witness_FrameOfHostCommands :
    commandOf 0x01 1 1 true = some (.write 1 1 true) ∧ commandOf 0x02 1 1 true = some (.read 1 1 true) ∧
    commandOf 0x03 1 1 true = some (.reqPeerSend 1 1 true) ∧ commandOf 0x04 1 1 true = some (.reqPeerRecv 1 1 true) ∧
    fresh.busy = false ∧ ∃ t, exec (.write 1 1 true) fresh = .next t :=
  ⟨by decide, by decide, by decide, by decide, rfl, _, rfl⟩

/-- The message loop meets the invariant. -/
theorem listening_invariant : Invariant listening :=
  ⟨by decide, by decide, by decide, by decide, by decide, by decide, by decide, by decide, .inl (by decide),
    by show listening.cmd = cmdRead ∧ listening.mode = .receiver; decide⟩

/-- An idle engine meets it. -/
theorem ready_invariant (m : Mode) : Invariant (ready m) :=
  ⟨by show 1 ≤ (4 : Word).toNat; decide, by show (4 : Word).toNat ≤ _; decide, by show memWf (ready .sender).hbuf = true; decide,
    ⟨fun _ => rfl, fun _ => rfl⟩, Nat.zero_le _, Nat.zero_le _, Nat.zero_le _, by show (0 : Byte).toNat < 128; decide,
    .inl rfl, trivial⟩

/-- A running command that a step ends, at its deadline. -/
theorem witness_IncorrectParameterComesFirst_running :
    Invariant { listening with tmo := 0 } ∧ listening.ph ≠ .idle ∧
      after State.busy (step { listening with tmo := 0 }) = some false :=
  ⟨{ listening_invariant with phase := ⟨rfl, rfl⟩ }, by decide, by decide⟩

/-- Inside a segmented `WRITE` it holds too. -/
theorem segmenting_invariant : Invariant (segmenting 4 1) :=
  ⟨by decide, by decide, by decide, by decide, by decide, by decide, by decide, by decide, .inl (by decide),
    by decide, by decide, by decide, by decide, .inr (by decide), by decide⟩

theorem witness_StepKeepsTheInvariant : Invariant listening ∧ ∃ t, step (fresh.withFetchWord 8 0x0A) = .next t :=
  ⟨listening_invariant, _, rfl⟩

/-- The host's reset, the bootstrap, a request and a negotiation frame each change the role. -/
theorem witness_ModeMovesOnlyByItsCauses :
    after State.mode (step { ready .sender with host := [.reset (conf .auto .nack)] }) = some .undefined ∧
    after State.mode (step (fresh.withFetchWord 73 (2 ^ 72 + 0x02))) = some .receiver ∧
    after State.mode (step { ready .receiver with host := [.command (hostWord 0x04 0 1000 false)] }) = some .sender ∧
    after State.mode (step (hearing [0x0E, 0x79])) = some .sender := by decide

theorem witness_OnlyASenderTransmitsData :
    after (fun t => (t.trace.map isDataCall, t.mode)) (step (segmenting 4 1)) = some ([false, true], .sender) := by decide

theorem witness_ConfigurationChangesOnlyByReset :
    after State.policy (step { ready .sender with host := [.reset (conf .manual .nack)] }) = some .manual := by decide

theorem witness_MemoryChangesOnlyOnDelivery :
    after State.hbuf (step { ready .sender with host := [.poke 0 0x00] }) =
      some [(1, 0x42), (2, 0x43), (3, 0x44), (4, 0x45)] ∧
    after State.hbuf (step (hearing [0x10, 0x01, 0x41, 0x2B])) = some [(0, 0x41)] := by decide

/-- An idle `Sender` whose transport takes `n` frames and brings `n` `ACK`s. -/
def supplied (n : Nat) (m : Mode) (h : List HostMove) : State :=
  { ready m with host := h, txq := List.replicate n takes, rxq := List.replicate n (brings ackFrame) }

theorem supplied_invariant (n : Nat) (m : Mode) (h : List HostMove) : Invariant (supplied n m h) :=
  let k := ready_invariant m
  ⟨k.1, k.2, k.3, k.4, k.5, k.6, k.7, k.8, k.9, trivial⟩

/-- W4: `LEN` = `MTU` + 1, two data frames. -/
theorem witness_SegmentedWriteSendsTheMessage :
    let s := supplied 4 .undefined [.command (hostWord cmdWrite 5 tInf true)]
    Invariant s ∧ s.ph = .idle ∧ s.mode ≠ .receiver ∧ s.mtu.toNat < (5 : Word).toNat ∧
      2 = ((5 : Word).toNat + s.mtu.toNat - 1) / s.mtu.toNat ∧
      (∀ a ∈ s.txq, rxMax s ≤ 16 ∧ a.outcome = .txOk 16) ∧ 2 + 2 ≤ s.txq.length ∧
      (∀ a ∈ s.rxq, a.outcome = .rxOk (ctrlFrame ftAck)) ∧ 2 + 2 ≤ s.rxq.length :=
  ⟨supplied_invariant _ _ _, rfl, by decide, by decide, by decide, by decide, by decide, by decide, by decide⟩

/-- A bracketed message of two payloads, one of them `MTU` bytes long, that fills the buffer exactly. -/
theorem witness_ReadDeliversTheBracketedMessage :
    let ps : List (List Byte) := [[0x41, 0x42, 0x43, 0x44], [0x45]]
    let s := { supplied 4 .receiver [.command (hostWord cmdRead 5 tInf true)] with
      rxq := ([ctrlFrame ftSeqBegin] ++ payloadFrames 1 ps ++ [ctrlFrame ftSeqEnd]).map brings }
    Invariant s ∧ s.ph = .idle ∧ s.mode ≠ .sender ∧ (∀ p ∈ ps, p.length ≤ s.mtu.toNat) ∧
      ps.flatten.length ≤ (5 : Word).toNat ∧
      s.rxq.map RxAnswer.outcome =
        ([ctrlFrame ftSeqBegin] ++ payloadFrames 1 ps ++ [ctrlFrame ftSeqEnd]).map RxOutcome.rxOk ∧
      (∀ a ∈ s.txq, 2 ≤ 16 ∧ a.outcome = .txOk 16) ∧ ps.length + 2 ≤ s.txq.length :=
  ⟨by
    have k := ready_invariant .receiver
    exact ⟨k.1, k.2, k.3, k.4, k.5, k.6, k.7, k.8, k.9, trivial⟩,
    rfl, by decide, by decide, by decide, by decide, by decide, by decide⟩

/-- Q11: 400 ms and 600 ms of a budget of 1000. -/
theorem witness_SilentReceiveEndsAtTheDeadline :
    let s : State := { listening with
      tmo := 1000, rxq := [400, 600].map (fun d => { outcome := .rxNone, dt := d }) }
    s.ph = .recv .msg ∧ s.tmo ≠ tInf ∧ s.elapsed.toNat + ([400, 600] : List Nat).dropLast.sum < s.tmo.toNat ∧
      s.tmo.toNat ≤ s.elapsed.toNat + ([400, 600] : List Nat).sum := by decide

end Sys2Proof.Tests
end

section
/-! The CRC7 unit (40_crc7.md): one round by its tested bit, the generator as eight rounds, and the ROM as what the
generator computes. -/

namespace Sys2Proof.Proofs.Crc7
open Sys2Proof.Machine

/-- R91: both branches of a round end in the shift. -/
theorem crc7Round_eq (v : Byte) :
    crc7Round v = if v.getLsbD 0 then (v ^^^ 0x91) >>> 1 else v >>> 1 :=
  apply_ite (fun u : Byte => u >>> 1) (v.getLsbD 0 = true) (v ^^^ crcPoly) v

/-- R91: the iterate of the generator, written out. -/
theorem crc7Byte_eq (v : Byte) :
    crc7Byte v = crc7Round (crc7Round (crc7Round (crc7Round
      (crc7Round (crc7Round (crc7Round (crc7Round v))))))) := rfl

/-- R92: the ROM holds what the generator computes. The ROM is a literal table, so its 256 entries are compared. -/
theorem crcTab_eq_crc7Byte (v : Byte) : crcTab v = crc7Byte v := by
  have h : ∀ i : Byte, crcTab i = crc7Byte i := by decide
  exact h v

/-- Settles O1: a round by its tested bit, the table through the generator, and the fold of an appended byte. -/
theorem checksumFoldsTheTable : Obligations.ChecksumFoldsTheTable :=
  ⟨crc7Round_eq, fun v => (crcTab_eq_crc7Byte v).trans (crc7Byte_eq v), crc7_nil, crc7_snoc⟩

end Sys2Proof.Proofs.Crc7
end

section
/-! The frame codec (41_frame_codec.md): `VERIFY` of an appended last byte, and what `DECODE` answers for a data-typed
sequence, for a control-typed one and for any other. -/

namespace Sys2Proof.Proofs.FrameCodec
open Sys2Proof.Machine

/-! ### `VERIFY` -/

@[simp] theorem verify_nil : verify [] = false := rfl

/-- R113: what an appended last byte is compared with. -/
@[simp] theorem verify_snoc (f : List Byte) (c : Byte) : verify (f ++ [c]) = (crc7 f == c) := by
  simp [verify]

/-! ### The control codes -/

/-- R63: the type byte of data frames is not a control code. -/
@[simp] theorem ctrlInstr_ftData : ctrlInstr ftData = none := by decide

theorem ne_ftData_of_ctrlInstr {t : Byte} {i : Instr} (h : ctrlInstr t = some i) : t ≠ ftData := by
  rintro rfl
  simp at h

/-- R63: the six control codes, each with its frame, and no other byte. -/
theorem ctrlInstr_eq_some_iff (t : Byte) (i : Instr) : ctrlInstr t = some i ↔
    (t = ftAck ∧ i = .ack) ∨ (t = ftNack ∧ i = .nack) ∨ (t = ftSeqBegin ∧ i = .seqBegin) ∨
    (t = ftSeqEnd ∧ i = .seqEnd) ∨ (t = ftSetSend ∧ i = .setSend) ∨ (t = ftSetRecv ∧ i = .setRecv) := by
  constructor
  · intro h
    unfold ctrlInstr at h
    split_ifs at h <;> cases h <;> simp [*]
  · rintro (⟨rfl, rfl⟩ | ⟨rfl, rfl⟩ | ⟨rfl, rfl⟩ | ⟨rfl, rfl⟩ | ⟨rfl, rfl⟩ | ⟨rfl, rfl⟩) <;> decide

/-! ### `DECODE`, by the type byte -/

/-- R114, the data arm: the length alone decides whether it is a data frame. -/
theorem decode_data (r : List Byte) : decode (.frame (ftData :: r)) =
    if (ftData :: r).length < 3 then .error .invalidFrame
    else .ok (.data (frameSeq (ftData :: r)) (framePayload (ftData :: r))) := by
  rw [decode, decodeFrame, if_pos rfl]

/-- R114, the control arm: the length alone decides whether it is a control frame. -/
theorem decode_ctrl {t : Byte} {i : Instr} (h : ctrlInstr t = some i) (r : List Byte) :
    decode (.frame (t :: r)) = if r.length = 1 then .ok i else .error .malformed := by
  simp [decode, decodeFrame, ne_ftData_of_ctrlInstr h, h]

/-- R114, the last arm: a type byte of neither kind. -/
theorem decode_unknown_type {t : Byte} (hd : t ≠ ftData) (hc : ctrlInstr t = none) (r : List Byte) :
    decode (.frame (t :: r)) = .error .malformed := by
  simp [decode, decodeFrame, hd, hc]

/-- R116: a data-typed sequence without room for a sequence number and a checksum. -/
theorem decode_data_short {f : List Byte} (ht : f.head? = some ftData) (hl : f.length < 3) :
    decode (.frame f) = .error .invalidFrame := by
  obtain ⟨r, rfl⟩ := List.head?_eq_some_iff.mp ht
  rw [decode_data, if_pos hl]

@[simp] theorem frameSeq_cons_cons (t s : Byte) (r : List Byte) : frameSeq (t :: s :: r) = s := rfl

/-- R115: the payload lies between the sequence number and the last byte. -/
@[simp] theorem framePayload_snoc (t s c : Byte) (p : List Byte) : framePayload (t :: s :: (p ++ [c])) = p :=
  congrArg (List.drop 2) (frameBody_snoc (t :: s :: p) c)

/-- R115: the fields of a data frame of full length. -/
theorem decode_data_fields (s c : Byte) (p : List Byte) :
    decode (.frame (ftData :: s :: (p ++ [c]))) = .ok (.data s p) := by
  rw [decode_data, if_neg (by simp), frameSeq_cons_cons, framePayload_snoc]

/-! ### The statements -/

/-- Settles O6: each clause is the arm of its type byte, at the lengths the clause names. -/
theorem decodeClassifiesFrames : Obligations.DecodeClassifiesFrames :=
  ⟨fun _ => decode_data_short, decode_data_fields, fun _ c _ h => decode_ctrl h [c],
    fun _ r _ h hl => (decode_ctrl h r).trans (if_neg hl), fun _ r hd hc => decode_unknown_type hd hc r,
    ctrlInstr_eq_some_iff⟩

/-- Settles O5: the comparison with an appended last byte, as an equation. -/
theorem verifyComparesTheLastByte : Obligations.VerifyComparesTheLastByte :=
  ⟨verify_nil, fun f c => by rw [verify_snoc, beq_iff_eq]⟩

end Sys2Proof.Proofs.FrameCodec
end

section
/-! The send path (42_send_path.md): the two transport calls in each case of the deadline and of the answer, and the
`WRITE` of a message that fits one frame. -/

namespace Sys2Proof.Proofs.SendPath
open Sys2Proof.Machine Sys2Proof.Safety

/-! ### `XmitOnce` -/

/-- R132: with time left, one call with the limit `Bound(t)`. -/
theorem xmitOnce_of_live {s : State} (t : Word) (live : expired s = false) :
    xmitOnce t s = .cont (decide (txOutcome s = .txOk (txfLen s))) (afterTx (bound t s) s) := by
  simp [xmitOnce_eq, live]

/-- R132: after the deadline, no call. -/
theorem xmitOnce_of_expired {s : State} (t : Word) (late : expired s = true) :
    xmitOnce t s = .halt (raiseError .timeout s) := by
  simp [xmitOnce_eq, late]

/-! ### `RecvOnce` -/

/-- R133: after the deadline, no call. -/
theorem recvOnce_of_expired {s : State} (t : Word) (late : expired s = true) :
    recvOnce t s = .halt (raiseError .timeout s) := by
  simp [recvOnce_eq, late]

/-- R133: a received frame goes to `RXF`. -/
theorem recvOnce_of_frame {s : State} (t : Word) {b : List Byte} (live : expired s = false)
    (rx : rxOutcome s = .rxOk b) : recvOnce t s = .cont (.rxOk b) (storeRx b (afterRx (bound t s) s)) := by
  simp [recvOnce_eq, live, rx]

/-- R133: an answer without a frame is handed on. -/
theorem recvOnce_of_nothing {s : State} (t : Word) (live : expired s = false) (rx : rxOutcome s = .rxNone) :
    recvOnce t s = .cont .rxNone (afterRx (bound t s) s) := by
  simp [recvOnce_eq, live, rx]

/-- R133: a read error ends the command, by the deadline as it stands after the call. -/
theorem recvOnce_of_error {s : State} (t : Word) (live : expired s = false) (rx : rxOutcome s = .rxError) :
    recvOnce t s = .halt (raiseError (if expired (afterRx (bound t s) s) then .timeout else .readFailed)
      (afterRx (bound t s) s)) := by
  simp [recvOnce_eq, live, rx]

/-! ### `WRITE` without a wait -/

/-- R137 steps 1 to 4 of an engine that is no `Receiver`: step 5 starts in the state `writing`. -/
theorem exec_write_sends {s : State} (len tmo : Word) (idle : s.busy = false) (role : s.mode ≠ .receiver) :
    exec (.write len tmo true) s = .next (sendMessage (writing len tmo s)) := by
  change Host.Outcome.next (accept cmdWrite len tmo true startWrite s) = _
  rw [accept_idle idle, startWrite_send (latch_bufv ..) role]
  rfl

/-- R138: a message of at most `MTU` bytes is one data frame with sequence number 1, and then the completion. -/
theorem exec_write_short {s : State} {len : Word} (tmo : Word) (idle : s.busy = false) (role : s.mode ≠ .receiver)
    (fits : len.toNat ≤ s.mtu.toNat) :
    exec (.write len tmo true) s =
      .next (sendThen (fun t => complete statusOk t.len (setOff t.len (setSeq 1 t)))
        (encData 1 (memReadBytes s.hbuf 0 len.toNat) (writing len tmo s))) := by
  rw [exec_write_sends len tmo idle role, sendMessage_short (s := writing len tmo s) fits]
  rfl

/-! ### The statements -/

/-- Settles O37: one `SendArq`, by its two outcomes. `LEN` stays as latched across the transmission, so the completion
counts the whole message; an `ACK` at the first attempt is a case of the acknowledged outcome. -/
theorem shortWriteSendsOneFrame : Obligations.ShortWriteSendsOneFrame := by
  intro s u len tmo idle role fits hu
  have sends : exec (.write len tmo true) s =
      .next (sendThen (fun t => complete statusOk t.len (setOff t.len (setSeq 1 t))) u) := by
    rw [hu]
    exact exec_write_short tmo idle role fits
  have acknowledged : ∀ t, sendArq u = .cont () t → exec (.write len tmo true) s = .next { t with
      seq := 1, off := len, status := 0x00, count := len, ph := .idle, busy := false } := by
    intro t ht
    have latched : t.len = len := (sendArq_message (.inl ht)).command.len.trans (congrArg State.len hu)
    rw [sends, sendThen_cont ht, ← latched]
    rfl
  refine ⟨fun t ht => ⟨?_, sendArq_message (.inr ht)⟩, fun t ht => ⟨sendArq_message (.inl ht), acknowledged t ht⟩,
    fun first => acknowledged _ (sendArq_first first)⟩
  rw [sends, sendThen_halt ht]

/-- Settles O23: the two cases of the deadline. -/
theorem transmissionIsOneBoundedCall : Obligations.TransmissionIsOneBoundedCall :=
  fun _ t => ⟨fun live => ⟨_, _, xmitOnce_of_live t live, decide_eq_true_iff, rfl⟩,
    fun late => ⟨_, xmitOnce_of_expired t late, ⟨rfl, rfl, rfl, rfl⟩, rfl⟩⟩

/-- Settles O24: the cases of the answer while time is left, a read error by the deadline after the call, and the deadline
before it. -/
theorem receptionIsOneBoundedCall : Obligations.ReceptionIsOneBoundedCall := by
  rintro s u t rfl
  refine ⟨fun live => ⟨fun b rx => ?frame, recvOnce_of_nothing t live, fun rx late => ?late, fun rx left => ?left⟩,
    recvOnce_of_expired t⟩
  case frame =>
    obtain ⟨nonempty, fits⟩ := rxOutcome_ok rx
    exact ⟨recvOnce_of_frame t live rx, List.length_pos_iff.mpr nonempty, fits⟩
  case late =>
    have hx : expired (afterRx (bound t s) s) = true := late
    rw [recvOnce_of_error t live rx, hx]
    rfl
  case left =>
    have hx : expired (afterRx (bound t s) s) = false := left
    rw [recvOnce_of_error t live rx, hx]
    rfl

end Sys2Proof.Proofs.SendPath
end

section
/-! The receive path (43_receive_path.md): what a turn of the receive loop does with a frame that is no instruction,
what each message frame comes to by the phase of the loop, and `Finalize`. -/

namespace Sys2Proof.Proofs.ReceivePath
open Sys2Proof.Machine Sys2Proof.Safety

/-! ### A frame that is no instruction -/

/-- R164: the checksum is looked at first. -/
theorem dispatchFrame_corrupted {s : State} (ver : verify s.rxf = false) :
    dispatchFrame s = .done (replyThen ftNack id (noteVerify s)) := by
  simp [dispatchFrame, ver]

/-- R178: the too-short data frame raises, and no reply is made. -/
theorem dispatchFrame_tooShort {s : State} (ver : verify s.rxf = true)
    (dec : decode (.frame s.rxf) = .error .invalidFrame) :
    dispatchFrame s = .done (raiseError .invalidFrame (noteVerify s)) := by
  simp [dispatchFrame, ver, dec]

/-- R177: a frame of no known form is left to `OnMalformed`. -/
theorem dispatchFrame_malformed {s : State} (ver : verify s.rxf = true)
    (dec : decode (.frame s.rxf) = .error .malformed) : dispatchFrame s = .done (onMalformed (noteVerify s)) := by
  simp [dispatchFrame, ver, dec]

/-- R162: the step is over where the dispatch of the received frame gives no instruction. -/
theorem step_of_dispatch_done {s t : State} {w : RecvPhase} {b : List Byte} (rx : Receives b w s)
    (ends : dispatchFrame (storeRx b (afterRx (bound tInf s) s)) = .done t) : step s = .next t := by
  simp [step, fetch_receives rx, ends]

/-- R177: the step that receives a malformed frame. -/
theorem step_malformed {s : State} {w : RecvPhase} {b : List Byte} (rx : Receives b w s) (ver : verify b = true)
    (dec : decode (.frame b) = .error .malformed) : step s = .next (onMalformed (received b s)) :=
  step_of_dispatch_done rx (dispatchFrame_malformed ver dec)

theorem onMalformed_nack {s : State} (h : s.pMalformed = .nack) : onMalformed s = replyThen ftNack id s := by
  simp [onMalformed, h]

theorem onMalformed_ack {s : State} (h : s.pMalformed = .ack) : onMalformed s = replyThen ftAck id s := by
  simp [onMalformed, h]

theorem onMalformed_raise {s : State} (h : s.pMalformed = .raise) : onMalformed s = raiseError .invalidFrame s := by
  simp [onMalformed, h]

/-! ### A step that only replies -/

/-- A step that is a reply and nothing else (R163) is in particular, when the reply is handed over at once, the step to
the replied state. -/
theorem replied_of_replyThen {o : Host.Outcome State Fault Refusal} {type : Byte} {s : State}
    (h : o = .next (replyThen type id s)) :
    o = .next (replyThen type id s) ∧ (HandsOver 2 s → o = .next (replied type s)) :=
  ⟨h, fun first => h.trans (congrArg _ (replyThen_first first))⟩

/-! ### The frames in each phase of the loop -/

theorem inRecvLoop_recv {k : RecvPhase → State → State} {s : State} {w : RecvPhase} (ph : s.ph = .recv w) :
    inRecvLoop k s = k w s := by
  simp [inRecvLoop, ph]

/-- R166. -/
theorem exec_ack {s : State} {w : RecvPhase} (ph : s.ph = .recv w) : exec .ack s = .next (replyThen ftAck id s) :=
  congrArg _ (inRecvLoop_recv ph)

/-- R167. -/
theorem exec_nack {s : State} {w : RecvPhase} (ph : s.ph = .recv w) : exec .nack s = .next (replyThen ftAck id s) :=
  congrArg _ (inRecvLoop_recv ph)

/-- R168. -/
theorem exec_seqBegin {s : State} {w : RecvPhase} (ph : s.ph = .recv w) : exec .seqBegin s = .next (onSeqBegin w s) :=
  congrArg _ (inRecvLoop_recv ph)

/-- R169. -/
theorem exec_seqEnd {s : State} {w : RecvPhase} (ph : s.ph = .recv w) : exec .seqEnd s = .next (onSeqEnd w s) :=
  congrArg _ (inRecvLoop_recv ph)

/-- R172. -/
theorem exec_data {s : State} {w : RecvPhase} (seq : Byte) (p : List Byte) (ph : s.ph = .recv w) :
    exec (.data seq p) s = .next (onData seq p w s) :=
  congrArg _ (inRecvLoop_recv ph)

/-! ### The sequence tests of a data frame -/

/-- R31 (a): the successor of `SEQ`, as the rules of R174 and R175 write it. -/
theorem eq_nextSeq_iff {s : State} {seq : Byte} : seq = nextSeq s ↔ seq.toNat = (s.seq.toNat + 1) % 256 := by
  rw [← BitVec.toNat_inj, nextSeq, BitVec.toNat_add]
  rfl

theorem nextSeq_ne_seq (s : State) : nextSeq s ≠ s.seq := by
  unfold nextSeq
  bv_omega

/-- R173: the duplicate. -/
theorem onData_duplicate {s : State} {seq : Byte} (p : List Byte) (dup : seq = s.seq) :
    onData seq p .msg s = replyThen ftAck id s := by
  simp [onData, isDuplicate, dup]

/-- R174: the frame out of order. -/
theorem onData_misordered {s : State} {seq : Byte} (p : List Byte) (other : seq ≠ s.seq) (skip : seq ≠ nextSeq s) :
    onData seq p .msg s = replyThen ftNack id s := by
  simp [onData, isDuplicate, isOutOfOrder, other, skip]

/-- R175: the next number passes both detectors. -/
theorem onData_next {s : State} {seq : Byte} (p : List Byte) (next : seq = nextSeq s) :
    onData seq p .msg s = acceptData seq p s := by
  simp [onData, isDuplicate, isOutOfOrder, next, nextSeq_ne_seq]

/-! ### `Finalize` -/

/-- R176: a message of at most `LEN` bytes is delivered. -/
theorem finalize_fits {s : State} (fits : s.rb.length ≤ s.len.toNat) :
    finalize s = complete statusOk (BitVec.ofNat 32 s.rb.length) (copyOut s) := by
  simp [finalize, overflows, rbLen, Nat.not_lt.mpr fits]

/-- R176: a longer one is not. -/
theorem finalize_overflows {s : State} (long : s.len.toNat < s.rb.length) :
    finalize s = raiseError .bufferOverflow s := by
  simp [finalize, overflows, rbLen, long]

/-! ### The append -/

/-- What is left of an accepted data frame once it is answered (R175): the append, and `Finalize` outside a bracket. -/
def appendData (p : List Byte) (t : State) : State :=
  if t.inseq then appendRb p t else finalize (appendRb p t)

/-- R175: `SEQ` first, then the reply, then the append. -/
theorem exec_data_next {s : State} {seq : Byte} (p : List Byte) (ph : s.ph = .recv .msg) (next : seq = nextSeq s) :
    exec (.data seq p) s = .next (replyThen ftAck (appendData p) (setSeq seq s)) :=
  (exec_data seq p ph).trans (congrArg _ (onData_next p next))

theorem appendData_inside {t : State} (p : List Byte) (inside : t.inseq = true) :
    appendData p t = appendRb p t := by
  simp [appendData, inside]

theorem appendData_outside {t : State} (p : List Byte) (outside : t.inseq = false) :
    appendData p t = finalize (appendRb p t) := by
  simp [appendData, outside]

/-! ### The statements -/

/-- Settles O17: the dispatch of a corrupted frame is a reply and nothing else, in either phase. -/
theorem corruptedFrameIsNacked : Obligations.CorruptedFrameIsNacked :=
  fun _ _ _ rx ver => replied_of_replyThen (step_of_dispatch_done rx (dispatchFrame_corrupted ver))

/-- Settles O18: the dispatch raises from the state the `RxCall` left. -/
theorem tooShortFrameEndsTheCommand : Obligations.TooShortFrameEndsTheCommand :=
  fun _ _ _ rx ver dec => step_of_dispatch_done rx (dispatchFrame_tooShort ver dec)

/-- Settles O19: the parameter is read after the `RxCall`, which leaves it as it was. -/
theorem malformedFrameFollowsTheParameter : Obligations.MalformedFrameFollowsTheParameter := by
  intro s w b rx ver dec
  have turn := step_malformed rx ver dec
  refine ⟨fun nack => ?_, fun ack => ?_, fun raise => ?_⟩
  · exact replied_of_replyThen (turn.trans (congrArg _ (onMalformed_nack nack)))
  · exact replied_of_replyThen (turn.trans (congrArg _ (onMalformed_ack ack)))
  · exact turn.trans (congrArg _ (onMalformed_raise raise))

/-- Settles O30: the arms of `ACK` and `NACK` do not look at the phase. -/
theorem ackAndNackAreAnsweredAck : Obligations.AckAndNackAreAnsweredAck := by
  intro s w ph
  obtain ⟨ack, ackSent⟩ := replied_of_replyThen (exec_ack ph)
  obtain ⟨nack, nackSent⟩ := replied_of_replyThen (exec_nack ph)
  exact ⟨ack, nack, fun first => ⟨ackSent first, nackSent first⟩⟩

/-- Settles O31: `INSEQ` does not bear on whether the reply is handed over. -/
theorem seqBeginOpensTheBracket : Obligations.SeqBeginOpensTheBracket :=
  fun _ => ⟨fun ph => replied_of_replyThen (exec_seqBegin ph), fun _ ph => replied_of_replyThen (exec_seqBegin ph)⟩

/-- Settles O32: `Finalize` on the replied state, by its two cases. -/
theorem seqEndFinalizesTheMessage : Obligations.SeqEndFinalizesTheMessage := by
  refine fun s => ⟨fun ph => ?_, fun _ ph => replied_of_replyThen (exec_seqEnd ph)⟩
  have sent (first : HandsOver 2 s) : exec .seqEnd s = .next (finalize (replied ftAck (setInseq false s))) :=
    (exec_seqEnd ph).trans (congrArg _ (replyThen_first (s := setInseq false s) first))
  refine ⟨exec_seqEnd ph, fun first fits => ?_, fun first long => ?_⟩
  · exact (sent first).trans (congrArg _ (finalize_fits fits))
  · exact (sent first).trans (congrArg _ (finalize_overflows long))

/-- Settles O33: the two detectors in phase `Msg`, and the phase alone while waiting. -/
theorem repeatedAndMisorderedDataChangeNothing : Obligations.RepeatedAndMisorderedDataChangeNothing := by
  intro s seq p
  refine ⟨fun ph dup => ?_, fun ph other skip => ?_, fun _ ph => ?_⟩
  · exact replied_of_replyThen ((exec_data seq p ph).trans (congrArg _ (onData_duplicate p dup)))
  · exact replied_of_replyThen
      ((exec_data seq p ph).trans (congrArg _ (onData_misordered p other (mt eq_nextSeq_iff.mp skip))))
  · exact replied_of_replyThen (exec_data seq p ph)

/-- Settles O34: the reply keeps `INSEQ`, `RB` and HBUF whether it is sent or ends the command; then the append by
`INSEQ`, and `Finalize` by its two cases. -/
theorem nextDataIsAppended : Obligations.NextDataIsAppended := by
  intro s seq p ph next
  have accepts := exec_data_next p ph (eq_nextSeq_iff.mpr next)
  have sent (first : HandsOver 2 s) : exec (.data seq p) s = .next (appendData p (replied ftAck (setSeq seq s))) :=
    accepts.trans (congrArg _ (replyThen_first (s := setSeq seq s) first))
  have closes (first : HandsOver 2 s) (outside : s.inseq = false) :
      exec (.data seq p) s = .next (finalize (appendRb p (replied ftAck (setSeq seq s)))) :=
    (sent first).trans (congrArg _ (appendData_outside p outside))
  refine ⟨fun t ended => ?ended, fun t went => ?went, fun first inside => ?inside,
    fun first outside fits => ?delivered, fun first outside long => ?overflow⟩
  case ended =>
    obtain ⟨-, ⟨hseq, hinseq, hrb⟩, -, hmem⟩ := reply_message (.inr ended)
    exact ⟨accepts.trans (congrArg _ (replyThen_halt ended)), hseq, hinseq, hrb, hmem⟩
  case went =>
    have kept : t.inseq = s.inseq := (reply_message (.inl went)).exchange.inseq
    rw [accepts, replyThen_cont (s := setSeq seq s) went, ← kept]
    rfl
  case inside => exact (sent first).trans (congrArg _ (appendData_inside p inside))
  case delivered => exact (closes first outside).trans (congrArg _ (finalize_fits fits))
  case overflow => exact (closes first outside).trans (congrArg _ (finalize_overflows long))

end Sys2Proof.Proofs.ReceivePath
end

section
/-! Role negotiation (44_mode_negotiation.md): the two negotiation frames, the two request commands, and which steps of
the machine move `MODE`. -/

namespace Sys2Proof.Proofs.Negotiation
open Sys2Proof.Machine Sys2Proof.Safety Sys2Proof.Proofs.FrameCodec Sys2Proof.Proofs.ReceivePath

/-! ### The negotiation frames -/

/-- R170, R171: both frames are `HandleSet`, each with its own target. -/
theorem exec_setFrame {s : State} {w : RecvPhase} (target : Role) (ph : s.ph = .recv w) :
    exec (setFrame target) s = .next (handleSet target w s) := by
  cases target <;> exact congrArg _ (inRecvLoop_recv ph)

/-- R206: what the policy refuses. -/
theorem refusesSet_iff {s : State} {target : Role} :
    refusesSet s target = true ↔ s.policy = .manual ∧ s.mode ≠ roleMode target := by
  simp [refusesSet]

/-- R206: what the policy lets through. -/
theorem refusesSet_eq_false_iff {s : State} {target : Role} :
    refusesSet s target = false ↔ s.policy = .auto ∨ s.mode = roleMode target := by
  cases hp : s.policy <;> simp [refusesSet, hp]

/-- R206: a refused frame is answered `NACK` and nothing else. -/
theorem handleSet_refused {s : State} {target : Role} (w : RecvPhase) (refused : refusesSet s target = true) :
    handleSet target w s = replyThen ftNack id s := if_pos refused

/-- R206: any other is answered `ACK`, and then applied. -/
theorem handleSet_obeyed {s : State} {target : Role} (w : RecvPhase) (obeyed : refusesSet s target = false) :
    handleSet target w s = replyThen ftAck (applySet target w) s := by
  simp [handleSet, obeyed]

/-- R206: a duplicate negotiation frame resets the exchange state and nothing else. -/
theorem applySet_duplicate {t : State} {target : Role} (w : RecvPhase) (same : t.mode = roleMode target) :
    applySet target w t = resetExchange t := if_pos same

/-- R206: any other flips the role, and the loop goes on or ends by the phase it was in. -/
theorem applySet_flips {t : State} {target : Role} (w : RecvPhase) (other : t.mode ≠ roleMode target) :
    applySet target w t = flipped target w t := by
  rw [applySet, if_neg other]
  match w with
  | .msg => rfl
  | .wait .receiver => rfl
  | .wait .sender => rfl

/-- Settles O35: the frame by what the policy says of it; one that is obeyed by the outcome of its reply, which keeps the
role that is then tested. -/
theorem negotiationFrameIsHandled : Obligations.NegotiationFrameIsHandled := by
  intro s w target ph
  have handled := exec_setFrame target ph
  refine ⟨fun manual other => ?refused, fun allowed => ?obeyed⟩
  case refused =>
    rw [handleSet_refused w (refusesSet_iff.mpr ⟨manual, other⟩)] at handled
    exact replied_of_replyThen handled
  case obeyed =>
    rw [handleSet_obeyed w (refusesSet_eq_false_iff.mpr allowed)] at handled
    have sent (first : HandsOver 2 s) : exec (setFrame target) s = .next (applySet target w (replied ftAck s)) :=
      handled.trans (congrArg _ (replyThen_first first))
    refine ⟨fun t ended => ?ended, fun t went => ?went, fun first same => ?duplicate, fun first other => ?flip⟩
    case ended =>
      have kept := reply_message (.inr ended)
      exact ⟨handled.trans (congrArg _ (replyThen_halt ended)), kept.exchange, kept.control.mode⟩
    case went =>
      have kept : t.mode = s.mode := (reply_message (.inl went)).control.mode
      rw [handled, replyThen_cont went, ← kept]
      split
      case isTrue same => exact congrArg _ (applySet_duplicate w same)
      case isFalse other => exact congrArg _ (applySet_flips w other)
    case duplicate => exact (sent first).trans (congrArg _ (applySet_duplicate w same))
    case flip => exact (sent first).trans (congrArg _ (applySet_flips w other))

/-! ### The request commands -/

/-- What is left of a request once it is acknowledged (R207, R208). -/
def takeRole (m : Mode) (t : State) : State := complete statusOk 0 (setMode m t)

/-- R207, R208 step 1. -/
theorem requestPeer_manual {s : State} (type : Byte) (m : Mode) (manual : s.policy = .manual) :
    requestPeer type m s = raiseError .incorrectMode s := if_pos manual

/-- R207, R208 steps 2 to 5. -/
theorem requestPeer_auto {s : State} (type : Byte) (m : Mode) (auto : s.policy = .auto) :
    requestPeer type m s = sendThen (takeRole m) (encCtrl type (resetExchange s)) := by
  rw [requestPeer, if_neg (by simp [auto])]
  rfl

/-- R226 (c): the refused request, from the idle engine. -/
theorem accept_requestPeer_manual {s : State} (cmd type : Byte) (m : Mode) (len tmo : Word) (v : Bool)
    (idle : s.busy = false) (manual : s.policy = .manual) :
    accept cmd len tmo v (requestPeer type m) s = { s with
      cmd := cmd, len := len, tmo := tmo, bufv := v, elapsed := 0
      status := 0x82, count := 0, ph := .idle, busy := false } :=
  (accept_idle idle).trans (requestPeer_manual (s := latch cmd len tmo v s) type m manual)

/-- R207, R208: the request under `Auto`, from the idle engine, is one `SendArq` in the state `requesting`. -/
theorem accept_requestPeer_auto {s : State} (cmd type : Byte) (m : Mode) (len tmo : Word) (v : Bool)
    (idle : s.busy = false) (auto : s.policy = .auto) :
    accept cmd len tmo v (requestPeer type m) s = sendThen (takeRole m) (requesting cmd type len tmo v s) :=
  (accept_idle idle).trans (requestPeer_auto (s := latch cmd len tmo v s) type m auto)

/-- R207, R208: the role by the outcomes of the one `SendArq`. -/
theorem takeRole_outcomes {o : Host.Outcome State Fault Refusal} {m : Mode} {s u : State} (role : u.mode = s.mode)
    (h : o = .next (sendThen (takeRole m) u)) :
    (∀ t, sendArq u = .halt t → o = .next t ∧ t.mode = s.mode) ∧
    (∀ t, sendArq u = .cont () t → o = .next (takeRole m t)) ∧ (FirstAcked u → o = .next (takeRole m (acked u))) := by
  refine ⟨fun t ended => ?_, fun t went => ?_, fun first => ?_⟩
  · exact ⟨h.trans (congrArg _ (sendThen_halt ended)), (sendArq_message (.inr ended)).control.mode.trans role⟩
  · exact h.trans (congrArg _ (sendThen_cont went))
  · exact h.trans (congrArg _ (sendThen_first first))

/-- Settles O43: both requests are the one operation, with their own code, frame and role. -/
theorem requestCommandsTakeTheRole : Obligations.RequestCommandsTakeTheRole := by
  intro s u len tmo v idle
  refine ⟨fun manual => ⟨?_, ?_⟩, ?_, ?_⟩
  · exact congrArg _ (accept_requestPeer_manual cmdReqPeerSend ftSetSend .receiver len tmo v idle manual)
  · exact congrArg _ (accept_requestPeer_manual cmdReqPeerRecv ftSetRecv .sender len tmo v idle manual)
  · rintro auto rfl
    exact takeRole_outcomes rfl
      (congrArg _ (accept_requestPeer_auto cmdReqPeerSend ftSetSend .receiver len tmo v idle auto))
  · rintro auto rfl
    exact takeRole_outcomes rfl
      (congrArg _ (accept_requestPeer_auto cmdReqPeerRecv ftSetRecv .sender len tmo v idle auto))

/-! ### What keeps `MODE` -/

/-- R163: an arm that replies moves `MODE` only by what follows the reply. -/
theorem replyThen_mode {type : Byte} {k : State → State} {s u : State} (kept : ∀ t, (k t).mode = t.mode)
    (before : u.mode = s.mode) : (replyThen type k u).mode = s.mode := by
  rw [← before]
  obtain ⟨t, -, ht, eq⟩ | ⟨e, v, -, hv, eq⟩ := replyThen_cases type k u
  · exact eq ▸ (kept t).trans ht.control.mode
  · exact eq ▸ hv.control.mode

/-- R134: a command that sends a frame moves `MODE` only by what follows its `ACK`. -/
theorem sendThen_mode {k : State → State} {s u : State} (kept : ∀ t, (k t).mode = t.mode)
    (before : u.mode = s.mode) : (sendThen k u).mode = s.mode := by
  rw [← before]
  obtain ⟨t, -, ht, eq⟩ | ⟨e, v, -, hv, eq⟩ := sendThen_cases k u
  · exact eq ▸ (kept t).trans ht.control.mode
  · exact eq ▸ hv.control.mode

theorem sendMessage_mode (s : State) : (sendMessage s).mode = s.mode := by
  unfold sendMessage
  split
  · exact sendThen_mode (fun _ => rfl) rfl
  · exact sendThen_mode (fun _ => rfl) rfl

theorem sendSegment_mode (s : State) : (sendSegment s).mode = s.mode := by
  unfold sendSegment
  split
  · exact sendThen_mode (fun _ => rfl) rfl
  · exact sendThen_mode (fun _ => rfl) rfl

theorem finalize_mode (s : State) : (finalize s).mode = s.mode := by
  unfold finalize
  split <;> rfl

theorem appendData_mode (p : List Byte) (t : State) : (appendData p t).mode = t.mode := by
  unfold appendData
  split
  · rfl
  · exact finalize_mode _

theorem onMalformed_mode (s : State) : (onMalformed s).mode = s.mode := by
  unfold onMalformed
  split
  · exact replyThen_mode (fun _ => rfl) rfl
  · exact replyThen_mode (fun _ => rfl) rfl
  · rfl

theorem onSeqBegin_mode (w : RecvPhase) (s : State) : (onSeqBegin w s).mode = s.mode := by
  cases w with
  | msg => exact replyThen_mode (fun _ => rfl) rfl
  | wait _ => exact replyThen_mode (fun _ => rfl) rfl

theorem onSeqEnd_mode (w : RecvPhase) (s : State) : (onSeqEnd w s).mode = s.mode := by
  cases w with
  | msg => exact replyThen_mode finalize_mode rfl
  | wait _ => exact replyThen_mode (fun _ => rfl) rfl

theorem onData_mode (seq : Byte) (p : List Byte) (w : RecvPhase) (s : State) : (onData seq p w s).mode = s.mode := by
  cases w with
  | wait _ => exact replyThen_mode (fun _ => rfl) rfl
  | msg =>
    unfold onData
    dsimp only
    split
    · exact replyThen_mode (fun _ => rfl) rfl
    · split
      · exact replyThen_mode (fun _ => rfl) rfl
      · exact replyThen_mode (appendData_mode p) rfl

theorem rejectWord_mode (w : HostWord) (s : State) : (rejectWord w s).mode = s.mode := by
  unfold rejectWord accept
  split <;> rfl

/-! ### The moves of `MODE` by a frame -/

theorem flipped_mode (target : Role) (w : RecvPhase) (t : State) : (flipped target w t).mode = roleMode target :=
  match w with
  | .msg => rfl
  | .wait .receiver => rfl
  | .wait .sender => rfl

/-- R206: the role after `HandleSet`. -/
theorem handleSet_mode (target : Role) (w : RecvPhase) (s : State) : (handleSet target w s).mode = s.mode ∨
    s.policy = .auto ∧ (handleSet target w s).mode = roleMode target := by
  cases refused : refusesSet s target with
  | true =>
    rw [handleSet_refused w refused]
    exact .inl (replyThen_mode (fun _ => rfl) rfl)
  | false =>
    rw [handleSet_obeyed w refused]
    obtain ⟨t, -, ht, eq⟩ | ⟨e, u, -, hu, eq⟩ := replyThen_cases ftAck (applySet target w) s
    · have kept : t.mode = s.mode := ht.control.mode
      by_cases same : t.mode = roleMode target
      · exact .inl (by rw [eq, applySet_duplicate w same, resetExchange_mode, kept])
      · have auto := (refusesSet_eq_false_iff.mp refused).resolve_right (kept ▸ same)
        exact .inr ⟨auto, by rw [eq, applySet_flips w same, flipped_mode]⟩
    · exact .inl (eq ▸ hu.control.mode)

/-- R206: the role after a negotiation frame. -/
theorem exec_setFrame_mode {s t : State} {w : RecvPhase} (target : Role) (ph : s.ph = .recv w)
    (run : exec (setFrame target) s = .next t) : t.mode = s.mode ∨ s.policy = .auto ∧ t.mode = roleMode target := by
  cases (exec_setFrame target ph).symm.trans run
  exact handleSet_mode target w s

/-- R166 to R175, R206: of the frames only the two negotiation frames move `MODE`, to their target and under `Auto`. -/
theorem exec_frame_mode {i : Instr} {s t : State} {w : RecvPhase} (ph : s.ph = .recv w) (frame : i.isFrame = true)
    (run : exec i s = .next t) :
    t.mode = s.mode ∨ ∃ target, i = setFrame target ∧ s.policy = .auto ∧ t.mode = roleMode target := by
  cases i with
  | ack => cases (exec_ack ph).symm.trans run; exact .inl (replyThen_mode (fun _ => rfl) rfl)
  | nack => cases (exec_nack ph).symm.trans run; exact .inl (replyThen_mode (fun _ => rfl) rfl)
  | seqBegin => cases (exec_seqBegin ph).symm.trans run; exact .inl (onSeqBegin_mode w s)
  | seqEnd => cases (exec_seqEnd ph).symm.trans run; exact .inl (onSeqEnd_mode w s)
  | data seq p => cases (exec_data seq p ph).symm.trans run; exact .inl (onData_mode seq p w s)
  | setSend => exact (exec_setFrame_mode .sender ph run).imp_right fun h => ⟨.sender, rfl, h⟩
  | setRecv => exact (exec_setFrame_mode .receiver ph run).imp_right fun h => ⟨.receiver, rfl, h⟩
  | write | read | reqPeerSend | reqPeerRecv => cases frame

/-- R77: what is decoded from the wire is a frame. -/
theorem isFrame_of_decode_frame {f : List Byte} {i : Instr} (dec : decode (.frame f) = .ok i) : i.isFrame = true := by
  cases f with
  | nil => cases dec
  | cons t r =>
    by_cases data : t = ftData
    · subst data
      rw [decode_data] at dec
      split at dec <;> cases dec
      rfl
    · cases code : ctrlInstr t with
      | none => rw [decode_unknown_type data code] at dec; cases dec
      | some c =>
        rw [decode_ctrl code] at dec
        split at dec <;> cases dec
        obtain ⟨-, rfl⟩ | ⟨-, rfl⟩ | ⟨-, rfl⟩ | ⟨-, rfl⟩ | ⟨-, rfl⟩ | ⟨-, rfl⟩ := (ctrlInstr_eq_some_iff t i).mp code
        all_goals rfl

/-- R162, R203, R204: an engine in a receive loop has a role. -/
theorem mode_ne_undefined_of_recv {s : State} {w : RecvPhase} (inv : Invariant s) (ph : s.ph = .recv w) :
    s.mode ≠ .undefined := by
  have role := inv.phase
  unfold phaseOk at role
  rw [ph] at role
  match w with
  | .msg => simp [role.2]
  | .wait .receiver => simp [role.2.1]
  | .wait .sender => simp [role.2.1]

/-! ### The moves of `MODE` by a host command -/

/-- R201, R137: `WRITE` moves `MODE` by its bootstrap alone. -/
theorem startWrite_mode (s : State) : (startWrite s).mode = s.mode ∨
    s.mode = .undefined ∧ s.bufv = true ∧ (startWrite s).mode = .sender := by
  cases buf : s.bufv with
  | false => exact .inl (startWrite_nobuf buf ▸ rfl)
  | true =>
    by_cases role : s.mode = .receiver
    · cases pol : s.policy with
      | auto => exact .inl (startWrite_wait buf role pol ▸ rfl)
      | manual => exact .inl (startWrite_mismatch buf role pol ▸ rfl)
    · have sender : (startWrite s).mode = .sender := startWrite_send buf role ▸ sendMessage_mode _
      cases old : s.mode with
      | undefined => exact .inr ⟨rfl, rfl, sender⟩
      | sender => exact .inl sender
      | receiver => exact absurd old role

/-- R201, R161: `READ` moves `MODE` by its bootstrap alone. -/
theorem startRead_mode (s : State) : (startRead s).mode = s.mode ∨
    s.mode = .undefined ∧ s.bufv = true ∧ (startRead s).mode = .receiver := by
  cases buf : s.bufv with
  | false => exact .inl (startRead_nobuf buf ▸ rfl)
  | true =>
    by_cases role : s.mode = .sender
    · cases pol : s.policy with
      | auto => exact .inl (startRead_wait buf role pol ▸ rfl)
      | manual => exact .inl (startRead_mismatch buf role pol ▸ rfl)
    · have receiver : (startRead s).mode = .receiver := startRead_listen buf role ▸ rfl
      cases old : s.mode with
      | undefined => exact .inr ⟨rfl, rfl, receiver⟩
      | sender => exact absurd old role
      | receiver => exact .inl receiver

/-- R207, R208: a request moves `MODE` when it completes `OK`. -/
theorem requestPeer_mode (type : Byte) (m : Mode) (s : State) : (requestPeer type m s).mode = s.mode ∨
    s.policy = .auto ∧ CompletedWith statusOk 0 (requestPeer type m s) ∧ (requestPeer type m s).mode = m := by
  cases pol : s.policy with
  | manual => exact .inl (requestPeer_manual type m pol ▸ rfl)
  | auto =>
    rw [requestPeer_auto type m pol]
    obtain ⟨t, -, -, eq⟩ | ⟨e, u, -, hu, eq⟩ := sendThen_cases (takeRole m) (encCtrl type (resetExchange s))
    · exact .inr ⟨rfl, eq ▸ ⟨rfl, rfl, rfl, rfl⟩, eq ▸ rfl⟩
    · exact .inl (eq ▸ hu.control.mode)

/-- R69: the four command codes, each with the command of the word's fields. -/
theorem decode_word_cases {w : HostWord} {i : Instr} (dec : decode (.word w) = .ok i) :
    (hostCmd w = cmdWrite ∧ i = .write (hostLen w) (hostTmo w) (hostBufv w)) ∨
    (hostCmd w = cmdRead ∧ i = .read (hostLen w) (hostTmo w) (hostBufv w)) ∨
    (hostCmd w = cmdReqPeerSend ∧ i = .reqPeerSend (hostLen w) (hostTmo w) (hostBufv w)) ∨
    (hostCmd w = cmdReqPeerRecv ∧ i = .reqPeerRecv (hostLen w) (hostTmo w) (hostBufv w)) := by
  simp only [decode, decodeWord] at dec
  split_ifs at dec <;> cases dec <;> simp [*]

/-- The causes a host command has to move `MODE` (R200): the bootstrap of an `Undefined` engine with a buffer, and an
acknowledged request under `Auto`. -/
theorem exec_command_mode {w : HostWord} {i : Instr} {s t : State} (dec : decode (.word w) = .ok i)
    (run : exec i s = .next t) (idle : s.busy = false) : t.mode = s.mode ∨
    (s.mode = .undefined ∧ hostBufv w = true ∧
      (hostCmd w = cmdWrite ∧ t.mode = .sender ∨ hostCmd w = cmdRead ∧ t.mode = .receiver)) ∨
    (s.policy = .auto ∧ CompletedWith statusOk 0 t ∧
      (hostCmd w = cmdReqPeerSend ∧ t.mode = .receiver ∨ hostCmd w = cmdReqPeerRecv ∧ t.mode = .sender)) := by
  obtain ⟨code, rfl⟩ | ⟨code, rfl⟩ | ⟨code, rfl⟩ | ⟨code, rfl⟩ := decode_word_cases dec
  all_goals
    cases run
    rw [accept_idle idle]
  · exact (startWrite_mode _).imp_right fun ⟨old, buf, new⟩ => .inl ⟨old, buf, .inl ⟨code, new⟩⟩
  · exact (startRead_mode _).imp_right fun ⟨old, buf, new⟩ => .inl ⟨old, buf, .inr ⟨code, new⟩⟩
  · exact (requestPeer_mode ..).imp_right fun ⟨auto, done, new⟩ => .inr ⟨auto, done, .inl ⟨code, new⟩⟩
  · exact (requestPeer_mode ..).imp_right fun ⟨auto, done, new⟩ => .inr ⟨auto, done, .inr ⟨code, new⟩⟩

/-- Settles O52: the ways a step can go. Only a host command, the host's reset and a received frame can move `MODE`. -/
theorem modeMovesOnlyByItsCauses : Obligations.ModeMovesOnlyByItsCauses := by
  intro s t inv hstep moved
  cases turn_of_step hstep with
  | reset ph host wf => exact .inl ⟨_, _, ph, host, rfl⟩
  | command ph host dec run =>
    obtain kept | ⟨old, buf, new⟩ | ⟨auto, done, new⟩ := exec_command_mode dec run (inv.busyPhase.mpr ph)
    · exact absurd kept moved
    · exact .inr (.inl ⟨_, _, ph, host, old, buf, new⟩)
    · exact .inr (.inr (.inl ⟨_, _, ph, host, auto, done.status, done.busy, new⟩))
  | frame rx ver dec run =>
    obtain kept | ⟨target, rfl, auto, new⟩ :=
      exec_frame_mode (s := received _ s) rx.phase (isFrame_of_decode_frame dec) run
    · exact absurd kept moved
    · exact .inr (.inr (.inr ⟨_, _, target, rx, auto, ver, dec, mode_ne_undefined_of_recv inv rx.phase, new⟩))
  | reserved => exact absurd (rejectWord_mode ..) moved
  | corrupted => exact absurd (replyThen_mode (fun _ => rfl) rfl) moved
  | malformed => exact absurd (onMalformed_mode _) moved
  | send => exact absurd (sendMessage_mode s) moved
  | segment => exact absurd (sendSegment_mode s) moved
  | rest | poke | deadline | nothing | readError | tooShort => exact absurd rfl moved

end Sys2Proof.Proofs.Negotiation
end

section
/-! Exceptions (60_exceptions.md): the parameter errors, which come before everything else, what no later step of a
command ends in, and the role mismatches under `Manual`. -/

namespace Sys2Proof.Proofs.Exceptions
open Sys2Proof.Machine Sys2Proof.Safety Sys2Proof.Proofs.ReceivePath Sys2Proof.Proofs.Negotiation

/-! ### The parameter errors -/

/-- R69: every code but the four is reserved. -/
theorem decode_word_reserved {w : HostWord} (write : hostCmd w ≠ cmdWrite) (read : hostCmd w ≠ cmdRead)
    (send : hostCmd w ≠ cmdReqPeerSend) (recv : hostCmd w ≠ cmdReqPeerRecv) :
    decode (.word w) = .error (.reservedCommand (hostCmd w)) := by
  simp [decode, decodeWord, write, read, send, recv]

/-- R68: a word that is no instruction is rejected by the step that takes it. -/
theorem step_rejectWord {s : State} {w : HostWord} {ms : List HostMove} {r : Reject} (ph : s.ph = .idle)
    (host : s.host = .command w :: ms) (dec : decode (.word w) = .error r) :
    step s = .next (rejectWord w (setHost ms s)) := by
  simp [step, fetch, ph, host, hostMove, dec]

/-- R225 (a): the rejected word is latched, and nothing else of the idle engine but the completion is written. -/
theorem rejectWord_idle {s : State} (w : HostWord) (idle : s.busy = false) :
    rejectWord w s = raiseError .incorrectParameter (latch (hostCmd w) (hostLen w) (hostTmo w) (hostBufv w) s) :=
  accept_idle idle

/-! ### A command that ends otherwise -/

/-- The command goes on, or has ended with a status other than `IncorrectParameter`. -/
def NoParameterError (t : State) : Prop := t.busy = false → t.status ≠ errorCode .incorrectParameter

theorem noParameterError_of_busy {t : State} (busy : t.busy = true) : NoParameterError t :=
  fun ended => absurd (busy.symm.trans ended) (by decide)

theorem noParameterError_raiseError {e : ErrorKind} (other : e ≠ .incorrectParameter) (s : State) :
    NoParameterError (raiseError e s) :=
  fun _ same => other (errorCode_injective same)

theorem noParameterError_complete {status : Byte} (n : Word) (s : State)
    (other : status ≠ errorCode .incorrectParameter) : NoParameterError (complete status n s) :=
  fun _ => other

theorem ne_incorrectParameter_of_transportError {e : ErrorKind} (he : TransportError e) :
    e ≠ .incorrectParameter := by
  obtain rfl | rfl | rfl := he
  all_goals decide

/-- R163: a running command that replies ends otherwise, if what follows the reply does. -/
theorem noParameterError_replyThen {type : Byte} {k : State → State} {s : State} (busy : s.busy = true)
    (rest : ∀ t, t.busy = true → NoParameterError (k t)) : NoParameterError (replyThen type k s) := by
  obtain ⟨t, -, ht, eq⟩ | ⟨e, u, he, -, eq⟩ := replyThen_cases type k s
  · exact eq ▸ rest t (ht.progress.busy.trans busy)
  · exact eq ▸ noParameterError_raiseError (ne_incorrectParameter_of_transportError he) u

/-- R134, R144: a running command that sends a frame ends otherwise, if what follows the `ACK` does. -/
theorem noParameterError_sendThen {k : State → State} {s : State} (busy : s.busy = true)
    (rest : ∀ t, t.busy = true → NoParameterError (k t)) : NoParameterError (sendThen k s) := by
  obtain ⟨t, -, ht, eq⟩ | ⟨e, u, he, -, eq⟩ := sendThen_cases k s
  · exact eq ▸ rest t (ht.progress.busy.trans busy)
  · exact eq ▸ noParameterError_raiseError (ne_incorrectParameter_of_transportError he) u

/-- A frame that is answered and nothing else (R163). -/
theorem noParameterError_reply {type : Byte} {s : State} (busy : s.busy = true) :
    NoParameterError (replyThen type id s) :=
  noParameterError_replyThen busy fun _ => noParameterError_of_busy

/-! ### The send path -/

theorem noParameterError_sendMessage {s : State} (busy : s.busy = true) : NoParameterError (sendMessage s) := by
  unfold sendMessage
  split
  · exact noParameterError_sendThen busy fun t _ => noParameterError_complete t.len _ (by decide)
  · exact noParameterError_sendThen busy fun _ => noParameterError_of_busy

theorem noParameterError_sendSegment {s : State} (busy : s.busy = true) : NoParameterError (sendSegment s) := by
  unfold sendSegment
  split
  · exact noParameterError_sendThen busy fun _ => noParameterError_of_busy
  · exact noParameterError_sendThen busy fun t _ => noParameterError_complete t.len _ (by decide)

/-! ### The receive path -/

theorem noParameterError_finalize (s : State) : NoParameterError (finalize s) := by
  unfold finalize
  split
  · exact noParameterError_raiseError (by decide) s
  · exact noParameterError_complete _ _ (by decide)

theorem noParameterError_appendData (p : List Byte) {t : State} (busy : t.busy = true) :
    NoParameterError (appendData p t) := by
  unfold appendData
  split
  · exact noParameterError_of_busy busy
  · exact noParameterError_finalize _

theorem noParameterError_onMalformed {s : State} (busy : s.busy = true) : NoParameterError (onMalformed s) := by
  unfold onMalformed
  split
  · exact noParameterError_reply busy
  · exact noParameterError_reply busy
  · exact noParameterError_raiseError (by decide) s

theorem noParameterError_onSeqBegin (w : RecvPhase) {s : State} (busy : s.busy = true) :
    NoParameterError (onSeqBegin w s) := by
  cases w with
  | msg => exact noParameterError_reply busy
  | wait _ => exact noParameterError_reply busy

theorem noParameterError_onSeqEnd (w : RecvPhase) {s : State} (busy : s.busy = true) :
    NoParameterError (onSeqEnd w s) := by
  cases w with
  | msg => exact noParameterError_replyThen busy fun t _ => noParameterError_finalize t
  | wait _ => exact noParameterError_reply busy

theorem noParameterError_onData (seq : Byte) (p : List Byte) (w : RecvPhase) {s : State} (busy : s.busy = true) :
    NoParameterError (onData seq p w s) := by
  cases w with
  | wait _ => exact noParameterError_reply busy
  | msg =>
    unfold onData
    dsimp only
    split
    · exact noParameterError_reply busy
    · split
      · exact noParameterError_reply busy
      · exact noParameterError_replyThen busy fun _ => noParameterError_appendData p

/-- R206: a flip ends a plain `READ` with `MODE_SWITCHED`, and ends no other command. -/
theorem noParameterError_flipped (target : Role) (w : RecvPhase) {t : State} (busy : t.busy = true) :
    NoParameterError (flipped target w t) :=
  match w with
  | .msg => fun _ => (by decide : statusModeSwitched ≠ errorCode .incorrectParameter)
  | .wait .receiver => noParameterError_of_busy busy
  | .wait .sender => noParameterError_of_busy busy

theorem noParameterError_applySet (target : Role) (w : RecvPhase) {t : State} (busy : t.busy = true) :
    NoParameterError (applySet target w t) := by
  by_cases same : t.mode = roleMode target
  · exact applySet_duplicate w same ▸ noParameterError_of_busy busy
  · exact applySet_flips w same ▸ noParameterError_flipped target w busy

theorem noParameterError_handleSet (target : Role) (w : RecvPhase) {s : State} (busy : s.busy = true) :
    NoParameterError (handleSet target w s) := by
  unfold handleSet
  split
  · exact noParameterError_reply busy
  · exact noParameterError_replyThen busy fun _ => noParameterError_applySet target w

/-- R166 to R175, R206: no frame ends the command it arrives in with `IncorrectParameter`. -/
theorem noParameterError_of_exec_frame {i : Instr} {s t : State} {w : RecvPhase} (ph : s.ph = .recv w)
    (busy : s.busy = true) (frame : i.isFrame = true) (run : exec i s = .next t) : NoParameterError t := by
  cases i with
  | ack => cases (exec_ack ph).symm.trans run; exact noParameterError_reply busy
  | nack => cases (exec_nack ph).symm.trans run; exact noParameterError_reply busy
  | seqBegin => cases (exec_seqBegin ph).symm.trans run; exact noParameterError_onSeqBegin w busy
  | seqEnd => cases (exec_seqEnd ph).symm.trans run; exact noParameterError_onSeqEnd w busy
  | data seq p => cases (exec_data seq p ph).symm.trans run; exact noParameterError_onData seq p w busy
  | setSend => cases (exec_setFrame .sender ph).symm.trans run; exact noParameterError_handleSet .sender w busy
  | setRecv => cases (exec_setFrame .receiver ph).symm.trans run; exact noParameterError_handleSet .receiver w busy
  | write | read | reqPeerSend | reqPeerRecv => cases frame

/-! ### The host commands -/

/-- R225 (b): the buffer is the one parameter of `WRITE` that is tested. -/
theorem noParameterError_startWrite {s : State} (busy : s.busy = true) (buf : s.bufv = true) :
    NoParameterError (startWrite s) := by
  by_cases role : s.mode = .receiver
  · cases pol : s.policy with
    | auto => exact startWrite_wait buf role pol ▸ noParameterError_of_busy busy
    | manual => exact startWrite_mismatch buf role pol ▸ noParameterError_raiseError (by decide) _
  · exact startWrite_send buf role ▸ noParameterError_sendMessage busy

/-- R225 (b): and so it is of `READ`. -/
theorem noParameterError_startRead {s : State} (busy : s.busy = true) (buf : s.bufv = true) :
    NoParameterError (startRead s) := by
  by_cases role : s.mode = .sender
  · cases pol : s.policy with
    | auto => exact startRead_wait buf role pol ▸ noParameterError_of_busy busy
    | manual => exact startRead_mismatch buf role pol ▸ noParameterError_raiseError (by decide) _
  · exact startRead_listen buf role ▸ noParameterError_of_busy busy

/-! ### A step of a running command -/

/-- R225: the parameters are tested at acceptance only. -/
theorem noParameterError_of_turn {s t : State} (busy : s.busy = true) (running : s.ph ≠ .idle) (turn : Turn s t) :
    NoParameterError t := by
  cases turn with
  | rest ph | command ph | reserved ph | poke ph | reset ph => exact absurd ph running
  | deadline => exact noParameterError_raiseError (by decide) s
  | nothing => exact noParameterError_of_busy busy
  | readError =>
    refine noParameterError_raiseError ?_ _
    split <;> decide
  | corrupted => exact noParameterError_reply busy
  | frame rx _ dec run =>
    exact noParameterError_of_exec_frame (s := received _ s) rx.phase busy (isFrame_of_decode_frame dec) run
  | tooShort => exact noParameterError_raiseError (by decide) _
  | malformed => exact noParameterError_onMalformed busy
  | send => exact noParameterError_sendMessage busy
  | segment => exact noParameterError_sendSegment busy

/-! ### The statements -/

/-- Settles O16: a reserved word is rejected as it is taken and a missing buffer is the first test of `WRITE` and `READ`;
with a buffer every way on, and by the invariant every step of a running command, ends otherwise. -/
theorem incorrectParameterComesFirst : Obligations.IncorrectParameterComesFirst := by
  refine ⟨fun s w ms ph idle host ⟨write, read, send, recv⟩ => ?reserved, fun s len tmo idle => ⟨?write, ?read⟩,
    fun s t len tmo idle run => ?accepted, fun s t inv running hstep => ?later⟩
  case reserved =>
    exact (step_rejectWord ph host (decode_word_reserved write read send recv)).trans
      (congrArg _ (rejectWord_idle (s := setHost ms s) w idle))
  case write =>
    exact congrArg _ ((accept_idle idle).trans (startWrite_nobuf (s := latch cmdWrite len tmo false s) rfl))
  case read =>
    exact congrArg _ ((accept_idle idle).trans (startRead_nobuf (s := latch cmdRead len tmo false s) rfl))
  case accepted =>
    obtain run | run := run
    all_goals
      cases run
      rw [accept_idle idle]
    · exact noParameterError_startWrite rfl rfl
    · exact noParameterError_startRead rfl rfl
  case later =>
    have busy : s.busy = true := Bool.eq_true_of_not_eq_false (mt inv.busyPhase.mp running)
    exact noParameterError_of_turn busy running (turn_of_step hstep)

/-- Settles O42: the mismatch of `WRITE` and of `READ` is found once the exchange state is reset, the requests are refused
at once. -/
theorem manualMismatchIsIncorrectMode : Obligations.ManualMismatchIsIncorrectMode := by
  intro s len tmo v idle manual
  refine ⟨fun role => ?_, fun role => ?_, ?_, ?_⟩
  · exact congrArg _
      ((accept_idle idle).trans (startWrite_mismatch (s := latch cmdWrite len tmo true s) rfl role manual))
  · exact congrArg _
      ((accept_idle idle).trans (startRead_mismatch (s := latch cmdRead len tmo true s) rfl role manual))
  · exact congrArg _ (accept_requestPeer_manual cmdReqPeerSend ftSetSend .receiver len tmo v idle manual)
  · exact congrArg _ (accept_requestPeer_manual cmdReqPeerRecv ftSetRecv .sender len tmo v idle manual)

end Sys2Proof.Proofs.Exceptions
end

section
/-! Reset (70_reset_and_hazards.md): the registers the reset table lists, and the idle engine at rest. -/

namespace Sys2Proof.Proofs.Reset
open Sys2Proof.Machine Sys2Proof.Proofs.Crc7

/-- R241: an idle engine to which the host presents nothing stays as it is. -/
theorem step_rest {s : State} (ph : s.ph = .idle) (host : s.host = []) : step s = .next s := by
  simp only [step, fetch, ph, host]

/-- Settles O11: a register's row is its field of the reset record, and a buffer's length that of the empty list; the ROM
is what the generator computes, and the record is idle with no host move. -/
theorem resetLeavesTheTableOfValues : Obligations.ResetLeavesTheTableOfValues := by
  rintro c _ rfl
  have rest : step (State.resetWith c) = .next (State.resetWith c) := step_rest rfl rfl
  exact ⟨rfl, rfl, rfl, rfl, rfl, rfl, rfl, rfl, rfl, rfl, rfl, rfl, rfl, rfl, rfl, rfl, rfl, rfl, rfl, rfl, rfl, rfl,
    crcTab_eq_crc7Byte, rest⟩

end Sys2Proof.Proofs.Reset
end

section
/-! The checksum as a linear map (40_crc7.md section 4): one round of the generator and so the table are linear over
exclusive-or, and what the table's kernel says of equal entries and of the residue of a buffer. -/

namespace Sys2Proof.Proofs.ChecksumLinearity
open Sys2Proof.Machine Sys2Proof.Proofs.Crc7 Sys2Proof.Proofs.FrameCodec

/-! ### Linearity -/

/-- R91: whether a round adds the polynomial is the exclusive-or of what it does for each of the two bytes. -/
theorem crc7Round_xor (a b : Byte) : crc7Round (a ^^^ b) = crc7Round a ^^^ crc7Round b := by
  cases ha : a.getLsbD 0 <;> cases hb : b.getLsbD 0
  all_goals
    simp only [crc7Round, BitVec.getLsbD_xor, ha, hb, ← BitVec.ushiftRight_xor_distrib]
    congr 1
  · simp [BitVec.xor_assoc]
  · simp [BitVec.xor_assoc, BitVec.xor_comm b crcPoly]
  · have cancel : crcPoly ^^^ (b ^^^ crcPoly) = b := by
      rw [BitVec.xor_comm b, ← BitVec.xor_assoc, BitVec.xor_self, BitVec.zero_xor]
    simp [BitVec.xor_assoc, cancel]

/-- R91, R92: the table is the round iterated, and so linear too. -/
theorem crcTab_xor (a b : Byte) : crcTab (a ^^^ b) = crcTab a ^^^ crcTab b := by
  simp only [crcTab_eq_crc7Byte, crc7Byte_eq, crc7Round_xor]

/-- R95: the kernel of the table. The ROM is a literal table, so its 256 entries are looked at. -/
theorem crcTab_eq_zero_iff (v : Byte) : crcTab v = 0 ↔ v = 0 ∨ v = 0x91 := by
  have h : ∀ v : Byte, crcTab v = 0 ↔ v = 0 ∨ v = 0x91 := by decide
  exact h v

theorem crcTab_eq_iff (a b : Byte) : crcTab a = crcTab b ↔ a = b ∨ a ^^^ b = 0x91 := by
  rw [← BitVec.xor_eq_zero_iff, ← crcTab_xor]
  exact (crcTab_eq_zero_iff _).trans (or_congr_left BitVec.xor_eq_zero_iff)

/-- Settles O3: linearity, and the kernel of the table. -/
theorem checksumTableIsLinear : Obligations.ChecksumTableIsLinear :=
  fun a b => ⟨crcTab_xor a b, crcTab_eq_iff a b⟩

/-! ### The range of a checksum -/

/-- Settles O2: a checksum has seven bits, so a last byte of eight is none. -/
theorem checksumIsSevenBitsWide : Obligations.ChecksumIsSevenBitsWide := by
  intro f c
  have narrow := crc7_lt f
  refine ⟨Nat.le_of_lt_succ narrow, fun wide => ?_⟩
  rw [verify_snoc, beq_eq_false_iff_ne]
  rintro rfl
  exact absurd narrow (Nat.not_lt.mpr wide)

/-! ### The residue -/

/-- Exclusive-or with a byte undoes itself. -/
theorem xor_eq_iff_eq_xor (a c k : Byte) : a ^^^ c = k ↔ c = a ^^^ k := by
  rw [← BitVec.xor_right_inj a, ← BitVec.xor_assoc, BitVec.xor_self, BitVec.zero_xor]

/-- R96: the residue by the exclusive-or of the checksum with the last byte. -/
theorem residue_eq_zero_iff (b : List Byte) (c : Byte) :
    crc7 (b ++ [c]) = 0 ↔ c = crc7 b ∨ c = crc7 b ^^^ 0x91 := by
  rw [crc7_snoc, crcTab_eq_zero_iff, xor_eq_iff_eq_xor, xor_eq_iff_eq_xor]
  simp

/-- R96: no byte is its own exclusive-or with 0x91. -/
theorem verify_snoc_xor_poly (b : List Byte) : verify (b ++ [crc7 b ^^^ 0x91]) = false := by
  rw [verify_snoc, beq_eq_false_iff_ne, ne_eq, eq_comm, xor_eq_iff_eq_xor, BitVec.xor_self]
  decide

/-- Settles O4: the two last bytes with residue 0, of which the sealing one is the first. -/
theorem residueIsWeakerThanVerify : Obligations.ResidueIsWeakerThanVerify :=
  fun b c => ⟨(residue_eq_zero_iff b (crc7 b)).mpr (.inl rfl), residue_eq_zero_iff b c, verify_snoc_xor_poly b⟩

end Sys2Proof.Proofs.ChecksumLinearity
end

section
/-! Decoding against encoding (41_frame_codec.md section 5, 30_encoding.md sections 1 and 2): what `DECODE` accepts,
taken apart by its format, and the two round trips. -/

namespace Sys2Proof.Proofs.RoundTrip
open Sys2Proof.Machine Sys2Proof.Proofs.FrameCodec Sys2Proof.Proofs.Negotiation

/-! ### Sealed frames -/

/-- R113: a sealed buffer verifies. -/
@[simp] theorem verify_sealFrame (b : List Byte) : verify (sealFrame b) = true := by
  simp [sealFrame]

/-- R113: a verified buffer is sealed. -/
theorem snoc_eq_sealFrame_of_verify {b : List Byte} {c : Byte} (ver : verify (b ++ [c]) = true) :
    b ++ [c] = sealFrame b := by
  rw [verify_snoc, beq_iff_eq] at ver
  rw [sealFrame, ver]

/-! ### What `DECODE` answers -/

/-- R111: the frame of a control code is what its instruction is encoded as. -/
theorem encode_ctrlInstr {t : Byte} {i : Instr} (code : ctrlInstr t = some i) : encode i = .frame (ctrlFrame t) := by
  obtain ⟨rfl, rfl⟩ | ⟨rfl, rfl⟩ | ⟨rfl, rfl⟩ | ⟨rfl, rfl⟩ | ⟨rfl, rfl⟩ | ⟨rfl, rfl⟩ :=
    (ctrlInstr_eq_some_iff t i).mp code
  all_goals rfl

/-- R114: the two formats of a frame that is decoded. -/
theorem decode_frame_cases {f : List Byte} {i : Instr} (dec : decode (.frame f) = .ok i) :
    (∃ s c p, f = ftData :: s :: p ++ [c] ∧ i = .data s p) ∨ ∃ t c, f = [t] ++ [c] ∧ ctrlInstr t = some i := by
  cases f with
  | nil => cases dec
  | cons t r =>
    by_cases data : t = ftData
    · subst data
      match r with
      | [] => cases dec
      | [_] => cases dec
      | s :: x :: r =>
        have rest := (List.dropLast_append_getLast (List.cons_ne_nil x r)).symm
        rw [rest, decode_data_fields] at dec
        cases dec
        exact .inl ⟨s, _, _, congrArg (ftData :: s :: ·) rest, rfl⟩
    · cases code : ctrlInstr t with
      | none => rw [decode_unknown_type data code] at dec; cases dec
      | some j =>
        rw [decode_ctrl code] at dec
        split at dec <;> cases dec
        next single =>
          obtain ⟨c, rfl⟩ := List.length_eq_one_iff.mp single
          exact .inr ⟨t, c, rfl, code⟩

/-- R116: the two shapes of a too-short data frame. -/
theorem eq_of_decode_invalidFrame {f : List Byte} (dec : decode (.frame f) = .error .invalidFrame) :
    f = [] ++ [ftData] ∨ ∃ c, f = [ftData] ++ [c] := by
  cases f with
  | nil => cases dec
  | cons t r =>
    by_cases data : t = ftData
    · subst data
      match r with
      | [] => exact .inl rfl
      | [c] => exact .inr ⟨c, rfl⟩
      | _ :: _ :: _ => cases dec
    · cases code : ctrlInstr t with
      | none => rw [decode_unknown_type data code] at dec; cases dec
      | some j => rw [decode_ctrl code] at dec; split at dec <;> cases dec

/-- Settles O7: of the two shapes of a too-short data frame the one-byte one never verifies, and the other does with one
last byte. -/
theorem oneTooShortFrameVerifies : Obligations.OneTooShortFrameVerifies := by
  intro f
  constructor
  · rintro ⟨ver, dec⟩
    obtain rfl | ⟨c, rfl⟩ := eq_of_decode_invalidFrame dec
    · exact absurd ver (by decide)
    · exact snoc_eq_sealFrame_of_verify ver
  · rintro rfl
    exact ⟨by decide, rfl⟩

/-! ### Command words -/

/-- R68: the four fields are the whole word. -/
theorem hostWord_fields (w : HostWord) : hostWord (hostCmd w) (hostLen w) (hostTmo w) (hostBufv w) = w := by
  refine BitVec.eq_of_getLsbD_eq fun i hi => ?_
  rw [hostWord_bit]
  split_ifs with cmd len tmo
  · simp [hostCmd, cmd]
  · simp [hostLen, len, show 8 + (i - 8) = i by omega]
  · simp [hostTmo, tmo, show 40 + (i - 8 - 32) = i by omega]
  · obtain rfl : i = 72 := by omega
    simp [hostBufv]

/-! ### The round trips -/

/-- R120: every instruction decodes from what it is encoded as. -/
theorem decode_encode (i : Instr) : decode (encode i) = .ok i := by
  cases i with
  | data seq p => exact decode_data_fields seq _ p
  | write len tmo v => simp [encode, decode, decodeWord]
  | read len tmo v => simp [encode, decode, decodeWord, show cmdRead ≠ cmdWrite by decide]
  | reqPeerSend len tmo v =>
    simp [encode, decode, decodeWord, show cmdReqPeerSend ≠ cmdWrite by decide,
      show cmdReqPeerSend ≠ cmdRead by decide]
  | reqPeerRecv len tmo v =>
    simp [encode, decode, decodeWord, show cmdReqPeerRecv ≠ cmdWrite by decide,
      show cmdReqPeerRecv ≠ cmdRead by decide, show cmdReqPeerRecv ≠ cmdReqPeerSend by decide]
  | ack | nack | seqBegin | seqEnd | setSend | setRecv => rfl

/-- R111, R112: an encoded frame is sealed, and as long as its format says. -/
theorem encode_frame_sealed {mtu : Word} {i : Instr} {f : List Byte} (wf : i.WellFormed mtu)
    (enc : encode i = .frame f) : ∃ b, f = sealFrame b ∧ b.length ≤ mtu.toNat + 2 := by
  cases i with
  | data seq p =>
    cases enc
    have fits : p.length ≤ mtu.toNat := of_decide_eq_true wf
    exact ⟨ftData :: seq :: p, rfl, Nat.add_le_add_right fits 2⟩
  | ack | nack | seqBegin | seqEnd | setSend | setRecv => cases enc; exact ⟨[_], rfl, by simp⟩
  | write | read | reqPeerSend | reqPeerRecv => cases enc

/-- Settles O8: the round trip, and the seal of an encoded frame. -/
theorem decodeInvertsEncode : Obligations.DecodeInvertsEncode := by
  refine fun mtu i wf => ⟨decode_encode i, fun f enc => ?_⟩
  obtain ⟨b, rfl, fits⟩ := encode_frame_sealed wf enc
  exact ⟨verify_sealFrame b, by rw [sealFrame_length]; omega⟩

/-- R120: a verified frame is what its instruction is encoded as. -/
theorem encode_of_decode_frame {f : List Byte} {i : Instr} (ver : verify f = true)
    (dec : decode (.frame f) = .ok i) : encode i = .frame f := by
  obtain ⟨s, c, p, rfl, rfl⟩ | ⟨t, c, rfl, code⟩ := decode_frame_cases dec
  · rw [snoc_eq_sealFrame_of_verify ver]; rfl
  · rw [snoc_eq_sealFrame_of_verify ver]; exact encode_ctrlInstr code

/-- R68, R69: a command word is what its instruction is encoded as. -/
theorem encode_of_decode_word {w : HostWord} {i : Instr} (dec : decode (.word w) = .ok i) : encode i = .word w := by
  have whole := hostWord_fields w
  obtain ⟨code, rfl⟩ | ⟨code, rfl⟩ | ⟨code, rfl⟩ | ⟨code, rfl⟩ := decode_word_cases dec
  all_goals
    rw [code] at whole
    exact congrArg Raw.word whole

/-- Settles O9: a frame by its two formats, a word by its four codes. -/
theorem encodeInvertsDecode : Obligations.EncodeInvertsDecode :=
  ⟨fun _ _ => encode_of_decode_frame, fun _ _ => encode_of_decode_word⟩

/-- Settles O10: the words are literals, and each decodes by evaluation. -/
theorem wordsReadAsTheTablesSay : Obligations.WordsReadAsTheTablesSay := by
  unfold Obligations.WordsReadAsTheTablesSay
  decide

end Sys2Proof.Proofs.RoundTrip
end

section
/-! What a running command can do, said once for the frames, the host commands and the sending steps: which registers
are written before the one frame that is transmitted, what the transmission leaves alone, and what follows it. -/

namespace Sys2Proof.Proofs.Reactions
open Sys2Proof.Machine Sys2Proof.Safety Sys2Proof.Proofs.ReceivePath Sys2Proof.Proofs.Negotiation

/-! ### What is sound in every phase -/

/-- The clauses of the machine invariant that do not speak of the phase, of the six registers they speak of: a write to
any other register leaves them the same proposition. -/
structure SoundRegisters (mtu : Word) (hbuf : List Host.Cell) (attempt : BitVec 3) (txf rxf : List Byte)
    (crcacc : Byte) : Prop where
  mtuLow : 1 ≤ mtu.toNat
  mtuHigh : mtu.toNat ≤ 2 ^ 32 - 4
  memory : memWf hbuf = true
  attempts : attempt.toNat ≤ nAttempts
  txFits : txf.length ≤ mtu.toNat + 3
  rxFits : rxf.length ≤ mtu.toNat + 3
  crcRange : crcacc.toNat < 128

abbrev Sound (s : State) : Prop := SoundRegisters s.mtu s.hbuf s.attempt s.txf s.rxf s.crcacc

theorem sound_of_invariant {s : State} (inv : Invariant s) : Sound s :=
  ⟨inv.mtuLow, inv.mtuHigh, inv.memory, inv.attempts, inv.txFits, inv.rxFits, inv.crcRange⟩

theorem Sound.encCtrl {s : State} (h : Sound s) (type : Byte) : Sound (encCtrl type s) :=
  ⟨h.mtuLow, h.mtuHigh, h.memory, h.attempts, Nat.le_add_left 2 (s.mtu.toNat + 1), h.rxFits, crc7_lt _⟩

/-- R112: a payload of at most `MTU` bytes makes a frame of at most `RX_MAX`. -/
theorem Sound.encData {s : State} (h : Sound s) (seq : Byte) {p : List Byte} (fits : p.length ≤ s.mtu.toNat) :
    Sound (encData seq p s) :=
  ⟨h.mtuLow, h.mtuHigh, h.memory, h.attempts, (dataFrame_length seq p).trans_le (Nat.add_le_add_right fits 3), h.rxFits,
    crc7_lt _⟩

theorem Sound.transported {s t : State} (h : Sound s) (moved : Transported s t)
    (attempts : t.attempt.toNat ≤ nAttempts) : Sound t where
  mtuLow := moved.control.mtu ▸ h.mtuLow
  mtuHigh := moved.control.mtu ▸ h.mtuHigh
  memory := moved.hbuf ▸ h.memory
  attempts := attempts
  txFits := by rw [moved.txf, moved.control.mtu]; exact h.txFits
  rxFits := moved.rxFits h.rxFits
  crcRange := moved.crcRange h.crcRange

/-! ### The transport calls a step adds -/

/-- The calls made between two states are the newest of the trace, and none of them transmits a data frame. -/
def ControlCalls (s t : State) : Prop :=
  ∃ new : List Call, t.trace = new ++ s.trace ∧ ∀ c ∈ new, isDataCall c = false

theorem controlCalls_of_eq {s t : State} (same : t.trace = s.trace) : ControlCalls s t :=
  ⟨[], same, by simp⟩

theorem ControlCalls.trans {s t u : State} (h : ControlCalls s t) (k : ControlCalls t u) : ControlCalls s u := by
  obtain ⟨a, ha, ha'⟩ := h
  obtain ⟨b, hb, hb'⟩ := k
  refine ⟨b ++ a, by rw [hb, ha, List.append_assoc], fun c hc => ?_⟩
  exact (List.mem_append.mp hc).elim (hb' c) (ha' c)

/-- R61: what transmits a control frame transmits no data frame. -/
theorem controlCalls_of_transported {s t : State} {type : Byte} (moved : Transported s t) (other : type ≠ ftData)
    (frame : s.txf = ctrlFrame type) : ControlCalls s t := by
  obtain ⟨new, added, sent⟩ := moved.calls
  refine ⟨new, added, fun c hc => ?_⟩
  cases c with
  | tx f l o d =>
    rw [isDataCall, sent _ hc f l o d rfl, frame]
    simp [ctrlFrame, sealFrame, other]
  | rx m l o d => rfl

/-! ### A reply -/

/-- The register write an arm makes before it replies (R168, R169, R175). -/
inductive Prepared (s : State) : State → Prop where
  | nothing : Prepared s s
  | inseq (b : Bool) : Prepared s (setInseq b s)
  | seq (q : Byte) : Prepared s (setSeq q s)

/-- What an arm that has written `u` and made its reply leaves alone of the state `s` it began in (R163), whether the
reply went out or not. -/
structure Answered (s u v : State) : Prop where
  control : SameControl s v
  command : SameCommand s v
  progress : SameProgress s v
  exchange : SameExchange u v
  hbuf : v.hbuf = s.hbuf
  rxf : v.rxf = s.rxf
  rxq : v.rxq = s.rxq
  host : v.host = s.host
  sound : Sound s → Sound v
  calls : ControlCalls s v

/-- The two error kinds a reply ends a command in (R163). -/
abbrev ReplyError (e : ErrorKind) : Prop := e = .timeout ∨ e = .writeFailed

/-- R163: a reply goes out, or ends the command, with `ATTEMPT` within the budget. -/
theorem reply_cases (type : Byte) (u : State) : ∃ v, Replied type u v ∧ v.attempt.toNat ≤ nAttempts ∧
    (reply type u = .cont () v ∨ ∃ e, ReplyError e ∧ reply type u = .halt (raiseError e v)) := by
  have moved := reply_keeps type u
  have rx := reply_leaves_rx type u
  have budget := reply_attempt type u
  cases out : reply type u with
  | cont a v =>
    rw [out] at moved rx budget
    obtain ⟨rxf, rxq⟩ := Prod.mk.inj rx
    exact ⟨v, ⟨moved, rxf, rxq⟩, budget, .inl rfl⟩
  | halt t =>
    rw [out] at moved rx budget
    obtain ⟨rxf, rxq⟩ := Prod.mk.inj rx
    obtain ⟨e, v, -, moved, rfl⟩ := moved
    have kind : ReplyError e := (reply_halt out).imp
      (fun ⟨_, _, eq⟩ => errorCode_injective (congrArg State.status eq))
      (fun ⟨_, _, _, eq⟩ => errorCode_injective (congrArg State.status eq))
    exact ⟨v, ⟨moved, rxf, rxq⟩, budget, .inr ⟨e, kind, rfl⟩⟩

theorem answered_of_replied {type : Byte} {s u v : State} (prep : Prepared s u) (other : type ≠ ftData)
    (sent : Replied type u v) (attempts : v.attempt.toNat ≤ nAttempts) : Answered s u v := by
  obtain ⟨moved, rxf, rxq⟩ := sent
  have calls := controlCalls_of_transported moved other rfl
  have sound : Sound u → Sound v := fun h => (h.encCtrl type).transported moved attempts
  obtain ⟨control, exchange, command, progress, hbuf, host⟩ := moved
  cases prep
  all_goals
    exact ⟨⟨control.1, control.2, control.3, control.4, control.5⟩,
      ⟨command.1, command.2, command.3, command.4, command.5⟩, ⟨progress.1, progress.2, progress.3, progress.4⟩,
      ⟨exchange.1, exchange.2, exchange.3⟩, hbuf, rxf, rxq, host, sound, calls⟩

/-- R163: an arm that replies goes on with what follows the reply, or the reply has ended the command. -/
theorem replyThen_answered {type : Byte} (k : State → State) {s u : State} (prep : Prepared s u)
    (other : type ≠ ftData) : ∃ v, Answered s u v ∧
      (replyThen type k u = k v ∨ ∃ e, ReplyError e ∧ replyThen type k u = raiseError e v) := by
  obtain ⟨v, sent, attempts, out⟩ := reply_cases type u
  exact ⟨v, answered_of_replied prep other sent attempts,
    out.imp replyThen_cont fun ⟨e, he, ended⟩ => ⟨e, he, replyThen_halt ended⟩⟩

/-! ### The frames -/

/-- The arm of a frame in phase `w` of the receive loop: the state it replies from and what follows the reply (R166 to
R175, R206). -/
inductive Reaction (w : RecvPhase) (s : State) : Instr → State → (State → State) → Prop where
  | answer (i : Instr) : Reaction w s i s id
  | bracket (msg : w = .msg) : Reaction w s .seqBegin (setInseq true s) id
  | close (msg : w = .msg) : Reaction w s .seqEnd (setInseq false s) finalize
  | accept (p : List Byte) (msg : w = .msg) : Reaction w s (.data (nextSeq s) p) (setSeq (nextSeq s) s) (appendData p)
  | obey {target : Role} (obeyed : refusesSet s target = false) : Reaction w s (setFrame target) s (applySet target w)

theorem Reaction.prepared {w : RecvPhase} {s u : State} {i : Instr} {k : State → State} (h : Reaction w s i u k) :
    Prepared s u := by
  cases h with
  | answer | obey => exact .nothing
  | bracket | close => exact .inseq _
  | accept => exact .seq _

/-- The arm of a data frame (R172 to R175, R180). -/
theorem onData_reaction (w : RecvPhase) (s : State) (q : Byte) (p : List Byte) :
    ∃ type u k, type ≠ ftData ∧ Reaction w s (.data q p) u k ∧ onData q p w s = replyThen type k u := by
  cases w with
  | wait _ => exact ⟨ftNack, s, id, by decide, .answer _, rfl⟩
  | msg =>
    by_cases dup : q = s.seq
    · exact ⟨ftAck, s, id, by decide, .answer _, onData_duplicate p dup⟩
    · by_cases next : q = nextSeq s
      · subst next
        exact ⟨ftAck, _, _, by decide, .accept p rfl, onData_next p rfl⟩
      · exact ⟨ftNack, s, id, by decide, .answer _, onData_misordered p dup next⟩

/-- The arm of a negotiation frame (R206). -/
theorem handleSet_reaction (w : RecvPhase) (s : State) (target : Role) :
    ∃ type u k, type ≠ ftData ∧ Reaction w s (setFrame target) u k ∧ handleSet target w s = replyThen type k u := by
  cases refused : refusesSet s target with
  | true => exact ⟨ftNack, s, id, by decide, .answer _, handleSet_refused w refused⟩
  | false => exact ⟨ftAck, s, _, by decide, .obey refused, handleSet_obeyed w refused⟩

/-- Every frame the receive loop executes has one of the arms of `Reaction`. -/
theorem exec_frame_reaction {s t : State} {w : RecvPhase} {i : Instr} (ph : s.ph = .recv w) (frame : i.isFrame = true)
    (run : exec i s = .next t) : ∃ type u k, type ≠ ftData ∧ Reaction w s i u k ∧ t = replyThen type k u := by
  cases i with
  | ack => cases (exec_ack ph).symm.trans run; exact ⟨ftAck, s, id, by decide, .answer _, rfl⟩
  | nack => cases (exec_nack ph).symm.trans run; exact ⟨ftAck, s, id, by decide, .answer _, rfl⟩
  | seqBegin =>
    cases (exec_seqBegin ph).symm.trans run
    cases w with
    | msg => exact ⟨ftAck, _, _, by decide, .bracket rfl, rfl⟩
    | wait _ => exact ⟨ftNack, s, id, by decide, .answer _, rfl⟩
  | seqEnd =>
    cases (exec_seqEnd ph).symm.trans run
    cases w with
    | msg => exact ⟨ftAck, _, _, by decide, .close rfl, rfl⟩
    | wait _ => exact ⟨ftNack, s, id, by decide, .answer _, rfl⟩
  | data q p => cases (exec_data q p ph).symm.trans run; exact onData_reaction w s q p
  | setSend => cases (exec_setFrame .sender ph).symm.trans run; exact handleSet_reaction w s .sender
  | setRecv => cases (exec_setFrame .receiver ph).symm.trans run; exact handleSet_reaction w s .receiver
  | write | read | reqPeerSend | reqPeerRecv => cases frame

/-- What any frame does in the receive loop: its arm, after a reply or ended by it. -/
theorem exec_frame_cases {s t : State} {w : RecvPhase} {i : Instr} (ph : s.ph = .recv w) (frame : i.isFrame = true)
    (run : exec i s = .next t) : ∃ u k v, Reaction w s i u k ∧ Answered s u v ∧
      (t = k v ∨ ∃ e, ReplyError e ∧ t = raiseError e v) := by
  obtain ⟨type, u, k, other, arm, rfl⟩ := exec_frame_reaction ph frame run
  obtain ⟨v, kept, out⟩ := replyThen_answered k arm.prepared other
  exact ⟨u, k, v, arm, kept, out⟩

/-- R210, R241: outside the receive loop a frame has no effect. -/
theorem exec_frame_outside {s : State} {i : Instr} (frame : i.isFrame = true) (outside : ∀ w, s.ph ≠ .recv w) :
    exec i s = .next s := by
  have silent (k : RecvPhase → State → State) : inRecvLoop k s = s := by
    unfold inRecvLoop
    split
    · rfl
    · next ph => exact absurd ph (outside _)
    · rfl
    · rfl
  cases i with
  | ack | nack | seqBegin | seqEnd | setSend | setRecv | data => exact congrArg _ (silent _)
  | write | read | reqPeerSend | reqPeerRecv => cases frame

/-! ### The sending steps -/

/-- The state in which `SendArq` begins: a frame built from `s`, of at most `RX_MAX` bytes (R111, R112). -/
inductive Framed (s : State) : State → Prop where
  | ctrl (type : Byte) : Framed s (encCtrl type s)
  | data (q : Byte) {p : List Byte} (fits : p.length ≤ s.mtu.toNat) : Framed s (encData q p s)

/-- What building a frame and `SendArq` leave alone of the state `s` the frame is built from (R134), acknowledged or
ended. -/
structure Sent (s v : State) : Prop where
  control : SameControl s v
  command : SameCommand s v
  progress : SameProgress s v
  exchange : SameExchange s v
  hbuf : v.hbuf = s.hbuf
  host : v.host = s.host
  sound : Sound s → Sound v
  calls : ∃ new, v.trace = new ++ s.trace

/-- R134: `SendArq` is acknowledged, or ends the command, with `ATTEMPT` within the budget. -/
theorem sendThen_cases_attempt (k : State → State) (u : State) : ∃ v, Transported u v ∧ v.attempt.toNat ≤ nAttempts ∧
    (sendThen k u = k v ∨ ∃ e, TransportError e ∧ sendThen k u = raiseError e v) := by
  have moved := sendArq_keeps u
  have budget := sendArq_attempt u
  cases out : sendArq u with
  | cont a v =>
    rw [out] at moved budget
    exact ⟨v, moved, budget, .inl (sendThen_cont out)⟩
  | halt t =>
    rw [out] at moved budget
    obtain ⟨e, v, he, moved, rfl⟩ := moved
    exact ⟨v, moved, budget, .inr ⟨e, he, sendThen_halt out⟩⟩

theorem sent_of_transported {s u v : State} (framed : Framed s u) (moved : Transported u v)
    (attempts : v.attempt.toNat ≤ nAttempts) : Sent s v := by
  have sound : Sound u → Sound v := fun h => h.transported moved attempts
  obtain ⟨control, exchange, command, progress, hbuf, host, -, -, -, new, added, -⟩ := moved
  have built : Sound s → Sound u := fun h => by
    cases framed with
    | ctrl type => exact h.encCtrl type
    | data q fits => exact h.encData q fits
  cases framed
  all_goals
    exact ⟨⟨control.1, control.2, control.3, control.4, control.5⟩,
      ⟨command.1, command.2, command.3, command.4, command.5⟩, ⟨progress.1, progress.2, progress.3, progress.4⟩,
      ⟨exchange.1, exchange.2, exchange.3⟩, hbuf, host, sound ∘ built, new, added⟩

/-- R134: a step that sends a frame goes on with what follows the `ACK`, or `SendArq` has ended the command. -/
theorem sendThen_sent (k : State → State) {s u : State} (framed : Framed s u) : ∃ v, Sent s v ∧
    (sendThen k u = k v ∨ ∃ e, TransportError e ∧ sendThen k u = raiseError e v) := by
  obtain ⟨v, moved, attempts, out⟩ := sendThen_cases_attempt k u
  exact ⟨v, sent_of_transported framed moved attempts, out⟩

/-- Step 5 of `WRITE` (R138, R139): ended, the one data frame acknowledged, or `SEQ_BEGIN` acknowledged. -/
theorem sendMessage_cases (s : State) : ∃ v, Sent s v ∧
    ((∃ e, TransportError e ∧ sendMessage s = raiseError e v) ∨
      (s.len.toNat ≤ s.mtu.toNat ∧ sendMessage s = complete statusOk s.len (setOff s.len (setSeq 1 v))) ∨
      s.mtu.toNat < s.len.toNat ∧ sendMessage s = setPhase .segment v) := by
  by_cases short : s.len.toNat ≤ s.mtu.toNat
  · rw [sendMessage_short short]
    obtain ⟨v, sent, out⟩ := sendThen_sent (fun s => complete statusOk s.len (setOff s.len (setSeq 1 s)))
      (.data (s := s) 1 (p := messageBytes s 0 s.len.toNat) ((memReadBytes_length ..).trans_le short))
    refine ⟨v, sent, out.symm.imp_right fun acked => .inl ⟨short, ?_⟩⟩
    rw [acked, ← sent.command.len]
  · have long := Nat.lt_of_not_le short
    rw [sendMessage_long long]
    obtain ⟨v, sent, out⟩ := sendThen_sent (setPhase .segment) (.ctrl (s := s) ftSeqBegin)
    exact ⟨v, sent, out.symm.imp_right fun acked => .inr ⟨long, acked⟩⟩

/-- A turn of the segment loop (R139, R141): ended, a segment acknowledged, or `SEQ_END` acknowledged. -/
theorem sendSegment_cases (s : State) : ∃ v, Sent s v ∧
    ((∃ e, TransportError e ∧ sendSegment s = raiseError e v) ∨
      (s.off.toNat < s.len.toNat ∧
        sendSegment s = setOff (s.off + BitVec.ofNat 32 (chunkLen s)) (setSeq (nextSeq s) v)) ∨
      s.len.toNat ≤ s.off.toNat ∧ sendSegment s = complete statusOk s.len v) := by
  by_cases more : s.off.toNat < s.len.toNat
  · rw [sendSegment_more more]
    obtain ⟨v, sent, out⟩ := sendThen_sent
      (fun t => setOff (s.off + BitVec.ofNat 32 (chunkLen s)) (setSeq (nextSeq s) t))
      (.data (s := s) (nextSeq s) (p := messageBytes s s.off.toNat (chunkLen s))
        ((memReadBytes_length ..).trans_le (Nat.min_le_left ..)))
    exact ⟨v, sent, out.symm.imp_right fun acked => .inl ⟨more, acked⟩⟩
  · have last := Nat.le_of_not_lt more
    rw [sendSegment_last last]
    obtain ⟨v, sent, out⟩ := sendThen_sent (fun s => complete statusOk s.len s) (.ctrl (s := s) ftSeqEnd)
    refine ⟨v, sent, out.symm.imp_right fun acked => .inr ⟨last, ?_⟩⟩
    rw [acked, ← sent.command.len]

/-! ### The host commands -/

/-- What the request with each code sends, and the role it takes (R207, R208). -/
inductive Request : Byte → Byte → Mode → Prop where
  | peerSend : Request cmdReqPeerSend ftSetSend .receiver
  | peerRecv : Request cmdReqPeerRecv ftSetRecv .sender

theorem Request.type_ne_data {cmd type : Byte} {m : Mode} (req : Request cmd type m) : type ≠ ftData := by
  cases req <;> decide

/-- What a host command with code `cmd` comes to from the state `s` in which its word is latched (R137, R161, R207,
R208). -/
inductive Start (s : State) : Byte → State → Prop where
  | noBuffer (cmd : Byte) : Start s cmd (raiseError .incorrectParameter s)
  | writeRefused (role : s.mode = .receiver) :
      Start s cmdWrite (raiseError .incorrectMode (setOff 0 (resetExchange s)))
  | writeWaits (role : s.mode = .receiver) (auto : s.policy = .auto) :
      Start s cmdWrite (setPhase (.recv (.wait .sender)) (setOff 0 (resetExchange s)))
  | writeSends (role : s.mode ≠ .receiver) :
      Start s cmdWrite (sendMessage (setOff 0 (resetExchange (setMode .sender s))))
  | readRefused (role : s.mode = .sender) : Start s cmdRead (raiseError .incorrectMode (resetExchange s))
  | readWaits (role : s.mode = .sender) (auto : s.policy = .auto) :
      Start s cmdRead (setPhase (.recv (.wait .receiver)) (resetExchange s))
  | readListens (role : s.mode ≠ .sender) :
      Start s cmdRead (setPhase (.recv .msg) (resetExchange (setMode .receiver s)))
  | requestRefused (cmd : Byte) (manual : s.policy = .manual) : Start s cmd (raiseError .incorrectMode s)
  | requests {cmd type : Byte} {m : Mode} (req : Request cmd type m) (auto : s.policy = .auto) :
      Start s cmd (sendThen (takeRole m) (encCtrl type (resetExchange s)))

theorem start_write (s : State) : Start s cmdWrite (startWrite s) := by
  cases buf : s.bufv with
  | false => exact startWrite_nobuf buf ▸ .noBuffer cmdWrite
  | true =>
    by_cases role : s.mode = .receiver
    · cases pol : s.policy with
      | auto => exact startWrite_wait buf role pol ▸ .writeWaits role pol
      | manual => exact startWrite_mismatch buf role pol ▸ .writeRefused role
    · exact startWrite_send buf role ▸ .writeSends role

theorem start_read (s : State) : Start s cmdRead (startRead s) := by
  cases buf : s.bufv with
  | false => exact startRead_nobuf buf ▸ .noBuffer cmdRead
  | true =>
    by_cases role : s.mode = .sender
    · cases pol : s.policy with
      | auto => exact startRead_wait buf role pol ▸ .readWaits role pol
      | manual => exact startRead_mismatch buf role pol ▸ .readRefused role
    · exact startRead_listen buf role ▸ .readListens role

theorem start_request {cmd type : Byte} {m : Mode} (req : Request cmd type m) (s : State) :
    Start s cmd (requestPeer type m s) := by
  cases pol : s.policy with
  | auto => exact requestPeer_auto type m pol ▸ .requests req pol
  | manual => exact requestPeer_manual type m pol ▸ .requestRefused cmd pol

/-- R69: the four host commands. -/
theorem commandOf_cases {cmd : Byte} {len tmo : Word} {v : Bool} {i : Instr} (h : commandOf cmd len tmo v = some i) :
    (cmd = cmdWrite ∧ i = .write len tmo v) ∨ (cmd = cmdRead ∧ i = .read len tmo v) ∨
      (cmd = cmdReqPeerSend ∧ i = .reqPeerSend len tmo v) ∨ (cmd = cmdReqPeerRecv ∧ i = .reqPeerRecv len tmo v) := by
  unfold commandOf at h
  split_ifs at h <;> cases h <;> simp [*]

/-- R77: a decoded word is the command of its fields. -/
theorem commandOf_of_decode {w : HostWord} {i : Instr} (dec : decode (.word w) = .ok i) :
    commandOf (hostCmd w) (hostLen w) (hostTmo w) (hostBufv w) = some i := by
  obtain ⟨code, rfl⟩ | ⟨code, rfl⟩ | ⟨code, rfl⟩ | ⟨code, rfl⟩ := decode_word_cases dec
  all_goals
    rw [code]
    rfl

/-- What any host command does on an idle engine. -/
theorem exec_command_start {s t : State} {cmd : Byte} {len tmo : Word} {v : Bool} {i : Instr}
    (command : commandOf cmd len tmo v = some i) (idle : s.busy = false) (run : exec i s = .next t) :
    Start (latch cmd len tmo v s) cmd t := by
  obtain ⟨rfl, rfl⟩ | ⟨rfl, rfl⟩ | ⟨rfl, rfl⟩ | ⟨rfl, rfl⟩ := commandOf_cases command
  all_goals
    cases run
    rw [accept_idle idle]
  · exact start_write _
  · exact start_read _
  · exact start_request .peerSend _
  · exact start_request .peerRecv _

/-- A request under `Auto` (R207, R208): acknowledged, or ended by `SendArq`; its calls carry no data frame. -/
theorem request_cases {cmd type : Byte} {m : Mode} (req : Request cmd type m) (s : State) :
    ∃ v, Sent s v ∧ ControlCalls s v ∧ (sendThen (takeRole m) (encCtrl type s) = takeRole m v ∨
      ∃ e, TransportError e ∧ sendThen (takeRole m) (encCtrl type s) = raiseError e v) := by
  obtain ⟨v, moved, attempts, out⟩ := sendThen_cases_attempt (takeRole m) (encCtrl type s)
  have calls := controlCalls_of_transported moved req.type_ne_data rfl
  exact ⟨v, sent_of_transported (.ctrl type) moved attempts, calls, out⟩

end Sys2Proof.Proofs.Reactions
end

section
/-! What an instruction and a sending step leave alone, whatever the environment answers (42_send_path.md,
43_receive_path.md, 44_mode_negotiation.md). -/

namespace Sys2Proof.Proofs.Frames
open Sys2Proof.Machine Sys2Proof.Safety Sys2Proof.Proofs.ReceivePath Sys2Proof.Proofs.Negotiation
open Sys2Proof.Proofs.Reactions

theorem sameMemory_of_eq {s t : State} (same : t.hbuf = s.hbuf) : SameMemory s t :=
  fun a => congrArg (memRead · a) same

theorem endedBy_raiseError (e : ErrorKind) (s : State) : EndedBy e (raiseError e s) := ⟨rfl, rfl, rfl, rfl⟩

theorem completedWith_complete (status : Byte) (n : Word) (s : State) :
    CompletedWith status n (complete status n s) := ⟨rfl, rfl, rfl, rfl⟩

/-- A frame is executed in the receive loop, or has no effect (R210, R241). -/
theorem exec_frame_inside_or_same {s t : State} {i : Instr} (frame : i.isFrame = true) (run : exec i s = .next t) :
    t = s ∨ ∃ w, s.ph = .recv w := by
  by_cases inside : ∃ w, s.ph = .recv w
  · exact .inr inside
  · have same := (exec_frame_outside frame (not_exists.mp inside)).symm.trans run
    cases same
    exact .inl rfl

/-! ### The control frames -/

/-! ### An arm that is a reply and nothing else -/

/-- What an arm that has written `u` and only replies leaves alone of the state `s` it began in (R163). -/
structure OnlyReplied (s u t : State) : Prop where
  control : SameControl s t
  command : SameCommand s t
  exchange : SameExchange u t
  hbuf : t.hbuf = s.hbuf
  rxf : t.rxf = s.rxf
  rxq : t.rxq = s.rxq
  host : t.host = s.host
  progress : SameProgress s t ∨ EndedBy .timeout t ∨ EndedBy .writeFailed t

theorem onlyReplied_of_went {s u v : State} (kept : Answered s u v) : OnlyReplied s u v :=
  ⟨kept.control, kept.command, kept.exchange, kept.hbuf, kept.rxf, kept.rxq, kept.host, .inl kept.progress⟩

/-- A reply that failed has ended the command in `Timeout` or `WriteFailed` (R163). -/
theorem onlyReplied_of_failed {s u v : State} {e : ErrorKind} (kept : Answered s u v) (he : ReplyError e) :
    OnlyReplied s u (raiseError e v) := by
  obtain ⟨control, command, -, exchange, hbuf, rxf, rxq, host, -, -⟩ := kept
  refine ⟨⟨control.1, control.2, control.3, control.4, control.5⟩,
    ⟨command.1, command.2, command.3, command.4, command.5⟩, ⟨exchange.1, exchange.2, exchange.3⟩, hbuf, rxf, rxq,
    host, .inr ?_⟩
  obtain rfl | rfl := he
  · exact .inl (endedBy_raiseError .timeout v)
  · exact .inr (endedBy_raiseError .writeFailed v)

theorem onlyReplied {s u v t : State} (kept : Answered s u v)
    (out : t = id v ∨ ∃ e, ReplyError e ∧ t = raiseError e v) : OnlyReplied s u t := by
  obtain rfl | ⟨e, he, rfl⟩ := out
  · exact onlyReplied_of_went kept
  · exact onlyReplied_of_failed kept he

/-- A frame without an effect leaves at least as much alone. -/
theorem onlyReplied_refl (s : State) : OnlyReplied s s s :=
  ⟨⟨rfl, rfl, rfl, rfl, rfl⟩, ⟨rfl, rfl, rfl, rfl, rfl⟩, ⟨rfl, rfl, rfl⟩, rfl, rfl, rfl, rfl, .inl ⟨rfl, rfl, rfl, rfl⟩⟩

/-! ### The control frames -/

/-- Settles O47: the frame has no effect, or its arm replies and nothing else, after setting `INSEQ` at the opening of a
bracket. -/
theorem frameOfControlFrames : Obligations.FrameOfControlFrames := by
  intro s t i hi run
  have frame : i.isFrame = true := by obtain rfl | rfl | rfl := hi <;> rfl
  suffices OnlyReplied s s t ∨ i = .seqBegin ∧ s.ph = .recv .msg ∧ OnlyReplied s (setInseq true s) t by
    obtain r | ⟨rfl, ph, r⟩ := this
    · exact ⟨r.control, r.exchange.seq, r.exchange.rb, r.command, sameMemory_of_eq r.hbuf, r.rxf, r.rxq, r.host,
        .inl r.exchange.inseq, r.progress⟩
    · exact ⟨r.control, r.exchange.seq, r.exchange.rb, r.command, sameMemory_of_eq r.hbuf, r.rxf, r.rxq, r.host,
        .inr ⟨rfl, ph, r.exchange.inseq⟩, r.progress⟩
  obtain rfl | ⟨w, ph⟩ := exec_frame_inside_or_same frame run
  · exact .inl (onlyReplied_refl t)
  · obtain ⟨u, k, v, arm, kept, out⟩ := exec_frame_cases ph frame run
    cases arm with
    | answer => exact .inl (onlyReplied kept out)
    | bracket msg => exact .inr ⟨rfl, msg ▸ ph, onlyReplied kept out⟩
    | close | accept => simp at hi
    | @obey target => cases target <;> simp [setFrame] at hi

/-! ### The message frames -/

/-- What `Finalize` (R176) does with the message in `RB`: `BufferOverflow`, or exactly the bytes below `COUNT` hold it. -/
theorem finalize_cases (s : State) :
    finalize s = raiseError .bufferOverflow s ∨
      s.rb.length ≤ s.len.toNat ∧ finalize s = complete statusOk (BitVec.ofNat 32 s.rb.length) (copyOut s) := by
  by_cases fits : s.rb.length ≤ s.len.toNat
  · exact .inr ⟨fits, finalize_fits fits⟩
  · exact .inl (finalize_overflows (Nat.lt_of_not_le fits))

/-- R176, 20_memory.md R41: HBUF after the copy. -/
theorem memRead_copyOut {s : State} (wf : memWf s.hbuf = true) (a : Nat) :
    memRead (copyOut s).hbuf a = if a < s.rb.length then s.rb.getD a 0 else memRead s.hbuf a := by
  simp [memRead_memWriteBytes s.rb 0 a wf]

/-- How the command stands after a message frame. -/
def MessageProgress (s t : State) : Prop :=
  SameProgress s t ∨ EndedBy .timeout t ∨ EndedBy .writeFailed t ∨ EndedBy .bufferOverflow t ∨
    CompletedWith statusOk (BitVec.ofNat 32 t.rb.length) t

/-- The message in `RB` has been delivered: the command completed `OK`, and exactly the bytes of HBUF below `COUNT` hold it
(R176). -/
def Delivered (s t : State) : Prop :=
  CompletedWith statusOk (BitVec.ofNat 32 t.rb.length) t ∧ t.rb.length ≤ s.len.toNat ∧
    ∀ a, memRead t.hbuf a = if a < t.rb.length then t.rb.getD a 0 else memRead s.hbuf a

/-- HBUF after a message frame. -/
def MessageMemory (s t : State) : Prop := SameMemory s t ∨ Delivered s t

/-- What a message frame leaves alone of the state `s` it arrives in, when `f` holds the exchange registers it leaves. -/
structure Messaged (s f t : State) : Prop where
  control : SameControl s t
  command : SameCommand s t
  exchange : SameExchange f t
  rxf : t.rxf = s.rxf
  rxq : t.rxq = s.rxq
  host : t.host = s.host
  memory : MessageMemory s t
  progress : MessageProgress s t

theorem messaged_of_onlyReplied {s f t : State} (r : OnlyReplied s f t) : Messaged s f t :=
  ⟨r.control, r.command, r.exchange, r.rxf, r.rxq, r.host, .inl (sameMemory_of_eq r.hbuf),
    r.progress.imp_right (Or.imp_right .inl)⟩

/-- R175: the append after a reply that went out. -/
theorem onlyReplied_appendRb {s u v : State} (p : List Byte) (kept : Answered s u v) :
    OnlyReplied s (appendRb p v) (appendRb p v) := by
  obtain ⟨control, command, progress, -, hbuf, rxf, rxq, host, -, -⟩ := kept
  exact ⟨⟨control.1, control.2, control.3, control.4, control.5⟩,
    ⟨command.1, command.2, command.3, command.4, command.5⟩, ⟨rfl, rfl, rfl⟩, hbuf, rxf, rxq, host,
    .inl ⟨progress.1, progress.2, progress.3, progress.4⟩⟩

/-- R176: `Finalize` writes HBUF and the completion only. -/
theorem messaged_finalize {s f : State} (wf : memWf s.hbuf = true) (r : OnlyReplied s f f) :
    Messaged s f (finalize f) := by
  obtain ⟨control, command, -, hbuf, rxf, rxq, host, -⟩ := r
  obtain eq | ⟨fits, eq⟩ := finalize_cases f
  all_goals
    rw [eq]
    refine ⟨⟨control.1, control.2, control.3, control.4, control.5⟩,
      ⟨command.1, command.2, command.3, command.4, command.5⟩, ⟨rfl, rfl, rfl⟩, rxf, rxq, host, ?_, ?_⟩
  · exact .inl (sameMemory_of_eq hbuf)
  · exact .inr (.inr (.inr (.inl (endedBy_raiseError .bufferOverflow f))))
  · have ended := completedWith_complete statusOk (BitVec.ofNat 32 f.rb.length) (copyOut f)
    refine .inr ⟨ended, command.len ▸ fits, fun a => ?_⟩
    rw [← hbuf] at wf ⊢
    exact memRead_copyOut wf a
  · exact .inr (.inr (.inr (.inr (completedWith_complete ..))))

/-- R175, R176: an accepted data frame, once its reply went out. -/
theorem messaged_appendData {s u v : State} (p : List Byte) (wf : memWf s.hbuf = true) (kept : Answered s u v) :
    Messaged s (appendRb p v) (appendData p v) := by
  have r := onlyReplied_appendRb p kept
  cases inside : v.inseq with
  | true => rw [appendData_inside p inside]; exact messaged_of_onlyReplied r
  | false => rw [appendData_outside p inside]; exact messaged_finalize wf r

/-- Settles O48: a message frame without an effect or with a reply only leaves the exchange as it was; `SEQ_END` finalizes
with `INSEQ` cleared; the next data frame writes `SEQ` and, once its reply went out, appends. -/
theorem frameOfMessageFrames : Obligations.FrameOfMessageFrames := by
  intro s t i q p wf hi run
  have frame : i.isFrame = true := by obtain rfl | rfl := hi <;> rfl
  suffices ∃ f, Messaged s f t ∧ (f.seq = s.seq ∨ i = .data q p ∧ s.ph = .recv .msg ∧ f.seq = q ∧ q = s.seq + 1) ∧
      (f.inseq = s.inseq ∨ i = .seqEnd ∧ s.ph = .recv .msg ∧ f.inseq = false) ∧
      (f.rb = s.rb ∨ i = .data q p ∧ s.ph = .recv .msg ∧ q = s.seq + 1 ∧ f.rb = s.rb ++ p) by
    obtain ⟨f, ⟨control, command, ⟨seq, inseq, rb⟩, rxf, rxq, host, memory, progress⟩, hseq, hinseq, hrb⟩ := this
    exact ⟨control, command, rxf, rxq, host, seq ▸ hseq, inseq ▸ hinseq, rb ▸ hrb, memory, progress⟩
  obtain rfl | ⟨w, ph⟩ := exec_frame_inside_or_same frame run
  · exact ⟨t, messaged_of_onlyReplied (onlyReplied_refl t), .inl rfl, .inl rfl, .inl rfl⟩
  obtain ⟨u, k, v, arm, kept, out⟩ := exec_frame_cases ph frame run
  cases arm with
  | answer => exact ⟨s, messaged_of_onlyReplied (onlyReplied kept out), .inl rfl, .inl rfl, .inl rfl⟩
  | bracket => simp at hi
  | @obey target => cases target <;> simp [setFrame] at hi
  | close msg =>
    have closed : (setInseq false s).inseq = s.inseq ∨ Instr.seqEnd = .seqEnd ∧ s.ph = .recv .msg ∧
      (setInseq false s).inseq = false := .inr ⟨rfl, msg ▸ ph, rfl⟩
    obtain rfl | ⟨e, he, rfl⟩ := out
    · obtain ⟨seq, inseq, rb⟩ := kept.exchange
      have r := onlyReplied_of_went kept
      exact ⟨v, messaged_finalize wf { r with exchange := ⟨rfl, rfl, rfl⟩ }, .inl seq, inseq ▸ closed, .inl rb⟩
    · exact ⟨_, messaged_of_onlyReplied (onlyReplied_of_failed kept he), .inl rfl, closed, .inl rfl⟩
  | accept p' msg =>
    obtain ⟨rfl, rfl⟩ : nextSeq s = q ∧ p' = p := by simpa using hi
    have inMsg : s.ph = .recv .msg := msg ▸ ph
    obtain rfl | ⟨e, he, rfl⟩ := out
    · obtain ⟨seq, inseq, rb⟩ := kept.exchange
      exact ⟨_, messaged_appendData p' wf kept, .inr ⟨rfl, inMsg, seq, rfl⟩, .inl inseq,
        .inr ⟨rfl, inMsg, rfl, congrArg (· ++ p') rb⟩⟩
    · exact ⟨_, messaged_of_onlyReplied (onlyReplied_of_failed kept he), .inr ⟨rfl, inMsg, rfl, rfl⟩, .inl rfl, .inl rfl⟩

/-! ### The negotiation frames -/

theorem setFrame_injective {a b : Role} (h : setFrame a = setFrame b) : a = b := by
  cases a <;> cases b
  case sender.sender | receiver.receiver => rfl
  all_goals cases h

/-- R206: what a negotiation frame comes to. -/
theorem exec_setFrame_cases {s t : State} {target : Role} (run : exec (setFrame target) s = .next t) :
    OnlyReplied s s t ∨ ∃ v, Answered s s v ∧ (t = resetExchange v ∨
      s.policy = .auto ∧ ∃ w, t = flipped target w v) := by
  have frame : (setFrame target).isFrame = true := by cases target <;> rfl
  obtain rfl | ⟨w, ph⟩ := exec_frame_inside_or_same frame run
  · exact .inl (onlyReplied_refl t)
  obtain ⟨u, k, v, arm, kept, out⟩ := exec_frame_cases ph frame run
  generalize hi : setFrame target = i at arm
  cases arm with
  | answer => exact .inl (onlyReplied kept out)
  | bracket | close | accept => cases target <;> cases hi
  | obey obeyed =>
    obtain rfl := setFrame_injective hi
    obtain rfl | ⟨e, he, rfl⟩ := out
    · refine .inr ⟨v, kept, ?_⟩
      by_cases same : v.mode = roleMode target
      · exact .inl (applySet_duplicate w same)
      · have auto := (refusesSet_eq_false_iff.mp obeyed).resolve_right (kept.control.mode ▸ same)
        exact .inr ⟨auto, w, applySet_flips w same⟩
    · exact .inl (onlyReplied_of_failed kept he)

/-- Settles O49: a refused frame and a failed reply leave the exchange and `MODE` as they were; an obeyed one resets the
exchange, and flips the role if it is another, going on by the phase of the loop. -/
theorem frameOfNegotiationFrames : Obligations.FrameOfNegotiationFrames := by
  intro s t target run
  obtain r | ⟨v, kept, out⟩ := exec_setFrame_cases run
  · exact ⟨r.control.policy, r.control.mtu, r.control.reserve, r.control.pMalformed, r.command, sameMemory_of_eq r.hbuf,
      r.rxf, r.rxq, r.host, .inl r.exchange, .inl r.control.mode, r.progress.imp_right (Or.imp_right .inl)⟩
  obtain ⟨control, command, progress, -, hbuf, rxf, rxq, host, -, -⟩ := kept
  have memory : SameMemory s v := sameMemory_of_eq hbuf
  obtain rfl | ⟨auto, w, rfl⟩ := out
  · exact ⟨control.2, control.3, control.4, control.5, ⟨command.1, command.2, command.3, command.4, command.5⟩, memory,
      rxf, rxq, host, .inr ⟨rfl, rfl, rfl⟩, .inl control.1, .inl ⟨progress.1, progress.2, progress.3, progress.4⟩⟩
  · have flip := flipped_mode target w v
    match w with
    | .msg =>
      exact ⟨control.2, control.3, control.4, control.5, ⟨command.1, command.2, command.3, command.4, command.5⟩, memory,
        rxf, rxq, host, .inr ⟨rfl, rfl, rfl⟩, .inr ⟨auto, flip, rfl, rfl, rfl⟩,
        .inr (.inr (.inr (.inl ⟨⟨rfl, rfl, rfl, rfl⟩, flip⟩)))⟩
    | .wait .receiver | .wait .sender =>
      exact ⟨control.2, control.3, control.4, control.5, ⟨command.1, command.2, command.3, command.4, command.5⟩, memory,
        rxf, rxq, host, .inr ⟨rfl, rfl, rfl⟩, .inr ⟨auto, flip, rfl, rfl, rfl⟩,
        .inr (.inr (.inr (.inr ⟨flip, progress.1, progress.2, progress.3⟩)))⟩

/-! ### The sending steps -/

/-- The error kinds in which `SendArq` ends a command (R134, R144). -/
theorem endedBy_of_transportError {e : ErrorKind} (he : TransportError e) (v : State) :
    EndedBy .timeout (raiseError e v) ∨ EndedBy .writeFailed (raiseError e v) ∨ EndedBy .readFailed (raiseError e v) := by
  obtain rfl | rfl | rfl := he
  · exact .inl (endedBy_raiseError .timeout v)
  · exact .inr (.inl (endedBy_raiseError .writeFailed v))
  · exact .inr (.inr (endedBy_raiseError .readFailed v))

/-- Settles O59: the step by its phase; `SendArq` leaves all registers but its own alone, and what follows the `ACK` writes
the cursor and the completion. -/
theorem frameOfSendingSteps : Obligations.FrameOfSendingSteps := by
  intro s t phase hstep
  obtain ph | ph := phase
  · cases (step_send ph).symm.trans hstep
    obtain ⟨v, ⟨control, command, progress, exchange, hbuf, host, -, -⟩, out⟩ := sendMessage_cases s
    have kept : SameMemory s v := sameMemory_of_eq hbuf
    obtain ⟨e, he, eq⟩ | ⟨short, eq⟩ | ⟨long, eq⟩ := out
    all_goals
      rw [eq]
      refine ⟨⟨control.1, control.2, control.3, control.4, control.5⟩, kept, host, command.1, command.2, command.3,
        command.4, exchange.2, exchange.3, ?_⟩
    · exact .inl ⟨exchange.1, command.5, endedBy_of_transportError he v⟩
    · exact .inr (.inl ⟨ph, short, rfl, rfl, completedWith_complete ..⟩)
    · exact .inr (.inr (.inl ⟨ph, long, exchange.1, command.5, rfl, progress.1, progress.2, progress.3⟩))
  · cases (step_segment ph).symm.trans hstep
    obtain ⟨v, ⟨control, command, progress, exchange, hbuf, host, -, -⟩, out⟩ := sendSegment_cases s
    have kept : SameMemory s v := sameMemory_of_eq hbuf
    obtain ⟨e, he, eq⟩ | ⟨more, eq⟩ | ⟨last, eq⟩ := out
    all_goals
      rw [eq]
      refine ⟨⟨control.1, control.2, control.3, control.4, control.5⟩, kept, host, command.1, command.2, command.3,
        command.4, exchange.2, exchange.3, ?_⟩
    · exact .inl ⟨exchange.1, command.5, endedBy_of_transportError he v⟩
    · exact .inr (.inr (.inr (.inl ⟨ph, more, rfl, off_advance s more, progress.1, progress.2, progress.3, progress.4⟩)))
    · exact .inr (.inr (.inr (.inr ⟨ph, last, exchange.1, command.5, completedWith_complete ..⟩)))

/-! ### The host commands -/

/-- The registers no command writes once its word is latched, with HBUF and the host's moves. -/
def settings (s : State) : Policy × Word × Word × PMalformed × List Host.Cell × List HostMove × Byte × Word × Word × Bool :=
  (s.policy, s.mtu, s.reserve, s.pMalformed, s.hbuf, s.host, s.cmd, s.len, s.tmo, s.bufv)

theorem settings_of_sent {s v : State} (sent : Sent s v) : settings v = settings s := by
  obtain ⟨control, command, -, -, hbuf, host, -, -⟩ := sent
  simp only [settings, control.policy, control.mtu, control.reserve, control.pMalformed, hbuf, host, command.cmd,
    command.len, command.tmo, command.bufv]

/-- What a host command with code `cmd` does from the state `s` in which its word is latched. -/
structure CommandEffect (s : State) (cmd : Byte) (t : State) : Prop where
  settings : settings t = settings s
  off : t.off = s.off ∨ cmd = cmdWrite
  seq : t.seq = s.seq ∨ t.seq = 0 ∨ cmd = cmdWrite ∧ t.seq = 1
  exchange : t.inseq = s.inseq ∧ t.rb = s.rb ∨ t.inseq = false ∧ t.rb = []
  mode : t.mode = s.mode ∨
    s.mode = .undefined ∧ (cmd = cmdWrite ∧ t.mode = .sender ∨ cmd = cmdRead ∧ t.mode = .receiver) ∨
    CompletedWith statusOk 0 t ∧ s.policy = .auto ∧
      (cmd = cmdReqPeerSend ∧ t.mode = .receiver ∨ cmd = cmdReqPeerRecv ∧ t.mode = .sender)

/-- Step 5 of `WRITE` as the sending of an exchange that has just begun (R138, R139). -/
theorem sendMessage_effect (s : State) : settings (sendMessage s) = settings s ∧ (sendMessage s).mode = s.mode ∧
    (sendMessage s).inseq = s.inseq ∧ (sendMessage s).rb = s.rb ∧
    ((sendMessage s).seq = s.seq ∨ (sendMessage s).seq = 1) := by
  obtain ⟨v, sent, out⟩ := sendMessage_cases s
  have kept := settings_of_sent sent
  have mode := sent.control.mode
  obtain ⟨seq, inseq, rb⟩ := sent.exchange
  obtain ⟨e, -, eq⟩ | ⟨-, eq⟩ | ⟨-, eq⟩ := out
  · exact eq ▸ ⟨kept, mode, inseq, rb, .inl seq⟩
  · exact eq ▸ ⟨kept, mode, inseq, rb, .inr rfl⟩
  · exact eq ▸ ⟨kept, mode, inseq, rb, .inl seq⟩

theorem start_effect {s t : State} {cmd : Byte} (h : Start s cmd t) : CommandEffect s cmd t := by
  cases h with
  | noBuffer | requestRefused => exact ⟨rfl, .inl rfl, .inl rfl, .inl ⟨rfl, rfl⟩, .inl rfl⟩
  | writeRefused | writeWaits => exact ⟨rfl, .inr rfl, .inr (.inl rfl), .inr ⟨rfl, rfl⟩, .inl rfl⟩
  | readRefused | readWaits => exact ⟨rfl, .inl rfl, .inr (.inl rfl), .inr ⟨rfl, rfl⟩, .inl rfl⟩
  | readListens role =>
    refine ⟨rfl, .inl rfl, .inr (.inl rfl), .inr ⟨rfl, rfl⟩, ?_⟩
    cases old : s.mode with
    | undefined => exact .inr (.inl ⟨rfl, .inr ⟨rfl, rfl⟩⟩)
    | sender => exact absurd old role
    | receiver => exact .inl rfl
  | writeSends role =>
    obtain ⟨kept, mode, inseq, rb, seq⟩ := sendMessage_effect (setOff 0 (resetExchange (setMode .sender s)))
    refine ⟨kept, .inr rfl, .inr (seq.imp_right fun one => ⟨rfl, one⟩), .inr ⟨inseq, rb⟩, ?_⟩
    cases old : s.mode with
    | undefined => exact .inr (.inl ⟨rfl, .inl ⟨rfl, mode⟩⟩)
    | sender => exact .inl mode
    | receiver => exact absurd old role
  | @requests _ type m req auto =>
    obtain ⟨v, sent, -, out⟩ := request_cases req (resetExchange s)
    have kept : settings v = settings (resetExchange s) := settings_of_sent sent
    obtain ⟨seq, inseq, rb⟩ := sent.exchange
    obtain eq | ⟨e, -, eq⟩ := out
    · refine eq ▸ ⟨kept, .inl sent.command.off, .inr (.inl seq), .inr ⟨inseq, rb⟩, .inr (.inr ?_)⟩
      refine ⟨completedWith_complete .., auto, ?_⟩
      cases req with
      | peerSend => exact .inl ⟨rfl, rfl⟩
      | peerRecv => exact .inr ⟨rfl, rfl⟩
    · exact eq ▸ ⟨kept, .inl sent.command.off, .inr (.inl seq), .inr ⟨inseq, rb⟩, .inl sent.control.mode⟩

/-- Settles O50: the effect of the command on the state in which its word is latched, which differs from the idle one in
the latched registers only. -/
theorem frameOfHostCommands : Obligations.FrameOfHostCommands := by
  intro s t i cmd len tmo v command idle run
  obtain ⟨kept, off, seq, exchange, mode⟩ := start_effect (exec_command_start command idle run)
  simp only [settings, Prod.mk.injEq] at kept
  obtain ⟨policy, mtu, reserve, pMalformed, hbuf, host, code, latched⟩ := kept
  obtain ⟨hlen, htmo, hbufv⟩ := latched
  exact ⟨policy, mtu, reserve, pMalformed, sameMemory_of_eq hbuf, host, code, hlen, htmo, hbufv, off, seq, exchange, mode⟩

end Sys2Proof.Proofs.Frames
end

section
/-! The machine invariant (10_state.md section 7): it holds after reset, and every step keeps it. -/

namespace Sys2Proof.Proofs.InvariantSteps
open Sys2Proof.Machine Sys2Proof.Safety Sys2Proof.Proofs.ReceivePath Sys2Proof.Proofs.Negotiation
open Sys2Proof.Proofs.Exceptions Sys2Proof.Proofs.Reactions Sys2Proof.Proofs.Frames

/-! ### The invariant from its parts -/

theorem phaseOk_of_idle {s : State} (ph : s.ph = .idle) : phaseOk s := by
  rw [phaseOk, ph]
  trivial

/-- An engine at rest: only the completion word is left to show. -/
theorem invariant_of_idle {t : State} (sound : Sound t) (ph : t.ph = .idle) (busy : t.busy = false)
    (done : completionOk t) : Invariant t :=
  ⟨sound.mtuLow, sound.mtuHigh, sound.memory, ⟨fun _ => ph, fun _ => busy⟩, sound.attempts, sound.txFits, sound.rxFits,
    sound.crcRange, done, phaseOk_of_idle ph⟩

/-- An engine that runs a command: the label of `PH` is left to show. -/
theorem invariant_of_running {t : State} (sound : Sound t) (running : t.ph ≠ .idle) (busy : t.busy = true)
    (done : completionOk t) (phase : phaseOk t) : Invariant t :=
  ⟨sound.mtuLow, sound.mtuHigh, sound.memory,
    ⟨fun h => absurd (busy.symm.trans h) (by decide), fun h => absurd h running⟩, sound.attempts, sound.txFits,
    sound.rxFits, sound.crcRange, done, phase⟩

theorem busy_of_running {s : State} (inv : Invariant s) (running : s.ph ≠ .idle) : s.busy = true :=
  Bool.eq_true_of_not_eq_false (mt inv.busyPhase.mp running)

/-- R224: a `raise` leaves the engine at rest with a completion word of the table. -/
theorem invariant_raiseError {s : State} (e : ErrorKind) (h : Sound s) : Invariant (raiseError e s) :=
  invariant_of_idle h rfl rfl
    (.inr ⟨.inr ⟨e, rfl⟩, rfl⟩)

/-- R223: so does a completion `OK`. -/
theorem invariant_complete_ok {s : State} (n : Word) (h : Sound s) : Invariant (complete statusOk n s) :=
  invariant_of_idle h rfl rfl (.inl rfl)

theorem completionOk_of_same {s t : State} (done : completionOk s) (status : t.status = s.status)
    (count : t.count = s.count) : completionOk t := by
  simpa only [completionOk, status, count] using done

/-! ### In the receive loop -/

/-- The label of a receive loop speaks of `CMD`, `MODE`, `POLICY` and `OFF` only. -/
theorem phaseOk_of_recv {s t : State} {w : RecvPhase} (ph : s.ph = .recv w) (same : t.ph = s.ph)
    (control : SameControl s t) (command : SameCommand s t) (h : phaseOk s) : phaseOk t := by
  rw [phaseOk, ph] at h
  rw [phaseOk, same, ph]
  match w with
  | .msg => simpa only [control.mode, command.cmd] using h
  | .wait .receiver => simpa only [control.mode, control.policy, command.cmd] using h
  | .wait .sender => simpa only [control.mode, control.policy, command.cmd, command.off] using h

/-- The loop goes on: nothing the invariant says of a receive loop has changed. -/
theorem invariant_of_recv {s t : State} {w : RecvPhase} (inv : Invariant s) (ph : s.ph = .recv w) (sound : Sound t)
    (control : SameControl s t) (command : SameCommand s t) (progress : SameProgress s t) : Invariant t := by
  have running : s.ph ≠ .idle := by simp [ph]
  exact invariant_of_running sound (progress.ph ▸ running) (progress.busy.trans (busy_of_running inv running))
    (completionOk_of_same inv.completion progress.status progress.count)
    (phaseOk_of_recv ph progress.ph control command inv.phase)

theorem sound_received {s : State} {b : List Byte} {w : RecvPhase} (h : Sound s) (rx : Receives b w s) :
    Sound (received b s) :=
  ⟨h.mtuLow, h.mtuHigh, h.memory, h.attempts, h.txFits, (rxOutcome_ok rx.arrives).2, crc7_lt _⟩

/-- R162: a frame has been received, and the loop is where it was. -/
theorem invariant_received {s : State} {b : List Byte} {w : RecvPhase} (inv : Invariant s) (rx : Receives b w s) :
    Invariant (received b s) :=
  invariant_of_recv inv rx.phase (sound_received (sound_of_invariant inv) rx) ⟨rfl, rfl, rfl, rfl, rfl⟩
    ⟨rfl, rfl, rfl, rfl, rfl⟩ ⟨rfl, rfl, rfl, rfl⟩

/-- R163: a reply and nothing else, gone out or failed. -/
theorem invariant_replied {s u v t : State} {w : RecvPhase} (inv : Invariant s) (ph : s.ph = .recv w)
    (kept : Answered s u v) (out : t = id v ∨ ∃ e, ReplyError e ∧ t = raiseError e v) : Invariant t := by
  have sound := kept.sound (sound_of_invariant inv)
  obtain rfl | ⟨e, -, rfl⟩ := out
  · exact invariant_of_recv inv ph sound kept.control kept.command kept.progress
  · exact invariant_raiseError e sound

theorem invariant_reply {s : State} {w : RecvPhase} {type : Byte} (inv : Invariant s) (ph : s.ph = .recv w)
    (other : type ≠ ftData) : Invariant (replyThen type id s) := by
  obtain ⟨v, kept, out⟩ := replyThen_answered id .nothing other
  exact invariant_replied inv ph kept out

/-- R177. -/
theorem invariant_onMalformed {s : State} {w : RecvPhase} (inv : Invariant s) (ph : s.ph = .recv w) :
    Invariant (onMalformed s) := by
  unfold onMalformed
  split
  · exact invariant_reply inv ph (by decide)
  · exact invariant_reply inv ph (by decide)
  · exact invariant_raiseError .invalidFrame (sound_of_invariant inv)

/-- R176, 20_memory.md R43: the copy keeps the canonical form of HBUF. -/
theorem invariant_finalize {s : State} (h : Sound s) : Invariant (finalize s) := by
  obtain eq | ⟨-, eq⟩ := finalize_cases s
  · exact eq ▸ invariant_raiseError .bufferOverflow h
  · rw [eq]
    exact invariant_complete_ok _
      ⟨h.mtuLow, h.mtuHigh, memWriteBytes_wf s.rb 0 h.memory, h.attempts, h.txFits, h.rxFits, h.crcRange⟩

/-- R175: the append, and `Finalize` outside a bracket. -/
theorem invariant_appendData {s u v : State} {w : RecvPhase} (p : List Byte) (inv : Invariant s) (ph : s.ph = .recv w)
    (kept : Answered s u v) : Invariant (appendData p v) := by
  have h := kept.sound (sound_of_invariant inv)
  obtain ⟨control, command, progress, -⟩ := kept
  unfold appendData
  split
  · exact invariant_of_recv inv ph h ⟨control.1, control.2, control.3, control.4, control.5⟩
      ⟨command.1, command.2, command.3, command.4, command.5⟩ ⟨progress.1, progress.2, progress.3, progress.4⟩
  · exact invariant_finalize (s := appendRb p v) h

/-- R206: after a flip the role is the one the phase waited for, or the command has completed. -/
theorem invariant_flipped {s : State} {w : RecvPhase} {target : Role} (inv : Invariant s) (ph : s.ph = .recv w)
    (other : s.mode ≠ roleMode target) : Invariant (flipped target w s) := by
  have h := sound_of_invariant inv
  have phase := inv.phase
  have busy := busy_of_running inv (by simp [ph])
  rw [phaseOk, ph] at phase
  match w with
  | .msg =>
    exact invariant_of_idle h rfl rfl (.inr ⟨.inl rfl, rfl⟩)
  | .wait .receiver =>
    obtain ⟨cmd, mode, -⟩ := phase
    have role : roleMode target = .receiver := by
      cases target with
      | sender => exact absurd mode other
      | receiver => rfl
    exact invariant_of_running h (by simp [flipped]) busy inv.completion ⟨cmd, role⟩
  | .wait .sender =>
    obtain ⟨cmd, mode, -, off⟩ := phase
    have role : roleMode target = .sender := by
      cases target with
      | sender => rfl
      | receiver => exact absurd mode other
    exact invariant_of_running h (by simp [flipped]) busy inv.completion ⟨cmd, role, off, rfl⟩

/-- R206: the exchange is reset, and the role flipped if it is another. -/
theorem invariant_applySet {s : State} {w : RecvPhase} (target : Role) (inv : Invariant s) (ph : s.ph = .recv w) :
    Invariant (applySet target w s) := by
  by_cases same : s.mode = roleMode target
  · rw [applySet_duplicate w same]
    have h := sound_of_invariant inv
    exact invariant_of_recv inv ph h ⟨rfl, rfl, rfl, rfl, rfl⟩ ⟨rfl, rfl, rfl, rfl, rfl⟩ ⟨rfl, rfl, rfl, rfl⟩
  · rw [applySet_flips w same]
    exact invariant_flipped inv ph same

/-- R166 to R176, R206: every frame keeps the invariant. -/
theorem invariant_exec_frame {s t : State} {w : RecvPhase} {i : Instr} (inv : Invariant s) (ph : s.ph = .recv w)
    (frame : i.isFrame = true) (run : exec i s = .next t) : Invariant t := by
  obtain ⟨u, k, v, arm, kept, out⟩ := exec_frame_cases ph frame run
  have sound := kept.sound (sound_of_invariant inv)
  obtain rfl | ⟨e, he, rfl⟩ := out
  · cases arm with
    | answer | bracket => exact invariant_replied inv ph kept (.inl rfl)
    | close => exact invariant_finalize sound
    | accept p => exact invariant_appendData p inv ph kept
    | @obey target =>
      have inv' := invariant_of_recv inv ph sound kept.control kept.command kept.progress
      exact invariant_applySet target inv' (kept.progress.ph.trans ph)
  · exact invariant_raiseError e sound

/-! ### The segment cursor -/

theorem framesAcked_mul {mtu : Nat} (pos : 1 ≤ mtu) (k : Nat) : framesAcked mtu (k * mtu) = k := by
  rw [framesAcked, Nat.add_sub_assoc pos, Nat.mul_comm, Nat.mul_add_div pos, Nat.div_eq_of_lt (by omega), Nat.add_zero]

/-- R139: a last, partial frame counts as one. -/
theorem framesAcked_mul_add {mtu c : Nat} (pos : 1 ≤ c) (le : c ≤ mtu) (k : Nat) :
    framesAcked mtu (k * mtu + c) = k + 1 := by
  have split : k * mtu + c + mtu - 1 = mtu * (k + 1) + (c - 1) := by
    rw [Nat.mul_add, Nat.mul_comm]
    omega
  rw [framesAcked, split, Nat.mul_add_div (by omega), Nat.div_eq_of_lt (by omega), Nat.add_zero]

/-- R139: the cursor where `SEQ_BEGIN` is acknowledged. -/
theorem segmentCursor_open {s : State} (low : 1 ≤ s.mtu.toNat) (long : s.mtu.toNat < s.len.toNat) (off : s.off = 0)
    (seq : s.seq = 0) : SegmentCursor s where
  segmented := long
  inMessage := by rw [off]; exact Nat.zero_le _
  full := by simp [off]
  seqAcked := by
    have none := framesAcked_mul low 0
    rw [Nat.zero_mul] at none
    simp [off, seq, none]

/-- R139, R141: the cursor after a segment. -/
theorem segmentCursor_advance {s t : State} (h : SegmentCursor s) (low : 1 ≤ s.mtu.toNat)
    (more : s.off.toNat < s.len.toNat) (mtu : t.mtu = s.mtu) (len : t.len = s.len) (seq : t.seq = s.seq + 1)
    (off : t.off.toNat = s.off.toNat + min s.mtu.toNat (s.len.toNat - s.off.toNat)) : SegmentCursor t := by
  obtain ⟨segmented, -, full, seqAcked⟩ := h
  obtain ⟨k, at_k⟩ : ∃ k, s.off.toNat = k * s.mtu.toNat := by
    have multiple := full.resolve_left (fun done => absurd (congrArg BitVec.toNat done) (Nat.ne_of_lt more))
    exact ⟨_, (Nat.div_mul_cancel (Nat.dvd_of_mod_eq_zero multiple)).symm⟩
  have next : framesAcked s.mtu.toNat t.off.toNat = k + 1 := by
    rw [off, at_k]
    exact framesAcked_mul_add (by omega) (Nat.min_le_left ..) k
  refine ⟨?_, ?_, ?_, ?_⟩
  · rwa [mtu, len]
  · rw [BitVec.le_def, len, off]
    omega
  · rw [mtu, len]
    by_cases last : s.len.toNat - s.off.toNat ≤ s.mtu.toNat
    · left
      apply BitVec.eq_of_toNat_eq
      omega
    · right
      rw [off, Nat.min_eq_left (by omega), at_k, ← Nat.succ_mul, Nat.mul_mod_left]
  · rw [mtu, next, seq, BitVec.toNat_add, seqAcked, at_k, framesAcked_mul low]
    simp [Nat.add_mod]

/-! ### The sending steps -/

/-- Step 5 of `WRITE`, from a `Sender` whose exchange has just begun. -/
theorem invariant_sendMessage {s : State} (h : Sound s) (busy : s.busy = true) (done : completionOk s)
    (cmd : s.cmd = cmdWrite) (mode : s.mode = .sender) (off : s.off = 0) (seq : s.seq = 0) :
    Invariant (sendMessage s) := by
  obtain ⟨v, sent, out⟩ := sendMessage_cases s
  have k := sent.sound h
  obtain ⟨e, -, eq⟩ | ⟨-, eq⟩ | ⟨long, eq⟩ := out
  · exact eq ▸ invariant_raiseError e k
  · exact eq ▸ invariant_complete_ok s.len k
  · obtain ⟨control, command, progress, exchange, -⟩ := sent
    rw [eq]
    refine invariant_of_running k (by simp) (progress.busy.trans busy)
      (completionOk_of_same done progress.status progress.count) ⟨command.cmd.trans cmd, control.mode.trans mode, ?_⟩
    have long' : v.mtu.toNat < v.len.toNat := by rwa [control.mtu, command.len]
    exact segmentCursor_open (s := setPhase .segment v) k.mtuLow long' (command.off.trans off) (exchange.seq.trans seq)

/-- A turn of the segment loop. -/
theorem invariant_sendSegment {s : State} (inv : Invariant s) (ph : s.ph = .segment) : Invariant (sendSegment s) := by
  obtain ⟨v, sent, out⟩ := sendSegment_cases s
  have k := sent.sound (sound_of_invariant inv)
  obtain ⟨e, -, eq⟩ | ⟨more, eq⟩ | ⟨-, eq⟩ := out
  · exact eq ▸ invariant_raiseError e k
  · obtain ⟨control, command, progress, -⟩ := sent
    have phase := inv.phase
    rw [phaseOk, ph] at phase
    obtain ⟨cmd, mode, cursor⟩ := phase
    have cursor' := segmentCursor_advance cursor (t := sendSegment s) inv.mtuLow more (eq ▸ control.mtu) (eq ▸ command.len)
      (eq ▸ rfl) (eq ▸ off_advance s more)
    have phase' : (sendSegment s).ph = .segment := eq ▸ progress.ph.trans ph
    have label : phaseOk (sendSegment s) := by
      rw [phaseOk, phase']
      exact ⟨eq ▸ command.cmd.trans cmd, eq ▸ control.mode.trans mode, cursor'⟩
    refine invariant_of_running (eq ▸ k) (by simp [phase'])
      (eq ▸ progress.busy.trans (busy_of_running inv (by simp [ph]))) ?_ label
    exact completionOk_of_same inv.completion (eq ▸ progress.status) (eq ▸ progress.count)
  · exact eq ▸ invariant_complete_ok s.len k

/-! ### The host commands -/

/-- What an accepted command makes of a sound state in which its word is latched. -/
theorem invariant_start {s t : State} {cmd : Byte} (start : Start s cmd t) (h : Sound s) (code : s.cmd = cmd)
    (busy : s.busy = true) (done : completionOk s) : Invariant t := by
  cases start with
  | noBuffer => exact invariant_raiseError .incorrectParameter h
  | requestRefused => exact invariant_raiseError .incorrectMode h
  | writeRefused | readRefused => exact invariant_raiseError .incorrectMode h
  | writeWaits role auto => exact invariant_of_running h (by simp) busy done ⟨code, role, auto, rfl⟩
  | writeSends => exact invariant_sendMessage h busy done code rfl rfl rfl
  | readWaits role auto => exact invariant_of_running h (by simp) busy done ⟨code, role, auto⟩
  | readListens => exact invariant_of_running h (by simp) busy done ⟨code, rfl⟩
  | requests req =>
    obtain ⟨v, sent, -, out⟩ := request_cases req (resetExchange s)
    have k := sent.sound h
    obtain eq | ⟨e, -, eq⟩ := out
    · exact eq ▸ invariant_complete_ok 0 k
    · exact eq ▸ invariant_raiseError e k

/-! ### The statements -/

/-- R251: the reset state is at rest, with every buffer empty. -/
theorem invariant_resetWith {c : Config} (wf : c.WellFormed) : Invariant (State.resetWith c) :=
  invariant_of_idle ⟨wf.1, wf.2, rfl, Nat.zero_le _, Nat.zero_le _, Nat.zero_le _, Nat.zero_lt_succ 127⟩ rfl rfl (.inl rfl)

/-- Settles O12: the reset state, and that the reference configuration is a valid one. -/
theorem resetMeetsTheInvariant : Obligations.ResetMeetsTheInvariant :=
  ⟨fun _ => invariant_resetWith, invariant_resetWith (by decide)⟩

/-- Settles O51: the ways a step can go. -/
theorem stepKeepsTheInvariant : Obligations.StepKeepsTheInvariant := by
  intro s t inv hstep
  have h := sound_of_invariant inv
  cases turn_of_step hstep with
  | rest => exact inv
  | @command w ms i _ ph host dec run =>
    have idle := inv.busyPhase.mpr ph
    exact invariant_start (exec_command_start (s := setHost ms s) (commandOf_of_decode dec) idle run) h rfl rfl
      inv.completion
  | @reserved w ms _ ph =>
    rw [rejectWord_idle (s := setHost ms s) w (inv.busyPhase.mpr ph)]
    exact invariant_raiseError _ h
  | @poke a b ms ph =>
    exact invariant_of_idle
      ⟨h.mtuLow, h.mtuHigh, memWrite_wf a.toNat b h.memory, h.attempts, h.txFits, h.rxFits, h.crcRange⟩ ph
      (inv.busyPhase.mpr ph) inv.completion
  | @reset c _ _ _ wf =>
    have r := sound_of_invariant (invariant_resetWith wf)
    exact invariant_of_idle ⟨r.mtuLow, r.mtuHigh, h.memory, r.attempts, r.txFits, r.rxFits, r.crcRange⟩ rfl rfl (.inl rfl)
  | deadline => exact invariant_raiseError .timeout h
  | nothing ph =>
    exact invariant_of_recv inv ph h ⟨rfl, rfl, rfl, rfl, rfl⟩ ⟨rfl, rfl, rfl, rfl, rfl⟩ ⟨rfl, rfl, rfl, rfl⟩
  | readError => exact invariant_raiseError _ h
  | corrupted rx => exact invariant_reply (invariant_received inv rx) rx.phase (by decide)
  | frame rx _ dec run =>
    exact invariant_exec_frame (invariant_received inv rx) rx.phase (isFrame_of_decode_frame dec) run
  | tooShort rx => exact invariant_raiseError .invalidFrame (sound_received h rx)
  | malformed rx => exact invariant_onMalformed (invariant_received inv rx) rx.phase
  | send ph =>
    have phase := inv.phase
    rw [phaseOk, ph] at phase
    obtain ⟨cmd, mode, off, seq⟩ := phase
    exact invariant_sendMessage h (busy_of_running inv (by simp [ph])) inv.completion cmd mode off seq
  | segment ph => exact invariant_sendSegment inv ph

end Sys2Proof.Proofs.InvariantSteps
end

section
/-! Safety of every step (10_state.md section 7, 20_memory.md): who transmits a data frame, what changes the
configuration, and what changes HBUF. -/

namespace Sys2Proof.Proofs.StepSafety
open Sys2Proof.Machine Sys2Proof.Safety Sys2Proof.Proofs.ReceivePath Sys2Proof.Proofs.Negotiation
open Sys2Proof.Proofs.Exceptions Sys2Proof.Proofs.Reactions Sys2Proof.Proofs.Frames

/-! ### What follows a reply -/

/-- The configuration, and the calls made. -/
def background (s : State) : Policy × Word × Word × PMalformed × List Call :=
  (s.policy, s.mtu, s.reserve, s.pMalformed, s.trace)

theorem finalize_background (s : State) : background (finalize s) = background s := by
  obtain eq | ⟨-, eq⟩ := finalize_cases s
  all_goals exact eq ▸ rfl

theorem flipped_background (target : Role) (w : RecvPhase) (s : State) :
    background (flipped target w s) = background s :=
  match w with
  | .msg => rfl
  | .wait .receiver => rfl
  | .wait .sender => rfl

/-- What an arm does after its reply makes no call and writes no configuration register (R166 to R176, R206). -/
theorem reaction_background {w : RecvPhase} {s u : State} {i : Instr} {k : State → State} (arm : Reaction w s i u k)
    (v : State) : background (k v) = background v := by
  cases arm with
  | answer | bracket => rfl
  | close => exact finalize_background v
  | accept p =>
    unfold appendData
    split
    · rfl
    · exact finalize_background _
  | @obey target =>
    by_cases same : v.mode = roleMode target
    · exact applySet_duplicate w same ▸ rfl
    · exact applySet_flips w same ▸ flipped_background target w v

/-- What the arm of a frame leaves is what its reply left. -/
theorem exec_frame_background {s t : State} {w : RecvPhase} {i : Instr} (ph : s.ph = .recv w) (frame : i.isFrame = true)
    (run : exec i s = .next t) : ∃ v, SameControl s v ∧ ControlCalls s v ∧ background t = background v := by
  obtain ⟨u, k, v, arm, kept, out⟩ := exec_frame_cases ph frame run
  refine ⟨v, kept.control, kept.calls, ?_⟩
  obtain rfl | ⟨e, -, rfl⟩ := out
  · exact reaction_background arm v
  · rfl

theorem reply_background {s : State} {type : Byte} (other : type ≠ ftData) :
    ∃ v, SameControl s v ∧ ControlCalls s v ∧ background (replyThen type id s) = background v := by
  obtain ⟨v, kept, out⟩ := replyThen_answered id (.nothing (s := s)) other
  refine ⟨v, kept.control, kept.calls, ?_⟩
  obtain eq | ⟨e, -, eq⟩ := out
  all_goals exact eq ▸ rfl

theorem onMalformed_background (s : State) :
    ∃ v, SameControl s v ∧ ControlCalls s v ∧ background (onMalformed s) = background v := by
  unfold onMalformed
  split
  · exact reply_background (by decide)
  · exact reply_background (by decide)
  · exact ⟨s, ⟨rfl, rfl, rfl, rfl, rfl⟩, controlCalls_of_eq rfl, rfl⟩

/-- A turn of the receive loop: the one `RxCall`, at most one reply of control frames, and no write of a configuration
register (R162 to R179). -/
theorem turn_recv_background {s t : State} {w : RecvPhase} (ph : s.ph = .recv w) (turn : Turn s t) :
    ∃ v, SameControl s v ∧ ControlCalls s v ∧ background t = background v := by
  have listened : ControlCalls s (afterRx (bound tInf s) s) := ⟨[_], rfl, by simp [isDataCall]⟩
  have after {b : List Byte} {t : State} (h : ∃ v, SameControl (received b s) v ∧ ControlCalls (received b s) v ∧
      background t = background v) : ∃ v, SameControl s v ∧ ControlCalls s v ∧ background t = background v := by
    obtain ⟨v, control, calls, eq⟩ := h
    exact ⟨v, ⟨control.1, control.2, control.3, control.4, control.5⟩, listened.trans calls, eq⟩
  cases turn with
  | rest idle | command idle | reserved idle | poke idle | reset idle | send idle | segment idle => simp [idle] at ph
  | deadline => exact ⟨s, ⟨rfl, rfl, rfl, rfl, rfl⟩, controlCalls_of_eq rfl, rfl⟩
  | nothing | readError | tooShort => exact ⟨afterRx (bound tInf s) s, ⟨rfl, rfl, rfl, rfl, rfl⟩, listened, rfl⟩
  | corrupted => exact after (reply_background (by decide))
  | frame rx _ dec run => exact after (exec_frame_background rx.phase (isFrame_of_decode_frame dec) run)
  | malformed => exact after (onMalformed_background _)

/-! ### Data frames -/

/-- The calls between two states transmit a data frame only for a `WRITE` of a `Sender`. -/
def DataBySender (s t : State) : Prop :=
  ∃ new : List Call, t.trace = new ++ s.trace ∧ ∀ c ∈ new, isDataCall c = true → t.mode = .sender ∧ t.cmd = cmdWrite

theorem dataBySender_of_controlCalls {s t : State} (h : ControlCalls s t) : DataBySender s t := by
  obtain ⟨new, added, control⟩ := h
  exact ⟨new, added, fun c hc data => absurd data (by simp [control c hc])⟩

theorem dataBySender_of_eq {s t : State} (same : t.trace = s.trace) : DataBySender s t :=
  dataBySender_of_controlCalls (controlCalls_of_eq same)

/-- Whatever a `WRITE` of a `Sender` transmits is in order. -/
theorem dataBySender_of_write {s t : State} (calls : ∃ new, t.trace = new ++ s.trace) (mode : t.mode = .sender)
    (cmd : t.cmd = cmdWrite) : DataBySender s t := by
  obtain ⟨new, added⟩ := calls
  exact ⟨new, added, fun _ _ _ => ⟨mode, cmd⟩⟩

theorem dataBySender_sendMessage {s : State} (mode : s.mode = .sender) (cmd : s.cmd = cmdWrite) :
    DataBySender s (sendMessage s) := by
  obtain ⟨v, sent, out⟩ := sendMessage_cases s
  have role := sent.control.mode.trans mode
  have code := sent.command.cmd.trans cmd
  obtain ⟨e, -, eq⟩ | ⟨-, eq⟩ | ⟨-, eq⟩ := out
  all_goals exact eq ▸ dataBySender_of_write sent.calls role code

theorem dataBySender_sendSegment {s : State} (mode : s.mode = .sender) (cmd : s.cmd = cmdWrite) :
    DataBySender s (sendSegment s) := by
  obtain ⟨v, sent, out⟩ := sendSegment_cases s
  have role := sent.control.mode.trans mode
  have code := sent.command.cmd.trans cmd
  obtain ⟨e, -, eq⟩ | ⟨-, eq⟩ | ⟨-, eq⟩ := out
  all_goals exact eq ▸ dataBySender_of_write sent.calls role code

/-- An accepted command, from the state `s` in which its word is latched. -/
theorem dataBySender_start {s t : State} {cmd : Byte} (start : Start s cmd t) (code : s.cmd = cmd) :
    DataBySender s t := by
  cases start with
  | writeSends => exact dataBySender_sendMessage (s := setOff 0 (resetExchange (setMode .sender s))) rfl code
  | requests req =>
    obtain ⟨v, -, calls, out⟩ := request_cases req (resetExchange s)
    refine dataBySender_of_controlCalls ?_
    obtain eq | ⟨e, -, eq⟩ := out
    all_goals exact eq ▸ calls
  | noBuffer | requestRefused | writeRefused | writeWaits | readRefused | readWaits | readListens =>
    exact dataBySender_of_eq rfl

/-- Settles O53: a turn of the receive loop replies with control frames only, a request sends one, and the phases that
send data frames belong to a `WRITE` of a `Sender`. -/
theorem onlyASenderTransmitsData : Obligations.OnlyASenderTransmitsData := by
  intro s t inv hstep
  have turn := turn_of_step hstep
  have phase := inv.phase
  cases ph : s.ph with
  | recv w =>
    obtain ⟨v, -, calls, eq⟩ := turn_recv_background ph turn
    simp only [background, Prod.mk.injEq] at eq
    obtain ⟨-, -, -, -, trace⟩ := eq
    exact dataBySender_of_controlCalls (calls.trans (controlCalls_of_eq trace))
  | send =>
    rw [phaseOk, ph] at phase
    obtain ⟨cmd, mode, -⟩ := phase
    cases (step_send ph).symm.trans hstep
    exact dataBySender_sendMessage mode cmd
  | segment =>
    rw [phaseOk, ph] at phase
    obtain ⟨cmd, mode, -⟩ := phase
    cases (step_segment ph).symm.trans hstep
    exact dataBySender_sendSegment mode cmd
  | idle =>
    have idle := inv.busyPhase.mpr ph
    cases turn with
    | @command w ms _ _ _ _ dec run =>
      have start := exec_command_start (s := setHost ms s) (commandOf_of_decode dec) idle run
      have sent := dataBySender_start start rfl
      exact sent
    | @reserved w ms => exact dataBySender_of_eq (by rw [rejectWord_idle (s := setHost ms s) w idle]; rfl)
    | rest | poke | reset => exact dataBySender_of_eq rfl
    | deadline other | nothing other | readError other | send other | segment other => simp [other] at ph
    | corrupted rx | frame rx | tooShort rx | malformed rx => simp [rx.phase] at ph

/-! ### The configuration -/

/-- The configuration registers are as before. -/
def SameConfiguration (s t : State) : Prop :=
  t.policy = s.policy ∧ t.mtu = s.mtu ∧ t.reserve = s.reserve ∧ t.pMalformed = s.pMalformed

/-- R68: no host command has an effect on a busy engine. -/
theorem exec_command_busy {s : State} {cmd : Byte} {len tmo : Word} {v : Bool} {i : Instr}
    (command : commandOf cmd len tmo v = some i) (busy : s.busy = true) : exec i s = .next s := by
  obtain ⟨-, rfl⟩ | ⟨-, rfl⟩ | ⟨-, rfl⟩ | ⟨-, rfl⟩ := commandOf_cases command
  all_goals exact congrArg _ (accept_busy busy)

/-- R12 to R14: a host command writes no configuration register, accepted or not. -/
theorem sameConfiguration_exec_command {s t : State} {cmd : Byte} {len tmo : Word} {v : Bool} {i : Instr}
    (command : commandOf cmd len tmo v = some i) (run : exec i s = .next t) : SameConfiguration s t := by
  cases busy : s.busy with
  | true => cases (exec_command_busy command busy).symm.trans run; exact ⟨rfl, rfl, rfl, rfl⟩
  | false =>
    obtain ⟨policy, mtu, reserve, pMalformed, -⟩ := frameOfHostCommands s t i cmd len tmo v command busy run
    exact ⟨policy, mtu, reserve, pMalformed⟩

/-- Settles O54: by the phase; the idle engine's moves are the host's. -/
theorem configurationChangesOnlyByReset : Obligations.ConfigurationChangesOnlyByReset := by
  intro s t hstep
  have turn := turn_of_step hstep
  cases ph : s.ph with
  | recv w =>
    obtain ⟨v, control, -, eq⟩ := turn_recv_background ph turn
    simp only [background, Prod.mk.injEq] at eq
    obtain ⟨policy, mtu, reserve, pMalformed, -⟩ := eq
    exact .inl ⟨policy.trans control.policy, mtu.trans control.mtu, reserve.trans control.reserve,
      pMalformed.trans control.pMalformed⟩
  | send | segment =>
    obtain ⟨control, -⟩ := frameOfSendingSteps s t (by simp [ph]) hstep
    exact .inl ⟨control.policy, control.mtu, control.reserve, control.pMalformed⟩
  | idle =>
    cases turn with
    | @command _ ms _ _ _ _ dec run =>
      exact .inl (sameConfiguration_exec_command (s := setHost ms s) (commandOf_of_decode dec) run)
    | reserved =>
      left
      unfold rejectWord accept
      split <;> exact ⟨rfl, rfl, rfl, rfl⟩
    | rest | poke => exact .inl ⟨rfl, rfl, rfl, rfl⟩
    | @reset c ms _ host => exact .inr ⟨c, ms, rfl, host⟩
    | deadline other | nothing other | readError other | send other | segment other => simp [other] at ph
    | corrupted rx | frame rx | tooShort rx | malformed rx => simp [rx.phase] at ph

/-! ### HBUF -/

/-- R41, R176: a frame leaves HBUF alone, or delivers the message in phase `Msg`. -/
theorem exec_frame_memory {s t : State} {w : RecvPhase} {i : Instr} (wf : memWf s.hbuf = true) (ph : s.ph = .recv w)
    (frame : i.isFrame = true) (run : exec i s = .next t) : SameMemory s t ∨ w = .msg ∧ Delivered s t := by
  obtain ⟨u, k, v, arm, kept, out⟩ := exec_frame_cases ph frame run
  have replied : SameMemory s v := sameMemory_of_eq kept.hbuf
  obtain rfl | ⟨e, -, rfl⟩ := out
  · cases arm with
    | answer | bracket => exact .inl replied
    | close msg =>
      have r := onlyReplied_of_went kept
      exact (messaged_finalize wf { r with exchange := ⟨rfl, rfl, rfl⟩ }).memory.imp_right fun d => ⟨msg, d⟩
    | accept p msg => exact (messaged_appendData p wf kept).memory.imp_right fun d => ⟨msg, d⟩
    | @obey target =>
      left
      by_cases same : v.mode = roleMode target
      · exact applySet_duplicate w same ▸ replied
      · rw [applySet_flips w same]
        match w with
        | .msg => exact replied
        | .wait .receiver => exact replied
        | .wait .sender => exact replied
  · exact .inl replied

theorem sameMemory_reply {s : State} {type : Byte} (other : type ≠ ftData) : SameMemory s (replyThen type id s) := by
  obtain ⟨v, kept, out⟩ := replyThen_answered id (.nothing (s := s)) other
  have replied : SameMemory s v := sameMemory_of_eq kept.hbuf
  obtain eq | ⟨e, -, eq⟩ := out
  all_goals exact eq ▸ replied

theorem sameMemory_onMalformed (s : State) : SameMemory s (onMalformed s) := by
  unfold onMalformed
  split
  · exact sameMemory_reply (by decide)
  · exact sameMemory_reply (by decide)
  · exact fun _ => rfl

/-- A delivery in terms of `COUNT`, which a message within `LEN` does not wrap (R176). -/
theorem delivered_count {s t : State} (h : Delivered s t) : CompletedWith statusOk t.count t ∧
    t.count.toNat = t.rb.length ∧ t.count.toNat ≤ s.len.toNat ∧
    ∀ x, memRead t.hbuf x = if x < t.count.toNat then t.rb.getD x 0 else memRead s.hbuf x := by
  obtain ⟨done, fits, bytes⟩ := h
  have count : t.count.toNat = t.rb.length := by
    rw [done.count, BitVec.toNat_ofNat, Nat.mod_eq_of_lt (Nat.lt_of_le_of_lt fits s.len.isLt)]
  rw [count]
  exact ⟨⟨done.status, rfl, done.ph, done.busy⟩, rfl, fits, bytes⟩

/-- Settles O55: the host's write, a delivery in the message loop, and every other step leaves HBUF alone. -/
theorem memoryChangesOnlyOnDelivery : Obligations.MemoryChangesOnlyOnDelivery := by
  intro s t inv hstep
  cases turn_of_step hstep with
  | @command w ms i _ ph _ dec run =>
    obtain ⟨-, -, -, -, memory, -⟩ := frameOfHostCommands (setHost ms s) t i _ _ _ _ (commandOf_of_decode dec)
      (inv.busyPhase.mpr ph) run
    exact .inl memory
  | @reserved w ms _ ph =>
    rw [rejectWord_idle (s := setHost ms s) w (inv.busyPhase.mpr ph)]
    exact .inl fun _ => rfl
  | @poke a b ms ph host => exact .inr (.inl ⟨a, b, ms, ph, host, fun x => memRead_memWrite a.toNat x b inv.memory⟩)
  | @frame b w _ _ rx _ dec run =>
    obtain memory | ⟨rfl, delivered⟩ :=
      exec_frame_memory (s := received b s) inv.memory rx.phase (isFrame_of_decode_frame dec) run
    · exact .inl memory
    · have phase := inv.phase
      rw [phaseOk, rx.phase] at phase
      obtain ⟨cmd, -⟩ := phase
      exact .inr (.inr ⟨rx.phase, cmd, delivered_count (s := s) delivered⟩)
  | corrupted => exact .inl (sameMemory_reply (s := received _ s) (by decide))
  | malformed => exact .inl (sameMemory_onMalformed (received _ s))
  | send ph =>
    obtain ⟨-, memory, -⟩ := frameOfSendingSteps s _ (.inl ph) hstep
    exact .inl memory
  | segment ph =>
    obtain ⟨-, memory, -⟩ := frameOfSendingSteps s _ (.inr ph) hstep
    exact .inl memory
  | rest | reset | deadline | nothing | readError | tooShort => exact .inl fun _ => rfl

end Sys2Proof.Proofs.StepSafety
end

section
/-! Deadlines (10_state.md R19, 42_send_path.md section 2, 43_receive_path.md section 6): the saturating clock, the limit
handed to the transport, and the receive loop to which nothing comes. -/

namespace Sys2Proof.Proofs.Deadline
open Sys2Proof.Machine Sys2Proof.Safety Sys2Proof.Proofs.Frames

/-! ### The clock -/

/-- R19: the clock stops at its greatest value. -/
theorem charge_toNat (e : Word) (d : Nat) : (charge e d).toNat = min (e.toNat + d) (2 ^ 32 - 1) := by
  rw [charge, BitVec.toNat_ofNat]
  omega

theorem foldl_charge_toNat (ds : List Nat) :
    ∀ e : Word, (ds.foldl charge e).toNat = min (e.toNat + ds.sum) (2 ^ 32 - 1) := by
  induction ds with
  | nil =>
    intro e
    have := e.isLt
    simp only [List.foldl_nil, List.sum_nil]
    omega
  | cons d ds ih =>
    intro e
    rw [List.foldl_cons, ih, charge_toNat, List.sum_cons]
    omega

/-- R18: a finite `TMO` is below the greatest value of the clock. -/
theorem finite_tmo {tmo : Word} (finite : tmo ≠ tInf) : tmo.toNat < 2 ^ 32 - 1 := by
  have : tmo.toNat ≠ (tInf : Word).toNat := fun h => finite (BitVec.eq_of_toNat_eq h)
  have : (tInf : Word).toNat = 2 ^ 32 - 1 := by decide
  have := tmo.isLt
  omega

/-- Settles O22: the saturated sum and a finite `TMO` are compared below the greatest value. -/
theorem saturatingElapsedIsExact : Obligations.SaturatingElapsedIsExact := by
  intro ds tmo finite
  have below := finite_tmo finite
  have sum := foldl_charge_toNat ds 0
  rw [show (0 : Word).toNat = 0 from rfl, Nat.zero_add] at sum
  constructor <;> omega

/-! ### `Expired` and `Bound` -/

theorem expired_iff {s : State} : expired s = true ↔ s.tmo ≠ tInf ∧ s.tmo.toNat ≤ s.elapsed.toNat := by
  simp [expired, BitVec.le_def]

theorem live_iff {s : State} : expired s = false ↔ s.tmo = tInf ∨ s.elapsed.toNat < s.tmo.toNat := by
  rw [← Bool.not_eq_true, expired_iff, not_and_or, not_not, Nat.not_le]

theorem bound_infinite {s : State} (t : Word) (infinite : s.tmo = tInf) : bound t s = t := if_pos infinite

/-- R131: while time is left, the limit is cut to what is left of a finite `TMO`. -/
theorem bound_finite {s : State} (t : Word) (finite : s.tmo ≠ tInf) (left : s.elapsed.toNat < s.tmo.toNat) :
    (bound t s).toNat = min t.toNat (s.tmo.toNat - s.elapsed.toNat) := by
  have below := finite_tmo finite
  have rest : (s.tmo - s.elapsed).toNat = s.tmo.toNat - s.elapsed.toNat :=
    BitVec.toNat_sub_of_le (Nat.le_of_lt left)
  have top : (tInf : Word).toNat = 2 ^ 32 - 1 := by decide
  rw [bound, if_neg finite]
  split_ifs with unlimited within
  · rw [unlimited, rest]
    omega
  · rw [BitVec.le_def, rest] at within
    omega
  · rw [BitVec.le_def, rest] at within
    rw [rest]
    omega

/-- Settles O21: the two cases of `TMO`. -/
theorem boundCutsToTheBudget : Obligations.BoundCutsToTheBudget := by
  intro s t
  have value (live : expired s = false) : (bound t s).toNat =
      if s.tmo = tInf then t.toNat else min t.toNat (s.tmo.toNat - s.elapsed.toNat) := by
    split_ifs with infinite
    · rw [bound_infinite t infinite]
    · exact bound_finite t infinite ((live_iff.mp live).resolve_left infinite)
  refine ⟨expired_iff, value, fun live asked => ?_⟩
  rw [value live]
  split_ifs with infinite
  · exact asked
  · have := (live_iff.mp live).resolve_left infinite
    omega

/-! ### A turn of the receive loop without a frame -/

/-- R227: the deadline has passed before the call. -/
theorem step_expired {s : State} {w : RecvPhase} (ph : s.ph = .recv w) (late : expired s = true) :
    step s = .next (raiseError .timeout s) := by
  simp [step, fetch_recv ph, receive, recvOnce_eq, late]

/-- R179: nothing was read, and the loop iterates. -/
theorem step_nothing {s : State} {w : RecvPhase} (ph : s.ph = .recv w) (live : expired s = false)
    (rx : rxOutcome s = .rxNone) : step s = .next (afterRx (bound tInf s) s) := by
  simp [step, fetch_recv ph, receive, recvOnce_eq, live, rx]

/-- R133: a read error ends the command, by the deadline as it stands after the call. -/
theorem step_readError {s : State} {w : RecvPhase} (ph : s.ph = .recv w) (live : expired s = false)
    (rx : rxOutcome s = .rxError) :
    step s = .next (raiseError (if expired (afterRx (bound tInf s) s) then .timeout else .readFailed)
      (afterRx (bound tInf s) s)) := by
  simp [step, fetch_recv ph, receive, recvOnce_eq, live, rx]

/-- Settles O20: the three turns without a frame. -/
theorem receiveLoopWithoutAFrame : Obligations.ReceiveLoopWithoutAFrame := by
  intro s w ph
  refine ⟨step_nothing ph, fun live rx => ⟨_, step_readError ph live rx, rfl, fun late => ?_, fun left => ?_⟩,
    fun late => ⟨_, step_expired ph late, endedBy_raiseError .timeout s, rfl⟩⟩
  · rw [late]
    exact endedBy_raiseError .timeout _
  · rw [left]
    exact endedBy_raiseError .readFailed _

/-! ### Runs -/

/-- A step before a run. -/
theorem run_succ {M : Host.Core} {s t : M.State} (h : M.step s = .next t) (k : Nat) : M.run (k + 1) s = M.run k t := by
  rw [Host.Core.run, h]

/-- A run in two parts. -/
theorem run_add {M : Host.Core} {j : Nat} : ∀ {s t : M.State}, M.run j s = .next t → ∀ k,
    M.run (j + k) s = M.run k t := by
  induction j with
  | zero =>
    intro s t h k
    cases h
    rw [Nat.zero_add]
  | succ j ih =>
    intro s t h k
    rw [Nat.add_right_comm]
    cases first : M.step s with
    | next u =>
      rw [run_succ first] at h ⊢
      exact ih h k
    | fault r => rw [Host.Core.run, first] at h; cases h
    | refused r => rw [Host.Core.run, first] at h; cases h

/-- The answer of an empty read that takes `d` milliseconds. -/
def emptyRead (d : Nat) : RxAnswer := { outcome := .rxNone, dt := d }

/-- R179: a listed empty read with time left. -/
theorem step_emptyRead {s : State} {w : RecvPhase} {d : Nat} {q : List RxAnswer} (ph : s.ph = .recv w)
    (live : expired s = false) (rxq : s.rxq = emptyRead d :: q) : ∃ t, step s = .next t ∧ t.ph = .recv w ∧
      t.mode = s.mode ∧ t.tmo = s.tmo ∧ t.rxq = q ∧ t.elapsed = charge s.elapsed d := by
  have answer : rxAnswer s = emptyRead d := by simp [rxAnswer, rxq]
  have rx : rxOutcome s = .rxNone := by simp [rxOutcome, answer, emptyRead, lawfulRx]
  refine ⟨_, step_nothing ph live rx, ph, rfl, rfl, by simp [rxq], ?_⟩
  rw [afterRx_elapsed, answer]
  rfl

/-- R179, R242: a run of empty reads of which all but the last end before the deadline. -/
theorem run_emptyReads {w : RecvPhase} (ds : List Nat) : ∀ {s : State}, s.ph = .recv w → s.tmo ≠ tInf →
    s.rxq = ds.map emptyRead → (ds ≠ [] → s.elapsed.toNat + ds.dropLast.sum < s.tmo.toNat) →
    ∃ t, Host.Core.run Sys2Proof.core ds.length s = .next t ∧ t.ph = .recv w ∧ t.mode = s.mode ∧ t.tmo = s.tmo ∧
      t.rxq = [] ∧ t.elapsed.toNat = min (s.elapsed.toNat + ds.sum) (2 ^ 32 - 1) := by
  induction ds with
  | nil =>
    intro s ph _ rxq _
    have := s.elapsed.isLt
    refine ⟨s, rfl, ph, rfl, rfl, rxq, ?_⟩
    rw [List.sum_nil]
    omega
  | cons d ds ih =>
    intro s ph finite rxq early
    have early := early (List.cons_ne_nil d ds)
    have live : expired s = false := live_iff.mpr (.inr (by omega))
    obtain ⟨u, first, uph, umode, utmo, urxq, uelapsed⟩ := step_emptyRead ph live rxq
    have clock : u.elapsed.toNat = min (s.elapsed.toNat + d) (2 ^ 32 - 1) := by rw [uelapsed, charge_toNat]
    have rest : ds ≠ [] → u.elapsed.toNat + ds.dropLast.sum < u.tmo.toNat := by
      intro more
      rw [List.dropLast_cons_of_ne_nil more, List.sum_cons] at early
      rw [clock, utmo]
      omega
    obtain ⟨t, run, tph, tmode, ttmo, trxq, telapsed⟩ := ih uph (utmo ▸ finite) urxq rest
    refine ⟨t, (run_succ (M := core) first _).trans run, tph, tmode.trans umode, ttmo.trans utmo, trxq, ?_⟩
    rw [telapsed, clock, List.sum_cons]
    omega

/-- Settles O58: after the empty reads the deadline has passed, by the exact sum of their times. -/
theorem silentReceiveEndsAtTheDeadline : Obligations.SilentReceiveEndsAtTheDeadline := by
  intro s w ds ph finite rxq early late
  obtain ⟨t, run, tph, tmode, ttmo, trxq, telapsed⟩ := run_emptyReads ds ph finite rxq fun _ => early
  have below := finite_tmo finite
  have passed : expired t = true := expired_iff.mpr ⟨ttmo ▸ finite, by rw [ttmo, telapsed]; omega⟩
  refine ⟨⟨t, run, tph, trxq⟩, raiseError .timeout t, ?_, endedBy_raiseError .timeout t, tmode⟩
  exact (run_add run 1).trans (run_succ (M := core) (step_expired tph passed) 0)

end Sys2Proof.Proofs.Deadline
end

section
/-! Single steps (00_scope.md section 3, 42_send_path.md section 4, 43_receive_path.md section 2, 44_mode_negotiation.md
section 3): the host's moves, the commands as they begin, and the sending steps by the outcomes of `SendArq`. -/

namespace Sys2Proof.Proofs.Commands
open Sys2Proof.Machine Sys2Proof.Safety Sys2Proof.Proofs.SendPath Sys2Proof.Proofs.Negotiation
open Sys2Proof.Proofs.Reactions Sys2Proof.Proofs.Frames Sys2Proof.Proofs.StepSafety Sys2Proof.Proofs.Deadline

/-! ### What a step adds around `exec` -/

/-- R7: an idle engine takes the host's next move. -/
theorem fetch_host {s : State} {m : HostMove} {ms : List HostMove} (ph : s.ph = .idle) (host : s.host = m :: ms) :
    fetch s = hostMove m (setHost ms s) := by
  simp only [fetch, ph, host]

/-- R68: the step that takes a command word. -/
theorem step_command {s : State} {w : HostWord} {ms : List HostMove} {i : Instr} (ph : s.ph = .idle)
    (host : s.host = .command w :: ms) (dec : decode (.word w) = .ok i) : step s = exec i (setHost ms s) := by
  simp only [step, fetch_host ph host, hostMove, dec]

/-- R162: the step that receives a frame. -/
theorem step_frame {s : State} {w : RecvPhase} {b : List Byte} {i : Instr} (rx : Receives b w s)
    (ver : verify b = true) (dec : decode (.frame b) = .ok i) : step s = exec i (received b s) := by
  simp only [step, fetch_receives rx, dispatchFrame, storeRx_rxf, ver, dec, if_true, noteVerify_storeRx]

/-- Settles O14: the taking of the move, and the command. -/
theorem stepRunsThePresentedCommand : Obligations.StepRunsThePresentedCommand :=
  fun _ _ _ _ ph host dec => step_command ph host dec

/-- Settles O15: the `RxCall`, and the frame. -/
theorem stepRunsTheReceivedFrame : Obligations.StepRunsTheReceivedFrame :=
  fun _ _ _ _ rx ver dec => step_frame rx ver dec

/-- Settles O13: the host's reset by whether its record is a valid FPE. -/
theorem hostResetReconstructs : Obligations.HostResetReconstructs := by
  intro s c ms ph host
  refine ⟨fun wf => ?_, fun bad => ?_⟩
  · rw [step, fetch_host ph host, hostMove, if_pos wf]
    rfl
  · rw [step, fetch_host ph host, hostMove, if_neg bad]

/-- Settles O36: the arm of a frame is the arm of the receive loop. -/
theorem frameOutsideTheLoopHasNoEffect : Obligations.FrameOutsideTheLoopHasNoEffect :=
  fun _ _ frame outside => exec_frame_outside frame outside

/-- Settles O45: each host command is accepted only by an idle engine. -/
theorem busyEngineIgnoresCommands : Obligations.BusyEngineIgnoresCommands := by
  intro s i busy command
  cases i with
  | write | read | reqPeerSend | reqPeerRecv => exact congrArg _ (accept_busy busy)
  | ack | nack | seqBegin | seqEnd | setSend | setRecv | data => cases command

/-! ### `READ` -/

/-- R161 steps 1 to 5: `READ` of an engine that is no `Sender`. -/
theorem exec_read_listens {s : State} (len tmo : Word) (idle : s.busy = false) (role : s.mode ≠ .sender) :
    exec (.read len tmo true) s =
      .next (setPhase (.recv .msg) (resetExchange (setMode .receiver (latch cmdRead len tmo true s)))) :=
  congrArg _ ((accept_idle idle).trans (startRead_listen (latch_bufv ..) role))

/-- R161 step 4: `READ` of a `Sender` under `Auto`. -/
theorem exec_read_waits {s : State} (len tmo : Word) (idle : s.busy = false) (role : s.mode = .sender)
    (auto : s.policy = .auto) : exec (.read len tmo true) s =
      .next (setPhase (.recv (.wait .receiver)) (resetExchange (latch cmdRead len tmo true s))) :=
  congrArg _ ((accept_idle idle).trans (startRead_wait (latch_bufv ..) role auto))

/-- Settles O40: the bootstrap, and the phase by the role. -/
theorem readEntersTheReceiveLoop : Obligations.ReadEntersTheReceiveLoop :=
  fun _ len tmo idle => ⟨exec_read_listens len tmo idle, exec_read_waits len tmo idle⟩

/-! ### A step that sends one frame -/

/-- The frame was built from `s`, and nothing else of it was written. -/
theorem sameMessage_of_built {s t : State} {f : List Byte} {c : Byte}
    (h : SameMessage { s with txf := f, crcacc := c } t) : SameMessage s t := by
  obtain ⟨control, exchange, command, memory⟩ := h
  exact ⟨⟨control.1, control.2, control.3, control.4, control.5⟩, ⟨exchange.1, exchange.2, exchange.3⟩,
    ⟨command.1, command.2, command.3, command.4, command.5⟩, memory⟩

/-- R134: such a step by the outcomes of its one `SendArq`. -/
theorem send_outcomes {o : Host.Outcome State Fault Refusal} {k : State → State} {u : State}
    (h : o = .next (sendThen k u)) : (∀ t, sendArq u = .halt t → o = .next t ∧ SameMessage u t) ∧
      ∀ t, sendArq u = .cont () t → SameMessage u t ∧ o = .next (k t) :=
  ⟨fun _ ended => ⟨h.trans (congrArg _ (sendThen_halt ended)), sendArq_message (.inr ended)⟩,
    fun _ went => ⟨sendArq_message (.inl went), h.trans (congrArg _ (sendThen_cont went))⟩⟩

/-- The same of the state from which the frame was built. -/
theorem built_outcomes {o : Host.Outcome State Fault Refusal} {k : State → State} {s : State} {f : List Byte} {c : Byte}
    (h : o = .next (sendThen k { s with txf := f, crcacc := c })) :
    (∀ t, sendArq { s with txf := f, crcacc := c } = .halt t → o = .next t ∧ SameMessage s t) ∧
      ∀ t, sendArq { s with txf := f, crcacc := c } = .cont () t → SameMessage s t ∧ o = .next (k t) := by
  obtain ⟨ended, went⟩ := send_outcomes h
  exact ⟨fun t ht => (ended t ht).imp_right sameMessage_of_built, fun t ht => (went t ht).imp_left sameMessage_of_built⟩

/-- Settles O38: the opening of a long message is the sending of `SEQ_BEGIN`. -/
theorem longWriteOpensWithSeqBegin : Obligations.LongWriteOpensWithSeqBegin := by
  intro s u len tmo idle role long hu
  have sends : exec (.write len tmo true) s = .next (sendThen (setPhase .segment) u) := by
    rw [hu, exec_write_sends len tmo idle role, sendMessage_long (s := writing len tmo s) long]
    rfl
  obtain ⟨ended, went⟩ := send_outcomes sends
  exact ⟨ended, fun t ht => (went t ht).symm, fun first => (went _ (sendArq_first first)).2⟩

/-- Settles O39: a turn of the segment loop is the sending of a segment or of `SEQ_END`. -/
theorem segmentStepAdvancesTheCursor : Obligations.SegmentStepAdvancesTheCursor := by
  intro s u ph
  have turn := step_segment ph
  refine ⟨fun more => ?_, fun last => ?_⟩
  · rintro rfl
    rw [sendSegment_more more] at turn
    obtain ⟨ended, went⟩ := built_outcomes (s := s) turn
    have advanced (t : State) (h : step s = .next (setOff (s.off + BitVec.ofNat 32 (chunkLen s)) (setSeq (nextSeq s) t))) :
        ∃ v, step s = .next v ∧ v = { t with seq := s.seq + 1, off := v.off } ∧
          v.off.toNat = s.off.toNat + min s.mtu.toNat (s.len.toNat - s.off.toNat) :=
      ⟨_, h, rfl, off_advance s more⟩
    exact ⟨ended, fun t ht => (went t ht).imp_right (advanced t),
      fun first => advanced _ (went _ (sendArq_first first)).2⟩
  · rintro rfl
    rw [sendSegment_last last] at turn
    obtain ⟨ended, went⟩ := built_outcomes (s := s) turn
    have completed (t : State) (h : SameMessage s t ∧ step s = .next (complete statusOk t.len t)) :
        SameMessage s t ∧ step s = .next { t with status := 0x00, count := s.len, ph := .idle, busy := false } := by
      obtain ⟨kept, h⟩ := h
      rw [kept.command.len] at h
      exact ⟨kept, h⟩
    exact ⟨ended, fun t ht => completed t (went t ht), fun first => (completed _ (went _ (sendArq_first first))).2⟩

/-- Settles O41: the wait, and after it the sending from the state as it stands. -/
theorem writeOfAReceiverWaits : Obligations.WriteOfAReceiverWaits := by
  intro s len tmo
  refine ⟨fun idle role auto => ?_, fun ph u short => ?_, fun ph u long => ?_⟩
  · exact congrArg _ ((accept_idle idle).trans
      (startWrite_wait (s := latch cmdWrite len tmo true s) rfl role auto))
  · rintro rfl
    have sends := step_send ph
    rw [sendMessage_short short] at sends
    obtain ⟨ended, went⟩ := built_outcomes (s := s) sends
    have completed (t : State)
        (h : SameMessage s t ∧ step s = .next (complete statusOk t.len (setOff t.len (setSeq 1 t)))) :
        SameMessage s t ∧ step s = .next { t with
          seq := 1, off := s.len, status := 0x00, count := s.len, ph := .idle, busy := false } := by
      obtain ⟨kept, h⟩ := h
      rw [kept.command.len] at h
      exact ⟨kept, h⟩
    exact ⟨ended, fun t ht => completed t (went t ht), fun first => (completed _ (went _ (sendArq_first first))).2⟩
  · rintro rfl
    have sends := step_send ph
    rw [sendMessage_long long] at sends
    obtain ⟨ended, went⟩ := built_outcomes (s := s) sends
    exact ⟨ended, went, fun first => (went _ (sendArq_first first)).2⟩

/-! ### The request commands -/

/-- R207, R208, R266: a request that has not completed `OK` has not moved `MODE`. -/
theorem requestPeer_failed {cmd type : Byte} {m : Mode} (req : Request cmd type m) {s t : State}
    (ends : t = requestPeer type m s) (failed : t.status ≠ 0x00) : t.mode = s.mode ∧ t.count = 0 ∧ t.busy = false ∧
      (t.status = 0x82 ∨ t.status = 0x83 ∨ t.status = 0x84 ∨ t.status = 0x85) := by
  subst ends
  cases pol : s.policy with
  | manual => exact requestPeer_manual type m pol ▸ ⟨rfl, rfl, rfl, .inl rfl⟩
  | auto =>
    rw [requestPeer_auto type m pol] at failed ⊢
    obtain ⟨v, sent, -, eq | ⟨e, he, eq⟩⟩ := request_cases req (resetExchange s)
    · exact absurd (congrArg State.status eq) failed
    · rw [eq]
      refine ⟨sent.control.mode, rfl, rfl, .inr ?_⟩
      obtain rfl | rfl | rfl := he
      · exact .inl rfl
      · exact .inr (.inl rfl)
      · exact .inr (.inr rfl)

/-- Settles O44: both requests are the one operation. -/
theorem failedRequestKeepsTheRole : Obligations.FailedRequestKeepsTheRole := by
  intro s t len tmo v i idle request run failed
  obtain rfl | rfl := request
  all_goals
    cases run
    rw [accept_idle idle] at failed ⊢
  · exact requestPeer_failed .peerSend (s := latch cmdReqPeerSend len tmo v s) rfl failed
  · exact requestPeer_failed .peerRecv (s := latch cmdReqPeerRecv len tmo v s) rfl failed

/-! ### No time at all -/

/-- R131: with `TMO` 0 the deadline has passed at once. -/
theorem expired_of_zero {s : State} (zero : s.tmo = 0) : expired s = true :=
  expired_iff.mpr ⟨by rw [zero]; decide, by rw [zero]; exact Nat.zero_le _⟩

/-- R134, R144: after the deadline `SendArq` counts an attempt and makes no call. -/
theorem sendArq_expired {s : State} (late : expired s = true) :
    sendArq s = .halt (raiseError .timeout (setAttempt 1 s)) := by
  have late' : expired (setAttempt 1 s) = true := late
  have first : arqAttempt (setAttempt 1 s) = .halt (raiseError .timeout (setAttempt 1 s)) := by
    rw [arqAttempt, xmitOnce_of_expired tSub late']
  have counted : setAttempt ((setAttempt 0 s).attempt + 1) (setAttempt 0 s) = setAttempt 1 s := rfl
  rw [sendArq, nAttempts, retryLoop_succ, counted, first]

/-- R145: step 5 of `WRITE` with no time. -/
theorem sendMessage_expired {s : State} (late : expired s = true) : EndedBy .timeout (sendMessage s) ∧
    (sendMessage s).mode = s.mode ∧ (sendMessage s).attempt = 1 ∧ (sendMessage s).seq = s.seq ∧
    (sendMessage s).trace = s.trace := by
  by_cases short : s.len.toNat ≤ s.mtu.toNat
  · rw [sendMessage_short short, sendThen_halt (sendArq_expired (s := encData 1 _ s) late)]
    exact ⟨endedBy_raiseError .timeout _, rfl, rfl, rfl, rfl⟩
  · rw [sendMessage_long (Nat.lt_of_not_le short), sendThen_halt (sendArq_expired (s := encCtrl ftSeqBegin s) late)]
    exact ⟨endedBy_raiseError .timeout _, rfl, rfl, rfl, rfl⟩

/-- Settles O46: `WRITE` at its first attempt, `READ` at the head of its message loop. -/
theorem zeroTimeoutEndsBeforeTheFirstCall : Obligations.ZeroTimeoutEndsBeforeTheFirstCall := by
  intro s len idle
  refine ⟨fun role => ⟨_, exec_write_sends len 0 idle role, ?_⟩,
    fun role => ⟨_, _, exec_read_listens len 0 idle role, step_expired (w := .msg) rfl (expired_of_zero rfl),
      endedBy_raiseError .timeout _, rfl, rfl⟩⟩
  exact sendMessage_expired (s := writing len 0 s) (expired_of_zero rfl)

end Sys2Proof.Proofs.Commands
end

section
/-! The retry loop against a given environment (42_send_path.md section 3, 43_receive_path.md section 3): how it ends a
command, how many calls it makes, and what it does with answers known in advance. -/

namespace Sys2Proof.Proofs.Retry
open Sys2Proof.Machine Sys2Proof.Safety Sys2Proof.Proofs.SendPath Sys2Proof.Proofs.Frames Sys2Proof.Proofs.Deadline

/-! ### How it ends a command -/

/-- Settles O28: `raise` leaves the deadline and the attempt counter as the loop found them. -/
theorem deadlineWinsOverTheBudget : Obligations.DeadlineWinsOverTheBudget := by
  intro s t type ended
  obtain ended | ended := ended
  · obtain ⟨u, late, rfl⟩ | ⟨u, left, all, rfl⟩ | ⟨u, left, rfl⟩ := sendArq_halt ended
    · exact .inl ⟨endedBy_raiseError .timeout u, late⟩
    · exact .inr (.inl ⟨endedBy_raiseError .writeFailed u, left, all⟩)
    · exact .inr (.inr ⟨endedBy_raiseError .readFailed u, left⟩)
  · obtain ⟨u, late, rfl⟩ | ⟨u, left, all, rfl⟩ := reply_halt ended
    · exact .inl ⟨endedBy_raiseError .timeout u, late⟩
    · exact .inr (.inl ⟨endedBy_raiseError .writeFailed u, left, all⟩)

/-! ### How many calls it makes -/

/-- R131: the limit handed to the transport is at most the one asked for, unless that is the infinite one. -/
theorem bound_le {t : Word} (s : State) (asked : t ≠ tInf) : bound t s ≤ t := by
  unfold bound
  split_ifs with infinite within
  · exact BitVec.le_refl t
  · exact BitVec.le_refl t
  · exact BitVec.le_of_lt (BitVec.not_le.mp within)

/-- A call of `SendArq` (R134): of the frame in `TXF`, or for at most `RX_MAX` bytes, within `T_SUB`. -/
def ArqCall (s : State) : Call → Prop
  | .tx f l _ _ => f = s.txf ∧ l ≤ tSub
  | .rx m l _ _ => m = rxMax s ∧ l ≤ tSub

/-- From `s` to `t` at most `n` calls of `SendArq` are made, and what they are made with stays. -/
structure ArqCalls (n : Nat) (s t : State) : Prop where
  txf : t.txf = s.txf
  mtu : t.mtu = s.mtu
  calls : ∃ new : List Call, t.trace = new ++ s.trace ∧ new.length ≤ n ∧ ∀ c ∈ new, ArqCall s c

theorem arqCalls_of_eq {s t : State} (n : Nat) (txf : t.txf = s.txf) (mtu : t.mtu = s.mtu) (trace : t.trace = s.trace) :
    ArqCalls n s t :=
  ⟨txf, mtu, [], trace, Nat.zero_le n, by simp⟩

theorem ArqCalls.trans {m n : Nat} {s t u : State} (h : ArqCalls m s t) (k : ArqCalls n t u) :
    ArqCalls (m + n) s u := by
  obtain ⟨htxf, hmtu, a, ha, la, ca⟩ := h
  obtain ⟨ktxf, kmtu, b, hb, lb, cb⟩ := k
  refine ⟨ktxf.trans htxf, kmtu.trans hmtu, b ++ a, by rw [hb, ha, List.append_assoc], ?_, fun c hc => ?_⟩
  · rw [List.length_append]
    omega
  · refine (List.mem_append.mp hc).elim (fun later => ?_) (ca c)
    have same := cb c later
    cases c with
    | tx f l o d => rwa [ArqCall, htxf] at same
    | rx m l o d => rwa [ArqCall, rxMax, hmtu] at same

/-- Fewer calls than allowed. -/
theorem ArqCalls.mono {m n : Nat} {s t : State} (le : m ≤ n) (h : ArqCalls m s t) : ArqCalls n s t := by
  obtain ⟨txf, mtu, new, added, few, calls⟩ := h
  exact ⟨txf, mtu, new, added, few.trans le, calls⟩

/-- What is written beside the frame, `MTU` and the trace does not matter. -/
theorem ArqCalls.written {n : Nat} {s t u : State} (h : ArqCalls n s t) (txf : u.txf = t.txf) (mtu : u.mtu = t.mtu)
    (trace : u.trace = t.trace) : ArqCalls n s u :=
  h.trans (arqCalls_of_eq 0 txf mtu trace)

/-- The state an operation goes on from, or has ended the command in. -/
def runResult {α : Type} : Run α → State
  | .cont _ t => t
  | .halt t => t

theorem arqCalls_afterTx (s : State) : ArqCalls 1 s (afterTx (bound tSub s) s) :=
  ⟨rfl, rfl, [_], rfl, Nat.le_refl 1, fun c hc => by
    rw [List.mem_singleton.mp hc]
    exact ⟨rfl, bound_le s (by decide)⟩⟩

theorem arqCalls_afterRx (s : State) : ArqCalls 1 s (afterRx (bound tSub s) s) :=
  ⟨rfl, rfl, [_], rfl, Nat.le_refl 1, fun c hc => by
    rw [List.mem_singleton.mp hc]
    exact ⟨rfl, bound_le s (by decide)⟩⟩

theorem arqCalls_xmitOnce (s : State) : ArqCalls 1 s (runResult (xmitOnce tSub s)) := by
  rw [xmitOnce_eq]
  split
  · exact arqCalls_of_eq 1 rfl rfl rfl
  · exact arqCalls_afterTx s

theorem arqCalls_recvOnce (s : State) : ArqCalls 1 s (runResult (recvOnce tSub s)) := by
  have called := arqCalls_afterRx s
  rw [recvOnce_eq]
  split
  · exact arqCalls_of_eq 1 rfl rfl rfl
  · split <;> exact called.written rfl rfl rfl

/-- R134: an attempt is one pair of calls. -/
theorem arqCalls_arqAttempt (s : State) : ArqCalls 2 s (runResult (arqAttempt s)) := by
  have sends := arqCalls_xmitOnce s
  unfold arqAttempt
  cases xmit : xmitOnce tSub s with
  | halt t => rw [xmit] at sends; exact sends.mono (by decide)
  | cont sent t =>
    rw [xmit] at sends
    cases sent with
    | false => exact sends.mono (by decide)
    | true =>
      have waits := arqCalls_recvOnce t
      dsimp only
      cases recv : recvOnce tSub t with
      | halt u => rw [recv] at waits; exact sends.trans waits
      | cont o u =>
        rw [recv] at waits
        cases o with
        | rxOk b => exact (sends.trans waits).written rfl rfl rfl
        | rxNone | rxError => exact sends.trans waits

/-- R134: the loop makes a pair of calls for each attempt. -/
theorem arqCalls_retryLoop : ∀ (n : Nat) (s : State), ArqCalls (2 * n) s (runResult (retryLoop arqAttempt n s))
  | 0, s => arqCalls_of_eq 0 rfl rfl rfl
  | n + 1, s => by
    have counted : ArqCalls 0 s (setAttempt (s.attempt + 1) s) := arqCalls_of_eq 0 rfl rfl rfl
    have tried := counted.trans (arqCalls_arqAttempt (setAttempt (s.attempt + 1) s))
    rw [retryLoop_succ]
    cases out : arqAttempt (setAttempt (s.attempt + 1) s) with
    | halt t => rw [out] at tried; exact tried.mono (by omega)
    | cont acked t =>
      rw [out] at tried
      cases acked with
      | true => exact tried.mono (by omega)
      | false =>
        dsimp only
        split
        · exact (tried.mono (by omega)).written rfl rfl rfl
        · exact (tried.trans (arqCalls_retryLoop n t)).mono (by omega)

/-- Settles O29: five attempts of two calls. -/
theorem retransmissionsAreIdentical : Obligations.RetransmissionsAreIdentical := by
  intro s t ends
  have calls := (arqCalls_of_eq 0 rfl rfl rfl : ArqCalls 0 s (setAttempt 0 s)).trans
    (arqCalls_retryLoop nAttempts (setAttempt 0 s))
  have result : runResult (sendArq s) = t := by
    obtain went | ended := ends
    · rw [went]; rfl
    · rw [ended]; rfl
  rw [← sendArq, result] at calls
  obtain ⟨txf, -, new, added, few, all⟩ := calls
  exact ⟨txf, new, added, few, fun c hc => by cases c <;> exact all _ hc⟩

/-! ### What has been handed over -/

/-- A frame handed over whole is the newest. -/
theorem sentFrames_afterTx {s : State} (l : Word) (whole : txOutcome s = .txOk (txfLen s)) :
    sentFrames (afterTx l s) = sentFrames s ++ [s.txf] := by
  simp [sentFrames, whole, sentFrame, txfLen]

theorem sentFrames_afterRx (l : Word) (s : State) : sentFrames (afterRx l s) = sentFrames s := by
  rw [sentFrames, afterRx_trace, List.filterMap_cons_none rfl, sentFrames]

/-! ### An attempt whose answers are known -/

/-- The next answer to a `TxCall`, when the state lists one. -/
theorem txAnswer_listed {s : State} {a : TxAnswer} {q : List TxAnswer} (txq : s.txq = a :: q) : txAnswer s = a := by
  simp [txAnswer, txq]

/-- The next answer to an `RxCall`, when the state lists one. -/
theorem rxAnswer_listed {s : State} {b : RxAnswer} {r : List RxAnswer} (rxq : s.rxq = b :: r) : rxAnswer s = b := by
  simp [rxAnswer, rxq]

/-- R8: an answer of at least the frame's length hands it over whole. -/
theorem txOutcome_whole {s : State} {k : Nat} (answer : (txAnswer s).outcome = .txOk k) (enough : txfLen s ≤ k) :
    txOutcome s = .txOk (txfLen s) := by
  rw [txOutcome, answer, lawfulTx, Nat.min_eq_right enough]

/-- What `n` attempts that used up the answers before `q` and `r` have made of `s`, the frame being handed over in each. -/
structure Tried (n : Nat) (q : List TxAnswer) (r : List RxAnswer) (s t : State) : Prop where
  moved : Transported s t
  attempt : t.attempt.toNat = s.attempt.toNat + n
  txq : t.txq = q
  rxq : t.rxq = r
  sent : sentFrames t = sentFrames s ++ List.replicate n s.txf

theorem Tried.trans {m n : Nat} {q q' : List TxAnswer} {r r' : List RxAnswer} {s t u : State} (h : Tried m q r s t)
    (k : Tried n q' r' t u) : Tried (m + n) q' r' s u where
  moved := h.moved.trans k.moved
  attempt := by rw [k.attempt, h.attempt, Nat.add_assoc]
  txq := k.txq
  rxq := k.rxq
  sent := by rw [k.sent, h.sent, h.moved.txf, List.append_assoc, List.replicate_append_replicate]

/-- R132: with no deadline, a frame the next answer hands over. -/
theorem xmitOnce_whole {s : State} {a : TxAnswer} {q : List TxAnswer} (infinite : s.tmo = tInf) (txq : s.txq = a :: q)
    (whole : ∃ k, txfLen s ≤ k ∧ a.outcome = .txOk k) : ∃ t, xmitOnce tSub s = .cont true t ∧ t.tmo = s.tmo ∧
      t.mtu = s.mtu ∧ t.txq = q ∧ t.rxq = s.rxq ∧ sentFrames t = sentFrames s ++ [s.txf] := by
  obtain ⟨k, enough, outcome⟩ := whole
  have sends : txOutcome s = .txOk (txfLen s) :=
    txOutcome_whole ((congrArg _ (txAnswer_listed txq)).trans outcome) enough
  refine ⟨afterTx (bound tSub s) s, ?_, rfl, rfl, congrArg List.tail txq, rfl, sentFrames_afterTx _ sends⟩
  rw [xmitOnce_of_live tSub (expired_of_infinite infinite), sends, decide_eq_true rfl]

/-- R133: with no deadline, a wait the next answer ends without a read error. -/
theorem recvOnce_read {s : State} {b : RxAnswer} {r : List RxAnswer} (infinite : s.tmo = tInf) (rxq : s.rxq = b :: r)
    (read : b.outcome ≠ .rxError) : ∃ t, recvOnce tSub s = .cont (lawfulRx (rxMax s) b.outcome) t ∧ t.txq = s.txq ∧
      t.rxq = r ∧ sentFrames t = sentFrames s := by
  have live := expired_of_infinite infinite
  have waits : rxOutcome s = lawfulRx (rxMax s) b.outcome := by rw [rxOutcome, rxAnswer_listed rxq]
  have heard := sentFrames_afterRx (bound tSub s) s
  rw [← waits]
  cases rx : rxOutcome s with
  | rxOk f => exact ⟨_, recvOnce_of_frame tSub live rx, rfl, congrArg List.tail rxq, heard⟩
  | rxNone => exact ⟨_, recvOnce_of_nothing tSub live rx, rfl, congrArg List.tail rxq, heard⟩
  | rxError =>
    rw [rx] at waits
    cases out : b.outcome with
    | rxError => exact absurd out read
    | rxNone => rw [out] at waits; cases waits
    | rxOk f => rw [out, lawfulRx] at waits; split at waits <;> cases waits

/-- R134: an attempt whose frame is handed over and whose wait is no read error. -/
theorem arqAttempt_whole {s : State} {a : TxAnswer} {q : List TxAnswer} {b : RxAnswer} {r : List RxAnswer}
    (infinite : s.tmo = tInf) (txq : s.txq = a :: q) (whole : ∃ k, txfLen s ≤ k ∧ a.outcome = .txOk k)
    (rxq : s.rxq = b :: r) (read : b.outcome ≠ .rxError) :
    ∃ t, arqAttempt s = .cont (isAck (lawfulRx (rxMax s) b.outcome)) t ∧ t.txq = q ∧ t.rxq = r ∧
      sentFrames t = sentFrames s ++ [s.txf] := by
  obtain ⟨u, sends, tmo, mtu, utxq, urxq, sent⟩ := xmitOnce_whole infinite txq whole
  obtain ⟨v, waits, vtxq, vrxq, heard⟩ := recvOnce_read (tmo.trans infinite) (urxq.trans rxq) read
  refine ⟨noteReply (lawfulRx (rxMax u) b.outcome) v, ?_, ?_⟩
  · rw [arqAttempt, sends]
    dsimp only
    rw [waits, rxMax, mtu, rxMax]
  · rw [← sent, ← heard, ← vrxq, ← utxq, ← vtxq]
    cases lawfulRx (rxMax u) b.outcome <;> exact ⟨rfl, rfl, rfl⟩

/-- R20: the attempt counter within the budget does not wrap. -/
theorem attempt_succ {s : State} (room : s.attempt.toNat + 1 < 8) : (s.attempt + 1).toNat = s.attempt.toNat + 1 := by
  rw [BitVec.toNat_add]
  exact Nat.mod_eq_of_lt room

/-- R134: the same attempt with its count. -/
theorem arqAttempt_tried {s : State} {a : TxAnswer} {q : List TxAnswer} {b : RxAnswer} {r : List RxAnswer}
    (room : s.attempt.toNat + 1 < 8) (infinite : s.tmo = tInf) (txq : s.txq = a :: q)
    (whole : ∃ k, txfLen s ≤ k ∧ a.outcome = .txOk k) (rxq : s.rxq = b :: r) (read : b.outcome ≠ .rxError) :
    ∃ t, arqAttempt (setAttempt (s.attempt + 1) s) = .cont (isAck (lawfulRx (rxMax s) b.outcome)) t ∧
      Tried 1 q r s t := by
  have moved := arqAttempt_keeps (setAttempt (s.attempt + 1) s)
  have count := arqAttempt_attempt (setAttempt (s.attempt + 1) s)
  obtain ⟨t, attempt, ttxq, trxq, sent⟩ :=
    arqAttempt_whole (s := setAttempt (s.attempt + 1) s) infinite txq whole rxq read
  rw [attempt] at moved count
  refine ⟨t, attempt, (transported_attempt _ s).trans moved, ?_, ttxq, trxq, sent⟩
  rw [count]
  exact attempt_succ room

/-! ### `SendArq` against given replies -/

/-- R134: replies that are no `ACK` use up an attempt each. -/
theorem retryLoop_rejected (n : Nat) {q : List TxAnswer} {r : List RxAnswer} (bs : List RxAnswer) :
    ∀ {s : State} {as : List TxAnswer}, s.attempt.toNat + bs.length < 8 → s.tmo = tInf → as.length = bs.length →
    (∀ a ∈ as, ∃ k, txfLen s ≤ k ∧ a.outcome = .txOk k) →
    (∀ b ∈ bs, b.outcome ≠ .rxError ∧ isAck (lawfulRx (rxMax s) b.outcome) = false) →
    s.txq = as ++ q → s.rxq = bs ++ r →
    ∃ t, Tried bs.length q r s t ∧ retryLoop arqAttempt (bs.length + n) s = retryLoop arqAttempt n t := by
  induction bs with
  | nil =>
    intro s as _ _ pairs _ _ txq rxq
    obtain rfl := List.length_eq_zero_iff.mp pairs
    exact ⟨s, ⟨.refl s, rfl, txq, rxq, (List.append_nil _).symm⟩, by rw [List.length_nil, Nat.zero_add]⟩
  | cons b bs ih =>
    intro s as room infinite pairs whole replies txq rxq
    obtain ⟨a, as, rfl⟩ := List.exists_cons_of_length_eq_add_one pairs
    rw [List.length_cons] at room
    obtain ⟨read, noAck⟩ := replies b (List.mem_cons_self ..)
    obtain ⟨u, attempt, tried⟩ := arqAttempt_tried (by omega) infinite txq (whole a (List.mem_cons_self ..)) rxq read
    have live : expired u = false := expired_of_infinite (tried.moved.command.tmo.trans infinite)
    have len : txfLen u = txfLen s := congrArg List.length tried.moved.txf
    have size : rxMax u = rxMax s := congrArg (fun m : Word => m.toNat + 3) tried.moved.control.mtu
    obtain ⟨t, more, loop⟩ := ih (s := u) (as := as) (by rw [tried.attempt]; omega)
      (tried.moved.command.tmo.trans infinite) (Nat.succ.inj pairs)
      (fun a ha => len ▸ whole a (List.mem_cons_of_mem _ ha))
      (fun b hb => size ▸ replies b (List.mem_cons_of_mem _ hb)) tried.txq tried.rxq
    rw [List.length_cons]
    refine ⟨t, Nat.add_comm bs.length 1 ▸ tried.trans more, ?_⟩
    rw [Nat.add_right_comm, retryLoop_succ, attempt, noAck]
    dsimp only
    rw [live, if_neg (by decide), loop]

/-- Settles O26: five rejected replies use up the budget. -/
theorem retryBudgetIsFiveAttempts : Obligations.RetryBudgetIsFiveAttempts := by
  intro s as q bs r infinite five five' whole replies txq rxq
  obtain ⟨t, tried, loop⟩ := retryLoop_rejected 0 bs (s := setAttempt 0 s) (by rw [five', setAttempt_attempt]; decide) infinite
    (five.trans five'.symm) whole replies txq rxq
  rw [five'] at tried loop
  exact ⟨raiseError .writeFailed t, loop, endedBy_raiseError .writeFailed t, tried.attempt, tried.txq, tried.rxq,
    tried.sent⟩

/-- R119: the verified 2-byte `ACK` is one, whatever `MTU` is. -/
theorem isAck_lawful_ack (s : State) : isAck (lawfulRx (rxMax s) (.rxOk (ctrlFrame ftAck))) = true := by
  have whole : (ctrlFrame ftAck).take (rxMax s) = ctrlFrame ftAck :=
    List.take_of_length_le (by rw [ctrlFrame_length, rxMax]; omega)
  rw [lawfulRx, if_neg (by decide), whole]
  decide

/-- Settles O25: the rejected replies, and one attempt more. -/
theorem retransmissionRecovers : Obligations.RetransmissionRecovers := by
  intro s as q bs r d infinite few pairs whole replies txq rxq
  have below : bs.length < 5 := few
  have nonempty : as ≠ [] := by
    rintro rfl
    cases pairs
  have cut := List.dropLast_append_getLast nonempty
  rw [← cut, List.append_assoc] at txq
  obtain ⟨u, tried, loop⟩ := retryLoop_rejected (nAttempts - bs.length) bs (s := setAttempt 0 s) (as := as.dropLast)
    (by change 0 + bs.length < 8; omega) infinite
    (by rw [List.length_dropLast, pairs, Nat.add_sub_cancel]) (fun a ha => whole a (List.mem_of_mem_dropLast ha))
    replies txq rxq
  rw [Nat.add_sub_cancel' (Nat.le_of_lt few)] at loop
  have count : u.attempt.toNat = 0 + bs.length := tried.attempt
  have len : txfLen u = txfLen s := congrArg List.length tried.moved.txf
  obtain ⟨t, attempt, last⟩ := arqAttempt_tried (by omega)
    (tried.moved.command.tmo.trans infinite) tried.txq (len ▸ whole _ (List.getLast_mem nonempty)) tried.rxq (by simp)
  have done := tried.trans last
  obtain ⟨n, budget⟩ : ∃ n, nAttempts - bs.length = n + 1 := ⟨nAttempts - bs.length - 1, by omega⟩
  obtain ⟨control, exchange, command, progress, hbuf, -, txf, -⟩ := done.moved
  refine ⟨t, ?_, done.attempt.trans (Nat.zero_add _), done.txq, done.rxq, txf, done.sent,
    ⟨control.1, control.2, control.3, control.4, control.5⟩, ⟨exchange.1, exchange.2, exchange.3⟩,
    ⟨command.1, command.2, command.3, command.4, command.5⟩, ⟨progress.1, progress.2, progress.3, progress.4⟩, hbuf⟩
  rw [sendArq, loop, budget, retryLoop_succ, attempt, isAck_lawful_ack]

/-! ### `Reply` against given answers -/

/-- R132: with no deadline, an answer that hands over less than the frame. -/
theorem xmitOnce_part {s : State} {a : TxAnswer} {q : List TxAnswer} (infinite : s.tmo = tInf) (txq : s.txq = a :: q)
    (part : ∀ k, a.outcome = .txOk k → k < txfLen s) :
    xmitOnce tSub s = .cont false (afterTx (bound tSub s) s) := by
  have fails : txOutcome s ≠ .txOk (txfLen s) := by
    rw [txOutcome, txAnswer_listed txq]
    cases out : a.outcome with
    | txOk k =>
      have := part k out
      simp only [lawfulTx, ne_eq, TxOutcome.txOk.injEq]
      omega
    | txTimeout | txError => simp [lawfulTx]
  rw [xmitOnce_of_live tSub (expired_of_infinite infinite), decide_eq_false fails]

/-- R163: transmissions that fail use up an attempt each. -/
theorem retryLoop_failed (n : Nat) {q : List TxAnswer} (as : List TxAnswer) :
    ∀ {s : State}, s.attempt.toNat + as.length < 8 → s.tmo = tInf →
    (∀ a ∈ as, ∀ k, a.outcome = .txOk k → k < txfLen s) → s.txq = as ++ q →
    ∃ t, Transported s t ∧ t.attempt.toNat = s.attempt.toNat + as.length ∧ t.txq = q ∧ t.rxq = s.rxq ∧
      retryLoop (xmitOnce tSub) (as.length + n) s = retryLoop (xmitOnce tSub) n t := by
  induction as with
  | nil =>
    intro s _ _ _ txq
    exact ⟨s, .refl s, rfl, txq, rfl, by rw [List.length_nil, Nat.zero_add]⟩
  | cons a as ih =>
    intro s room infinite parts txq
    rw [List.length_cons] at room
    have attempt := xmitOnce_part (s := setAttempt (s.attempt + 1) s) infinite txq (parts a (List.mem_cons_self ..))
    generalize hu : afterTx (bound tSub (setAttempt (s.attempt + 1) s)) (setAttempt (s.attempt + 1) s) = u at attempt
    have moved : Transported s u := hu ▸ (transported_attempt _ s).trans (transported_afterTx _ _)
    have count : u.attempt.toNat = s.attempt.toNat + 1 := hu ▸ attempt_succ (by omega)
    have live : expired u = false := expired_of_infinite (moved.command.tmo.trans infinite)
    have len : txfLen u = txfLen s := congrArg List.length moved.txf
    obtain ⟨t, more, tcount, ttxq, trxq, loop⟩ := ih (s := u) (by rw [count]; omega)
      (moved.command.tmo.trans infinite) (fun b hb => len ▸ parts b (List.mem_cons_of_mem _ hb))
      (hu ▸ congrArg List.tail txq)
    refine ⟨t, moved.trans more, by rw [tcount, count, List.length_cons]; omega, ttxq, trxq.trans (hu ▸ rfl), ?_⟩
    rw [List.length_cons, Nat.add_right_comm, retryLoop_succ, attempt]
    dsimp only
    rw [live, if_neg (by decide), loop]

/-- Settles O27: the failed transmissions, and then none or one attempt more. -/
theorem replyIsTriedFiveTimes : Obligations.ReplyIsTriedFiveTimes := by
  intro s type as q infinite parts txq
  refine ⟨fun five => ?_, fun a q' k few next outcome enough => ?_⟩
  · obtain ⟨t, -, count, ttxq, trxq, loop⟩ := retryLoop_failed 0 as (s := setAttempt 0 (encCtrl type s))
      (by rw [five, setAttempt_attempt]; decide) infinite parts txq
    rw [five] at count loop
    exact ⟨raiseError .writeFailed t, loop, endedBy_raiseError .writeFailed t, count, ttxq, trxq⟩
  · obtain ⟨u, moved, count, utxq, urxq, loop⟩ := retryLoop_failed (nAttempts - as.length) as
      (s := setAttempt 0 (encCtrl type s)) (by change 0 + as.length < 8; omega) infinite parts txq
    have len : txfLen u = 2 := (congrArg List.length moved.txf).trans (ctrlFrame_length type)
    have kept := xmitOnce_keeps tSub (setAttempt (u.attempt + 1) u)
    have counts := xmitOnce_attempt tSub (setAttempt (u.attempt + 1) u)
    obtain ⟨t, attempt, -, -, ttxq, trxq, -⟩ := xmitOnce_whole (s := setAttempt (u.attempt + 1) u)
      (moved.command.tmo.trans infinite) (utxq.trans next) ⟨k, len ▸ enough, outcome⟩
    rw [attempt] at kept counts
    have count' : u.attempt.toNat = as.length := count.trans (Nat.zero_add _)
    have done := (moved.trans (transported_attempt (u.attempt + 1) u)).trans kept
    obtain ⟨control, exchange, -, progress, -, -, txf, -⟩ := done
    obtain ⟨n, budget⟩ : ∃ n, nAttempts - as.length = n + 1 := ⟨4 - as.length, by rw [nAttempts]; omega⟩
    refine ⟨t, ?_, ?_, ttxq, trxq.trans urxq, txf, ⟨exchange.1, exchange.2, exchange.3⟩,
      ⟨control.1, control.2, control.3, control.4, control.5⟩, ⟨progress.1, progress.2, progress.3, progress.4⟩⟩
    · rw [Nat.add_sub_cancel' (show as.length ≤ nAttempts from Nat.le_of_lt few)] at loop
      rw [reply, loop, budget, retryLoop_succ, attempt]
    · rw [counts, setAttempt_attempt, attempt_succ (by omega), count']

end Sys2Proof.Proofs.Retry
end

section
/-! A segmented `WRITE`, whole (42_send_path.md section 4), with every frame handed over and acknowledged. -/

namespace Sys2Proof.Proofs.SegmentedWrite
open Sys2Proof.Machine Sys2Proof.Safety Sys2Proof.Proofs.SendPath Sys2Proof.Proofs.Reactions Sys2Proof.Proofs.Frames
open Sys2Proof.Proofs.Deadline Sys2Proof.Proofs.Commands Sys2Proof.Proofs.Retry Sys2Proof.Proofs.RoundTrip

/-! ### An environment that acknowledges -/

/-- With no deadline the environment has at least `j` answers that hand over a whole frame and `j` that are an `ACK`, and
no other answers. Stated of the registers it speaks of, so that a write to any other leaves it the same proposition. -/
structure AcknowledgesFrames (j : Nat) (mtu tmo : Word) (txq : List TxAnswer) (rxq : List RxAnswer) : Prop where
  infinite : tmo = tInf
  whole : ∀ a ∈ txq, ∃ k, mtu.toNat + 3 ≤ k ∧ a.outcome = .txOk k
  acks : ∀ a ∈ rxq, a.outcome = .rxOk (ctrlFrame ftAck)
  txs : j ≤ txq.length
  rxs : j ≤ rxq.length

abbrev Acknowledges (j : Nat) (s : State) : Prop := AcknowledgesFrames j s.mtu s.tmo s.txq s.rxq

/-- What the sending of one frame that is acknowledged at once makes of `u`. -/
structure AckedOnce (j : Nat) (u t : State) : Prop where
  control : SameControl u t
  exchange : SameExchange u t
  command : SameCommand u t
  progress : SameProgress u t
  hbuf : t.hbuf = u.hbuf
  env : Acknowledges j t
  sent : sentFrames t = sentFrames u ++ [u.txf]

/-- R134: the recovery property without a rejected reply. -/
theorem sendThen_acked (k : State → State) {j : Nat} {u : State} (env : Acknowledges (j + 1) u)
    (fits : txfLen u ≤ rxMax u) : ∃ t, sendThen k u = k t ∧ AckedOnce j u t := by
  obtain ⟨infinite, whole, acks, txs, rxs⟩ := env
  obtain ⟨a, q, txq⟩ := List.exists_cons_of_length_pos (Nat.zero_lt_of_lt txs)
  obtain ⟨⟨o, d⟩, r, rxq⟩ := List.exists_cons_of_length_pos (Nat.zero_lt_of_lt rxs)
  rw [txq] at whole txs
  rw [rxq] at acks rxs
  obtain rfl : o = .rxOk (ctrlFrame ftAck) := acks _ (List.mem_cons_self ..)
  have enough : ∀ b ∈ [a], ∃ k, txfLen u ≤ k ∧ b.outcome = .txOk k := by
    rintro b hb
    obtain ⟨k, le, outcome⟩ := whole b (List.mem_singleton.mp hb ▸ List.mem_cons_self ..)
    exact ⟨k, fits.trans le, outcome⟩
  obtain ⟨t, went, -, ttxq, trxq, -, sent, control, exchange, command, progress, hbuf⟩ :=
    retransmissionRecovers u [a] q [] r d infinite (by decide) rfl enough (by simp) txq rxq
  refine ⟨t, sendThen_cont went, control, exchange, command, progress, hbuf, ?_, sent⟩
  refine ⟨command.tmo.trans infinite, ?_, ?_, ttxq ▸ Nat.le_of_succ_le_succ txs, trxq ▸ Nat.le_of_succ_le_succ rxs⟩
  · rw [control.mtu, ttxq]
    exact fun b hb => whole b (List.mem_cons_of_mem _ hb)
  · rw [trxq]
    exact fun b hb => acks b (List.mem_cons_of_mem _ hb)

/-! ### The number of frames -/

/-- R139: frame `k` (from 0) begins below `LEN` exactly when it is one of the `ceil(LEN / MTU)`. -/
theorem lt_ceil_iff {mtu : Nat} (pos : 1 ≤ mtu) (len k : Nat) : k < (len + mtu - 1) / mtu ↔ k * mtu < len := by
  rw [Nat.lt_iff_add_one_le, Nat.le_div_iff_mul_le pos, Nat.succ_mul]
  omega

/-- R139: the frames cover the message. -/
theorem le_ceil_mul {mtu : Nat} (pos : 1 ≤ mtu) (len : Nat) : len ≤ (len + mtu - 1) / mtu * mtu :=
  Nat.not_lt.mp (mt (lt_ceil_iff pos len _).mpr (Nat.lt_irrefl _))

/-! ### The steps -/

/-- The segment loop of a message in HBUF `m`, with `k` frames acknowledged and answers for `j` frames to come. -/
structure Segmenting (m : List Host.Cell) (mtu len : Word) (k j : Nat) (t : State) : Prop where
  ph : t.ph = .segment
  mode : t.mode = .sender
  hbuf : t.hbuf = m
  sameMtu : t.mtu = mtu
  sameLen : t.len = len
  off : t.off.toNat = min (k * mtu.toNat) len.toNat
  seq : t.seq = BitVec.ofNat 8 k
  env : Acknowledges j t

/-- R139: the step that opens the message. -/
theorem step_opens {s : State} {len : Word} {j : Nat} (idle : s.busy = false) (ph : s.ph = .idle)
    (role : s.mode ≠ .receiver) (long : s.mtu.toNat < len.toNat)
    (host : s.host = [.command (hostWord cmdWrite len tInf true)])
    (env : AcknowledgesFrames (j + 1) s.mtu tInf s.txq s.rxq) : ∃ t, step s = .next t ∧
      Segmenting s.hbuf s.mtu len 0 j t ∧ sentFrames t = sentFrames s ++ [ctrlFrame ftSeqBegin] := by
  have dec : decode (.word (hostWord cmdWrite len tInf true)) = .ok (.write len tInf true) :=
    decode_encode (.write len tInf true)
  obtain ⟨t, acked, control, exchange, command, progress, hbuf, env', sent⟩ :=
    sendThen_acked (setPhase .segment) (u := encCtrl ftSeqBegin (writing len tInf (setHost [] s))) env
      (Nat.le_add_left 2 (s.mtu.toNat + 1))
  refine ⟨setPhase .segment t, ?_, ⟨rfl, control.mode, hbuf, control.mtu, command.len, ?_, exchange.seq, env'⟩, sent⟩
  · rw [step_command ph host dec, exec_write_sends (s := setHost [] s) len tInf idle role,
      sendMessage_long (s := writing len tInf (setHost [] s)) long, acked]
  · rw [setPhase_off, command.off, Nat.zero_mul, Nat.zero_min]
    rfl

/-- R31 (a): the successor of a sequence number. -/
theorem ofNat_succ_byte (k : Nat) : BitVec.ofNat 8 k + 1 = BitVec.ofNat 8 (k + 1) := by
  rw [BitVec.ofNat_add]
  rfl

/-- R139, R141: the step that sends segment `k + 1`. -/
theorem step_segmenting {m : List Host.Cell} {mtu len : Word} {k j : Nat} {t : State}
    (h : Segmenting m mtu len k (j + 1) t) (more : k * mtu.toNat < len.toNat) : ∃ u, step t = .next u ∧
      Segmenting m mtu len (k + 1) j u ∧
      sentFrames u = sentFrames t ++ [dataFrame (BitVec.ofNat 8 (k + 1)) (segmentPayload m mtu.toNat len.toNat (k + 1))] := by
  obtain ⟨ph, mode, rfl, rfl, rfl, off, seq, env⟩ := h
  rw [Nat.min_eq_left (Nat.le_of_lt more)] at off
  have next : nextSeq t = BitVec.ofNat 8 (k + 1) := by rw [nextSeq, seq, ofNat_succ_byte]
  have payload : messageBytes t t.off.toNat (chunkLen t) = segmentPayload t.hbuf t.mtu.toNat t.len.toNat (k + 1) := by
    rw [messageBytes, chunkLen, off, segmentPayload, Nat.add_sub_cancel]
  have left : t.off.toNat < t.len.toNat := off ▸ more
  have fits : txfLen (encData (nextSeq t) (messageBytes t t.off.toNat (chunkLen t)) t) ≤ rxMax t := by
    rw [txfLen, encData_txf, dataFrame_length, messageBytes, memReadBytes_length]
    exact Nat.add_le_add_right (Nat.min_le_left ..) 3
  obtain ⟨u, acked, control, exchange, command, progress, hbuf, env', sent⟩ :=
    sendThen_acked (u := encData (nextSeq t) (messageBytes t t.off.toNat (chunkLen t)) t)
      (fun u => setOff (t.off + BitVec.ofNat 32 (chunkLen t)) (setSeq (nextSeq t) u)) env fits
  refine ⟨setOff (t.off + BitVec.ofNat 32 (chunkLen t)) (setSeq (nextSeq t) u), ?_,
    ⟨progress.ph.trans ph, control.mode.trans mode, hbuf, control.mtu, command.len, ?_, next, env'⟩, ?_⟩
  · rw [step_segment ph, sendSegment_more left, acked]
  · rw [setOff_off, off_advance t left, off, Nat.succ_mul]
    omega
  · rw [← next, ← payload]
    exact sent

/-- R139: the step that closes the message. -/
theorem step_closes {m : List Host.Cell} {mtu len : Word} {k j : Nat} {t : State}
    (h : Segmenting m mtu len k (j + 1) t) (done : len.toNat ≤ k * mtu.toNat) : ∃ u, step t = .next u ∧
      CompletedWith statusOk len u ∧ u.mode = .sender ∧ u.hbuf = m ∧
      sentFrames u = sentFrames t ++ [ctrlFrame ftSeqEnd] := by
  obtain ⟨ph, mode, rfl, rfl, rfl, off, -, env⟩ := h
  rw [Nat.min_eq_right done] at off
  obtain ⟨u, acked, control, -, command, -, hbuf, -, sent⟩ :=
    sendThen_acked (fun u => complete statusOk u.len u) (u := encCtrl ftSeqEnd t) env
      (Nat.le_add_left 2 (t.mtu.toNat + 1))
  refine ⟨complete statusOk u.len u, ?_, ⟨rfl, command.len, rfl, rfl⟩, control.mode.trans mode, hbuf, sent⟩
  rw [step_segment ph, sendSegment_last (Nat.le_of_eq off.symm), acked]

/-- R139, R141: the segments in order. -/
theorem run_segments {m : List Host.Cell} {mtu len : Word} (n : Nat) : ∀ {k j : Nat} {t : State},
    (∀ i < k + n, i * mtu.toNat < len.toNat) → Segmenting m mtu len k (n + j) t →
    ∃ u, Host.Core.run Sys2Proof.core n t = .next u ∧ Segmenting m mtu len (k + n) j u ∧
      sentFrames u = sentFrames t ++ segmentFrames m mtu.toNat len.toNat (k + 1) n := by
  induction n with
  | zero =>
    intro k j t _ h
    exact ⟨t, rfl, Nat.zero_add j ▸ h, (List.append_nil _).symm⟩
  | succ n ih =>
    intro k j t below h
    rw [Nat.add_right_comm] at h
    obtain ⟨u, first, hu, sent⟩ := step_segmenting h (below k (by omega))
    obtain ⟨v, run, hv, rest⟩ := ih (fun i hi => below i (by omega)) hu
    refine ⟨v, (run_succ (M := core) first n).trans run, by rwa [Nat.add_right_comm] at hv, ?_⟩
    rw [rest, sent, List.append_assoc, segmentFrames]
    rfl

/-- Settles O56: the opening, the segments, the closing. -/
theorem segmentedWriteSendsTheMessage : Obligations.SegmentedWriteSendsTheMessage := by
  intro s len n inv ph role long host frames whole txs acks rxs
  subst frames
  obtain ⟨t, opens, ht, begun⟩ := step_opens (inv.busyPhase.mpr ph) ph role long host ⟨rfl, whole, acks, txs, rxs⟩
  obtain ⟨u, segments, hu, sent⟩ := run_segments (j := 1) _
    (fun i hi => (lt_ceil_iff inv.mtuLow len.toNat i).mp (by rwa [Nat.zero_add] at hi)) ht
  rw [Nat.zero_add] at hu
  obtain ⟨v, closes, done, mode, hbuf, ended⟩ := step_closes hu (le_ceil_mul inv.mtuLow len.toNat)
  refine ⟨v, ?_, done, mode, sameMemory_of_eq hbuf, ?_⟩
  · exact (run_succ (M := core) opens _).trans ((run_add segments 1).trans (run_succ (M := core) closes 0))
  · rw [ended, sent, begun]

end Sys2Proof.Proofs.SegmentedWrite
end

section
/-! A bracketed `READ`, whole (43_receive_path.md sections 2 to 5), to which the frames of a message come in order and
whose replies go out. -/

namespace Sys2Proof.Proofs.BracketedRead
open Sys2Proof.Machine Sys2Proof.Safety Sys2Proof.Proofs.ReceivePath Sys2Proof.Proofs.FrameCodec
open Sys2Proof.Proofs.RoundTrip Sys2Proof.Proofs.Frames Sys2Proof.Proofs.Deadline Sys2Proof.Proofs.Commands
open Sys2Proof.Proofs.Retry Sys2Proof.Proofs.SegmentedWrite

/-! ### An environment that brings the frames -/

/-- With no deadline the environment brings the frames `fs`, and then nothing it has listed, and hands over the next `j`
replies. Stated of the registers it speaks of, so that a write to any other leaves it the same proposition. -/
structure BringsFrames (fs : List (List Byte)) (j : Nat) (tmo : Word) (rxq : List RxAnswer) (txq : List TxAnswer) :
    Prop where
  infinite : tmo = tInf
  frames : rxq.map RxAnswer.outcome = fs.map RxOutcome.rxOk
  takes : ∀ a ∈ txq, ∃ k, 2 ≤ k ∧ a.outcome = .txOk k
  txs : j ≤ txq.length

abbrev Brings (fs : List (List Byte)) (j : Nat) (s : State) : Prop := BringsFrames fs j s.tmo s.rxq s.txq

/-- R162, R163: the next frame is received, and its reply handed over at once. -/
theorem receives_next {f : List Byte} {fs : List (List Byte)} {j : Nat} {s : State} (env : Brings (f :: fs) (j + 1) s)
    (ph : s.ph = .recv .msg) (nonempty : f ≠ []) (fits : f.length ≤ rxMax s) :
    Receives f .msg s ∧ HandsOver 2 (received f s) ∧ Brings fs j (replied ftAck (received f s)) := by
  obtain ⟨infinite, frames, takes, txs⟩ := env
  obtain ⟨a, q, txq⟩ := List.exists_cons_of_length_pos (Nat.zero_lt_of_lt txs)
  obtain ⟨b, r, rxq, outcome, frames⟩ := List.map_eq_cons_iff.mp frames
  have answer := rxAnswer_listed rxq
  have arrives : rxOutcome s = .rxOk f := by
    rw [rxOutcome, answer, outcome, lawfulRx, if_neg nonempty, List.take_of_length_le fits]
  rw [txq] at takes txs
  have taken : txAnswer (received f s) = a := txAnswer_listed (s := received f s) txq
  refine ⟨⟨ph, expired_of_infinite infinite, arrives⟩, ⟨expired_of_infinite infinite, ?_⟩, infinite, ?_, ?_, ?_⟩
  · rw [taken]
    exact takes a (List.mem_cons_self ..)
  · change s.rxq.tail.map _ = _
    rw [rxq]
    exact frames
  · change ∀ a ∈ s.txq.tail, _
    rw [txq]
    exact fun c hc => takes c (List.mem_cons_of_mem _ hc)
  · change j ≤ s.txq.tail.length
    rw [txq]
    exact Nat.le_of_succ_le_succ txs

/-- R163: a reply that went out is the newest frame handed over; receiving hands over none. -/
theorem sentFrames_replied (type : Byte) (f : List Byte) (s : State) :
    sentFrames (replied type (received f s)) = sentFrames s ++ [ctrlFrame type] := by
  have listened : sentFrames (received f s) = sentFrames s := sentFrames_afterRx (bound tInf s) s
  rw [← listened]
  simp [sentFrames, sentFrame, ctrlFrame_eq]

/-! ### The steps -/

/-- The message loop of a `READ` inside a bracket, with `k` data frames accepted and `rb` reassembled. -/
structure Reading (m : List Host.Cell) (mtu len : Word) (k : Nat) (rb : List Byte) (t : State) : Prop where
  ph : t.ph = .recv .msg
  mode : t.mode = .receiver
  hbuf : t.hbuf = m
  sameMtu : t.mtu = mtu
  sameLen : t.len = len
  seq : t.seq = BitVec.ofNat 8 k
  inseq : t.inseq = true
  rb : t.rb = rb

/-- R161: the step that takes the command. -/
theorem step_listens {s : State} {len : Word} (idle : s.busy = false) (ph : s.ph = .idle) (role : s.mode ≠ .sender)
    (host : s.host = [.command (hostWord cmdRead len tInf true)]) :
    step s = .next (setPhase (.recv .msg) (resetExchange (setMode .receiver (latch cmdRead len tInf true (setHost [] s)))))
    := by
  have dec : decode (.word (hostWord cmdRead len tInf true)) = .ok (.read len tInf true) :=
    decode_encode (.read len tInf true)
  rw [step_command ph host dec]
  exact exec_read_listens (s := setHost [] s) len tInf idle role

/-- R168: the step that opens the bracket. -/
theorem step_seqBegin {fs : List (List Byte)} {j : Nat} {s : State}
    (env : Brings (ctrlFrame ftSeqBegin :: fs) (j + 1) s) (ph : s.ph = .recv .msg) (mode : s.mode = .receiver)
    (seq : s.seq = 0) (rb : s.rb = []) : ∃ t, step s = .next t ∧ Reading s.hbuf s.mtu s.len 0 [] t ∧ Brings fs j t ∧
      sentFrames t = sentFrames s ++ [ctrlFrame ftAck] := by
  obtain ⟨rx, first, env⟩ := receives_next env ph (by decide) (Nat.le_add_left 2 (s.mtu.toNat + 1))
  obtain ⟨-, opened⟩ := (seqBeginOpensTheBracket (received (ctrlFrame ftSeqBegin) s)).1 ph
  refine ⟨_, (step_frame rx (by decide) (by decide)).trans (opened first), ⟨ph, mode, rfl, rfl, rfl, seq, rfl, rb⟩, env, ?_⟩
  exact sentFrames_replied ftAck (ctrlFrame ftSeqBegin) s

/-- R175: the step that accepts the next data frame. -/
theorem step_data {m : List Host.Cell} {mtu len : Word} {k j : Nat} {rb p : List Byte} {fs : List (List Byte)} {s : State}
    (h : Reading m mtu len k rb s) (env : Brings (dataFrame (BitVec.ofNat 8 (k + 1)) p :: fs) (j + 1) s)
    (fits : p.length ≤ mtu.toNat) : ∃ t, step s = .next t ∧ Reading m mtu len (k + 1) (rb ++ p) t ∧ Brings fs j t ∧
      sentFrames t = sentFrames s ++ [ctrlFrame ftAck] := by
  obtain ⟨ph, mode, rfl, rfl, rfl, seq, inseq, rfl⟩ := h
  obtain ⟨rx, first, env⟩ := receives_next env ph (by simp [dataFrame, sealFrame])
    ((dataFrame_length ..).trans_le (Nat.add_le_add_right fits 3))
  have next : BitVec.ofNat 8 (k + 1) = nextSeq (received (dataFrame (BitVec.ofNat 8 (k + 1)) p) s) :=
    (ofNat_succ_byte k).symm.trans (congrArg (· + 1) seq.symm)
  obtain ⟨-, -, appended, -⟩ := nextDataIsAppended (received (dataFrame (BitVec.ofNat 8 (k + 1)) p) s)
    (BitVec.ofNat 8 (k + 1)) p ph (eq_nextSeq_iff.mp next)
  refine ⟨_, (step_frame rx (verify_sealFrame _) (decode_encode (.data _ p))).trans (appended first inseq),
    ⟨ph, mode, rfl, rfl, rfl, rfl, inseq, rfl⟩, env, ?_⟩
  exact sentFrames_replied ftAck (dataFrame (BitVec.ofNat 8 (k + 1)) p) s

/-- R169, R176: the step that closes the bracket and delivers. -/
theorem step_seqEnd {m : List Host.Cell} {mtu len : Word} {k j : Nat} {rb : List Byte} {s : State}
    (h : Reading m mtu len k rb s) (env : Brings [ctrlFrame ftSeqEnd] (j + 1) s) (fits : rb.length ≤ len.toNat) :
    ∃ t, step s = .next t ∧ CompletedWith statusOk (BitVec.ofNat 32 rb.length) t ∧ t.mode = .receiver ∧ t.rxq = [] ∧
      t.hbuf = memWriteBytes m 0 rb ∧ sentFrames t = sentFrames s ++ [ctrlFrame ftAck] := by
  obtain ⟨ph, mode, rfl, rfl, rfl, -, -, rfl⟩ := h
  obtain ⟨rx, first, env⟩ := receives_next env ph (by decide) (Nat.le_add_left 2 (s.mtu.toNat + 1))
  obtain ⟨-, delivered, -⟩ := (seqEndFinalizesTheMessage (received (ctrlFrame ftSeqEnd) s)).1 ph
  refine ⟨_, (step_frame rx (by decide) (by decide)).trans (delivered first fits), ⟨rfl, rfl, rfl, rfl⟩, mode,
    List.map_eq_nil_iff.mp env.frames, rfl, ?_⟩
  exact sentFrames_replied ftAck (ctrlFrame ftSeqEnd) s

/-- R175: the data frames in order. -/
theorem run_data {m : List Host.Cell} {mtu len : Word} {fs : List (List Byte)} (ps : List (List Byte)) :
    ∀ {k j : Nat} {rb : List Byte} {s : State}, Reading m mtu len k rb s →
    Brings (payloadFrames (k + 1) ps ++ fs) (ps.length + j) s → (∀ p ∈ ps, p.length ≤ mtu.toNat) →
    ∃ t, Host.Core.run Sys2Proof.core ps.length s = .next t ∧ Reading m mtu len (k + ps.length) (rb ++ ps.flatten) t ∧
      Brings fs j t ∧ sentFrames t = sentFrames s ++ List.replicate ps.length (ctrlFrame ftAck) := by
  induction ps with
  | nil =>
    intro k j rb s h env _
    rw [List.length_nil, Nat.zero_add] at env
    exact ⟨s, rfl, (List.append_nil rb).symm ▸ h, env, (List.append_nil _).symm⟩
  | cons p ps ih =>
    intro k j rb s h env fits
    rw [List.length_cons, Nat.add_right_comm, payloadFrames, List.cons_append] at env
    obtain ⟨t, first, ht, env, sent⟩ := step_data h env (fits p (List.mem_cons_self ..))
    obtain ⟨u, run, hu, env, rest⟩ := ih ht env fun p' hp => fits p' (List.mem_cons_of_mem _ hp)
    refine ⟨u, (run_succ (M := core) first ps.length).trans run, ?_, env, ?_⟩
    · rwa [Nat.add_right_comm, List.append_assoc] at hu
    · rw [rest, sent, List.append_assoc, List.length_cons, List.replicate_succ, List.singleton_append]

/-- Settles O57: the command, the opening of the bracket, the data frames, and the delivery. -/
theorem readDeliversTheBracketedMessage : Obligations.ReadDeliversTheBracketedMessage := by
  intro s len ps inv ph role host sizes room frames takes txs
  have listens := step_listens (inv.busyPhase.mpr ph) ph role host
  generalize hr : setPhase (.recv .msg) (resetExchange (setMode .receiver (latch cmdRead len tInf true (setHost [] s)))) =
    r at listens
  have env : Brings ([ctrlFrame ftSeqBegin] ++ payloadFrames 1 ps ++ [ctrlFrame ftSeqEnd]) (ps.length + 2) r :=
    hr ▸ ⟨rfl, frames, takes, txs⟩
  obtain ⟨t, opens, ht, env, opened⟩ :=
    step_seqBegin env (hr ▸ rfl) (hr ▸ rfl) (hr ▸ rfl) (hr ▸ rfl)
  have fits : ∀ p ∈ ps, p.length ≤ r.mtu.toNat := hr ▸ sizes
  obtain ⟨u, data, hu, env, accepted⟩ := run_data ps ht env fits
  have room' : ([] ++ ps.flatten).length ≤ r.len.toNat := hr ▸ room
  obtain ⟨v, closes, done, mode, rxq, hbuf, closed⟩ := step_seqEnd hu env room'
  have before : sentFrames r = sentFrames s := hr ▸ rfl
  have memory : r.hbuf = s.hbuf := hr ▸ rfl
  rw [List.nil_append] at done hbuf
  refine ⟨v, ?_, done, mode, rxq, ?_, ?_⟩
  · exact (run_succ (M := core) listens _).trans ((run_succ (M := core) opens _).trans
      ((run_add data 1).trans (run_succ (M := core) closes 0)))
  · rw [hbuf, memory]
    exact memReadBytes_memWriteBytes ps.flatten 0 inv.memory
  · rw [closed, accepted, opened, before, List.replicate_succ, List.replicate_succ']
    simp only [List.append_assoc, List.cons_append, List.nil_append]

end Sys2Proof.Proofs.BracketedRead
end
